-- ==== Sys2Proof/Word.lean ====
section
/-! DEFINITION. The values of rules R1 to R3: bytes, nibbles and levels, bit 0 the least significant. -/

namespace Sys2Proof

/-- A byte: an 8-bit unsigned value (rule R2). -/
abbrev Byte := BitVec 8

/-- A nibble: a 4-bit unsigned value (rule R2). -/
abbrev Nibble := BitVec 4

/-- A bit or line level: `false` is 0 and `true` is 1 (rule R2). -/
abbrev Level := Bool

end Sys2Proof
end

