-- ==== Sys2Proof/Config.lean ====
section
/-! DEFINITION. What is fixed for one device (the descriptor of rules R21 to R29) and the free values the
spec leaves to the environment. The descriptor is held in State, where no step writes it, so that every
statement about every state is a statement about every descriptor. -/

namespace Sys2Proof

/-- A pin identifier. The spec leaves the type open (D1); a natural number stands for any countable type
(DESIGN CHOICE, log entry 1). -/
abbrev PinId := Nat

/-- `data_pins[0..7]`, least significant bit first (rule R25). -/
structure DataPins where
  d0 : PinId
  d1 : PinId
  d2 : PinId
  d3 : PinId
  d4 : PinId
  d5 : PinId
  d6 : PinId
  d7 : PinId
  deriving DecidableEq, Repr

/-- `row_offsets[0..3]`, the row-offset file (rules R28, R37). -/
structure RowOffsets where
  r0 : Byte
  r1 : Byte
  r2 : Byte
  r3 : Byte
  deriving DecidableEq, Repr

/-- The device descriptor, field for field of the table of rule R36. -/
structure Descriptor where
  /-- `rs_pin`, the register-select line (rule R22). -/
  rsPin : PinId
  /-- `rw_pin`, the read/write line, which may be `PIN_NC` (rule R23). -/
  rwPin : PinId
  /-- `en_pin`, the enable line (rule R24). -/
  enPin : PinId
  /-- `data_pins` (rule R25). -/
  dataPins : DataPins
  /-- `bus_width_is_8bit` (rule R26). -/
  bus8 : Bool
  /-- `line_count`, an integer that only `initialize` checks (rule R27). -/
  lineCount : Int
  /-- `row_offsets` (rule R28). -/
  rowOffsets : RowOffsets
  /-- `large_font` (rule R29). -/
  largeFont : Bool
  deriving DecidableEq, Repr

/-- What a capability call answers (rule R31). -/
inductive Answer where
  | ok
  | fail
  deriving DecidableEq, Repr, Inhabited

/-- FREE VALUE. The answer of the `k`-th capability call where State lists none: "a draw of the environment,
under no law" (rule R203, D14; log entry 5). -/
opaque Config.capabilityAnswer : Nat → Answer

/-- FREE VALUE. Whether the enable line fell at event `k`, where its level before or after is unknown
(rules R204, R242; U6, U15; log entry 6). -/
opaque Config.strayFall : Nat → Bool

/-- FREE VALUE. What line number `n` reads as at event `k` while its level is unknown (rules R32, R40; U6, U7;
log entry 6). -/
opaque Config.floatingLevel : Nat → Nat → Level

/-- FREE VALUE. The controller's undriven DB3..DB0 at event `k` in 4-bit wiring (rule R111, U9; log entry 7). -/
opaque Config.undrivenLowNibble : Nat → Nibble

end Sys2Proof
end

