-- ==== Sys2Proof/Machine/Flags.lean ====
section
/-! DEFINITION. The block has no status flag (rule R35); the only flags are the bool operands of host calls, each
mapped to 0 or 1 and shifted to its place in a command byte (rules R2, R98). -/

namespace Sys2Proof.Machine

/-- A bool operand as a byte: false is 0, true is 1 (rule R2). -/
def bit (b : Bool) : Byte := if b then 1 else 0

end Sys2Proof.Machine
end

