-- ==== Sys2Proof/Machine/Operands.lean ====
section
/-! DEFINITION. Operand assembly: the command bytes of rules R88 to R95 and the DDRAM address mapper's arithmetic
(rules R191, R192). Every byte value is the spec's, marked there as general knowledge. -/

namespace Sys2Proof.Machine

/-- CLEAR (rule R88). -/
def clearByte : Byte := 0x01

/-- HOME (rule R89). -/
def homeByte : Byte := 0x02

/-- ENTRY (rule R90). -/
def entryByte (leftToRight autoscroll : Bool) : Byte :=
  0x04 ||| (bit leftToRight <<< 1) ||| bit autoscroll

/-- DISPLAY (rule R91). -/
def displayByte (on cursor blink : Bool) : Byte :=
  0x08 ||| (bit on <<< 2) ||| (bit cursor <<< 1) ||| bit blink

/-- SHIFT, always of the display (rule R92). -/
def shiftByte (right : Bool) : Byte :=
  0x10 ||| 0x08 ||| (bit right <<< 2)

/-- FUNCTION, from its three fields (rule R93). -/
def functionByte (dl n f : Bool) : Byte :=
  0x20 ||| (if dl then 0x10 else 0) ||| (if n then 0x08 else 0) ||| (if f then 0x04 else 0)

/-- `line_count >= 2`, the N bit of the function set (rule R93, D11). -/
def twoLines (d : Descriptor) : Bool := decide (2 ≤ d.lineCount)

/-- `FS(cfg)` (rule R93). -/
def functionSet (d : Descriptor) : Byte := functionByte d.bus8 (twoLines d) d.largeFont

/-- CGRAM: `0x40 | (slot << 3)` (rule R94). -/
def cgramByte (slot : Byte) : Byte := 0x40 ||| (slot <<< 3)

/-- DDRAM: `0x80 | a` (rule R95). -/
def ddramByte (a : Byte) : Byte := 0x80 ||| a

/-- The nibble `value >> 4` (rules R2, R128). -/
def highNibble (v : Byte) : Byte := v >>> 4

/-- The nibble `value & 0xF` (rules R2, R128). -/
def lowNibble (v : Byte) : Byte := v &&& 0x0F

/-- The first clamp: a row of 4 or more becomes 3 (rule R191). -/
def clampToThree (row : Byte) : Nat := if 4 ≤ row.toNat then 3 else row.toNat

/-- Both clamps, in order: to 3, then to `line_count - 1` (rule R191, conflict C2). -/
def clampRow (lineCount : Int) (row : Byte) : Nat :=
  if lineCount ≤ (clampToThree row : Int) then (lineCount - 1).toNat else clampToThree row

/-- An entry of the row-offset file (rule R37); the clamp keeps the index in 0..3. -/
def rowOffset (r : RowOffsets) : Nat → Byte
  | 0 => r.r0
  | 1 => r.r1
  | 2 => r.r2
  | _ => r.r3

/-- `a = (row_offsets[r'] + col) mod 256` (rule R192). -/
def ddramAddress (d : Descriptor) (col row : Byte) : Byte :=
  rowOffset d.rowOffsets (clampRow d.lineCount row) + col

end Sys2Proof.Machine
end

