-- ==== Sys2Proof/Syntax.lean ====
section
/-! DEFINITION. The instructions: one constructor per row of spec/opcode_table.json, which is one row per emitted
bus word, keyed by the host call that emits it (30_encoding.md section 7). The host calls of rule R102, which
expand into these words, are `Sys2Proof.Machine.HostCall`. -/

namespace Sys2Proof

/-- An emitted bus word, with the operand bits its row names. -/
inductive Instr where
  /-- `initialize.raw_0011`: the raw nibble `0b0011`, 4-bit mode only (rule R146). -/
  | initializeRaw0011
  /-- `initialize.raw_0010`: the raw nibble `0b0010` that commits 4-bit mode (rule R146). -/
  | initializeRaw0010
  /-- `initialize.function_set`: `0001LNF00` (rules R93, R147). -/
  | initializeFunctionSet (dl n f : Bool)
  /-- `initialize.display_default`: 0x0C (rule R148). -/
  | initializeDisplayDefault
  /-- `initialize.entry_default`: 0x06 (rule R149). -/
  | initializeEntryDefault
  /-- `clear`: 0x01 (rule R161). -/
  | clear
  /-- `home`: 0x02 (rule R162). -/
  | home
  /-- `set_display_mode`: `000001DCB` (rule R163). -/
  | setDisplayMode (on cursor blink : Bool)
  /-- `scroll_left`: 0x18 (rule R164). -/
  | scrollLeft
  /-- `scroll_right`: 0x1C (rule R165). -/
  | scrollRight
  /-- `set_text_direction`: `0000001IS` (rule R166). -/
  | setTextDirection (leftToRight autoscroll : Bool)
  /-- `create_custom_char.cgram_address`: `001sss000` (rule R171). -/
  | createCustomCharCgramAddress (slot : BitVec 3)
  /-- `create_custom_char.glyph_row`: `1gggggggg` (rule R172). -/
  | createCustomCharGlyphRow (g : Byte)
  /-- `set_cursor`: `01aaaaaaa` (rule R193). -/
  | setCursor (a : BitVec 7)
  /-- `write_char`: `1bbbbbbbb` (rule R175). -/
  | writeChar (b : Byte)
  /-- `print`: `1tttttttt`, one byte of the text (rule R176). -/
  | print (t : Byte)
  /-- `transmit.w8`: the 8-bit frame, internal (rules R83, R127). -/
  | transmitW8 (isData : Bool) (v : Byte)
  /-- `transmit.w4x2`: the 4-bit frame, internal (rules R84, R128). -/
  | transmitW4x2 (isData : Bool) (v : Byte)
  deriving DecidableEq, Repr

end Sys2Proof
end

