-- ==== Sys2Proof/Machine/State.lean ====
section
/-! DEFINITION. The state of the machine: the descriptor and the environment's parameters, the block's dynamic
state (10_state.md section 3), the sequencer's position, the host's calls, and the far end of the bus. -/

namespace Sys2Proof.Machine

/-- The phase register (rule R30). -/
inductive Phase where
  | uninit
  | ready
  | desync
  deriving DecidableEq, Repr

/-- A capability call, the element of the output trace (rule R31). -/
inductive Event where
  /-- `set_pin_direction(p, output)`. -/
  | setDir (p : PinId)
  /-- `set_pin_level(p, v)`. -/
  | setLevel (p : PinId) (v : Level)
  /-- `sleep_milliseconds(ms)`. -/
  | delay (ms : Nat)
  deriving DecidableEq, Repr

/-- How a host call ended: the four outcomes of rule R200, and the model-only refusal of rule R210. -/
inductive CallResult where
  | ok
  | configError
  | invalidArgument
  | ioError
  | refused
  deriving DecidableEq, Repr

/-- The glyph operand of `create_custom_char`: 8 bytes, one per glyph row (rule R170). -/
structure Glyph where
  g0 : Byte
  g1 : Byte
  g2 : Byte
  g3 : Byte
  g4 : Byte
  g5 : Byte
  g6 : Byte
  g7 : Byte
  deriving DecidableEq, Repr

/-- The host calls, one constructor per row of the table of rule R102. -/
inductive HostCall where
  /-- `initialize()`. -/
  | initializeCall
  | clear
  | home
  | setDisplayMode (on cursor blink : Bool)
  | scrollLeft
  | scrollRight
  | setTextDirection (leftToRight autoscroll : Bool)
  | createCustomChar (slot : Byte) (glyph : Glyph)
  | setCursor (col row : Byte)
  | writeChar (b : Byte)
  | print (text : List Byte)
  deriving DecidableEq, Repr

/-- A host call waiting to be started. `early` says that the host starts it without waiting for the call before
it to return, which rule R69 forbids and rule R210 (c) refuses. -/
structure Request where
  early : Bool
  call : HostCall
  deriving DecidableEq, Repr

/-- What is left of a host call in progress, in order (the sequencer's position of rule R34). Each capability call is
one step of the sequencer (rule R20). -/
inductive Item where
  /-- A capability call. -/
  | call (e : Event)
  /-- The last capability call of `initialize`: the phase becomes `READY` when it succeeds (rule R150). -/
  | callThenReady (e : Event)
  /-- A word of the opcode table whose calls have not begun. -/
  | word (i : Instr)
  deriving DecidableEq, Repr

/-- The level of each bus line (rule R80), `none` while it is unknown (rules R32, R40, R204). -/
structure Lines where
  rs : Option Level
  rw : Option Level
  en : Option Level
  d0 : Option Level
  d1 : Option Level
  d2 : Option Level
  d3 : Option Level
  d4 : Option Level
  d5 : Option Level
  d6 : Option Level
  d7 : Option Level
  deriving DecidableEq, Repr

/-- The bus word of one strobe (rule R82): RS, RW and the data lines. -/
inductive BusWord where
  | w8 (rs rw : Level) (d : Byte)
  | w4 (rs rw : Level) (n : Nibble)
  deriving DecidableEq, Repr

/-- The interface mode of the reference receiver (rule R110). -/
inductive RxMode where
  | m8
  | m4h
  | m4l (h : Nibble)
  deriving DecidableEq, Repr

/-- The far end of the bus, which no rule of the block reads (rules R20, R38): the lines' levels, the strobes the
controller was given, and the reference receiver's mode and delivered `(rs, byte)` pairs (rules R82, R110). -/
structure FarEnd where
  lines : Lines
  strobes : List BusWord
  mode : RxMode
  delivered : List (Level × Byte)
  deriving DecidableEq, Repr

/-- Why the machine stops with a fault: it never does. "The block has no trap mechanism" (60_exceptions.md); every
error of the spec is a call's outcome, after which the machine goes on. -/
inductive Fault where
  deriving DecidableEq, Repr

/-- Why an instruction has no meaning. -/
inductive Refusal where
  /-- Raised by `exec` alone, for an instruction without a meaning; safe. -/
  | notModelled (mnemonic : String)
  /-- Raised by the words of one bus width (rules R85, R127, R128) under a descriptor of the other, where the
  spec has no such word; no host call leads there. Safe: nothing is claimed to happen (log entry 11). -/
  | wrongBusWidth
  deriving DecidableEq, Repr

/-- The machine's state. -/
structure State where
  /-- The parameter `PIN_NC` (D1). -/
  pinNc : PinId
  /-- The device descriptor, read-only (rules R21, R36). -/
  cfg : Descriptor
  /-- The phase register (rule R30). -/
  phase : Phase
  /-- The sticky refusal mark (rule R41). -/
  refused : Bool
  /-- The output trace, oldest first (rule R31). -/
  trace : List (Event × Answer)
  /-- What is left of the host call in progress (rule R34). -/
  seq : List Item
  /-- How each host call so far ended, oldest first (rule R200). -/
  outcomes : List CallResult
  /-- The host's calls not yet started, oldest first (rules R34, R102). -/
  requests : List Request
  /-- The environment's answers to capability calls, by position in the trace (rule R203); MODEL'S OWN. -/
  answers : List Answer
  /-- The far end of the bus (rules R32, R38, R110). -/
  far : FarEnd
  deriving DecidableEq, Repr

/-- The descriptor at reset: the geometry of the source's scenario and of programs P1 (rule R40: "as supplied by
the host; no default"; DESIGN CHOICE, log entry 2). -/
def descriptorAtReset : Descriptor where
  rsPin := 1
  rwPin := 2
  enPin := 3
  dataPins := ⟨4, 5, 6, 7, 8, 9, 10, 11⟩
  bus8 := false
  lineCount := 2
  rowOffsets := ⟨0x00, 0x40, 0x14, 0x54⟩
  largeFont := false

/-- The machine right after a descriptor is created (rules R40, R230). `PIN_NC`, the descriptor and the receiver's
mode are the model's choice (log entries 1, 2 and 3). -/
def State.reset : State where
  pinNc := 0
  cfg := descriptorAtReset
  phase := .uninit
  refused := false
  trace := []
  seq := []
  outcomes := []
  requests := []
  answers := []
  far :=
    { lines := ⟨none, none, none, none, none, none, none, none, none, none, none⟩
      strobes := []
      mode := .m8
      delivered := [] }

end Sys2Proof.Machine
end

