-- ==== Sys2Proof/Machine/Receiver.lean ====
section
/-! DEFINITION. The far end: how a capability call changes the lines, when the enable line falls, the bus word
taken there (rule R82), and the reference receiver (rules R110 to R115). Nothing the block does depends on it. -/

namespace Sys2Proof.Machine

/-- `o` if `p` is the pin of the line, else the line's old level. -/
def lineAfter (pin p : PinId) (o old : Option Level) : Option Level := if p = pin then o else old

/-- The lines after pin `p` takes level `o` (`none`: unknown). A line follows the pin the descriptor gives it
(rule R80). -/
def driveLines (d : Descriptor) (p : PinId) (o : Option Level) (l : Lines) : Lines where
  rs := lineAfter d.rsPin p o l.rs
  rw := lineAfter d.rwPin p o l.rw
  en := lineAfter d.enPin p o l.en
  d0 := lineAfter d.dataPins.d0 p o l.d0
  d1 := lineAfter d.dataPins.d1 p o l.d1
  d2 := lineAfter d.dataPins.d2 p o l.d2
  d3 := lineAfter d.dataPins.d3 p o l.d3
  d4 := lineAfter d.dataPins.d4 p o l.d4
  d5 := lineAfter d.dataPins.d5 p o l.d5
  d6 := lineAfter d.dataPins.d6 p o l.d6
  d7 := lineAfter d.dataPins.d7 p o l.d7

/-- What line number `n` reads as at event `k`: its level, or a free value while that is unknown. -/
def readLine (k n : Nat) (o : Option Level) : Level := o.getD (Config.floatingLevel k n)

/-- RW as the controller sees it: the line, or the low level the host ties it to where `rw_pin` is `PIN_NC`
(rule R23, D7). -/
def readRw (nc : PinId) (d : Descriptor) (k : Nat) (l : Lines) : Level :=
  if d.rwPin = nc then false else readLine k 1 l.rw

/-- Four levels as a nibble, the last argument bit 0. -/
def nibbleOf (b3 b2 b1 b0 : Level) : Nibble :=
  BitVec.ofBool b3 ++ BitVec.ofBool b2 ++ BitVec.ofBool b1 ++ BitVec.ofBool b0

/-- The levels of lines D3..D0. -/
def lowLines (k : Nat) (l : Lines) : Nibble :=
  nibbleOf (readLine k 6 l.d3) (readLine k 5 l.d2) (readLine k 4 l.d1) (readLine k 3 l.d0)

/-- The levels of lines D7..D4. -/
def highLines (k : Nat) (l : Lines) : Nibble :=
  nibbleOf (readLine k 10 l.d7) (readLine k 9 l.d6) (readLine k 8 l.d5) (readLine k 7 l.d4)

/-- The bus word on the lines at event `k` (rules R82 to R85). -/
def busWord (nc : PinId) (d : Descriptor) (k : Nat) (l : Lines) : BusWord :=
  if d.bus8 then .w8 (readLine k 0 l.rs) (readRw nc d k l) (highLines k l ++ lowLines k l)
  else .w4 (readLine k 0 l.rs) (readRw nc d k l) (lowLines k l)

/-- A command byte of the function-set class (rule R87: `byte[7:5] = 0b001`). -/
def isFunctionSet (b : Byte) : Bool := b >>> 5 == 0x01

/-- The mode after a byte is taken in a mode `m`: a function set chooses the interface by its DL bit (rules R111, R113). -/
def modeAfterByte (m : RxMode) (rs : Level) (b : Byte) : RxMode :=
  if !rs && isFunctionSet b then (if b.getLsbD 4 then .m8 else .m4h) else m

/-- RS of a bus word. -/
def BusWord.rs : BusWord → Level
  | .w8 r _ _ => r
  | .w4 r _ _ => r

/-- DB7..DB4 of a bus word (wiring of rule R81). -/
def BusWord.high : BusWord → Nibble
  | .w8 _ _ b => (b >>> 4).setWidth 4
  | .w4 _ _ n => n

/-- DB7..DB0 of a bus word at event `k`: in 4-bit wiring DB3..DB0 are undriven, a draw (rules R81, R111). -/
def BusWord.full (k : Nat) : BusWord → Byte
  | .w8 _ _ b => b
  | .w4 _ _ n => n ++ Config.undrivenLowNibble k

/-- One strobe at the receiver: its next mode and what it delivers (rules R111 to R113). Every strobe is acted on,
the premise rule R115 names (log entry 8). -/
def receive (k : Nat) (m : RxMode) (w : BusWord) : RxMode × List (Level × Byte) :=
  match m with
  | .m8 => (modeAfterByte .m8 w.rs (w.full k), [(w.rs, w.full k)])
  | .m4h => (.m4l w.high, [])
  | .m4l h => (modeAfterByte .m4h w.rs (h ++ w.high), [(w.rs, h ++ w.high)])

/-- The far end after a strobe at event `k`. -/
def FarEnd.strobe (nc : PinId) (d : Descriptor) (k : Nat) (f : FarEnd) : FarEnd :=
  { f with
    strobes := f.strobes ++ [busWord nc d k f.lines]
    mode := (receive k f.mode (busWord nc d k f.lines)).1
    delivered := f.delivered ++ (receive k f.mode (busWord nc d k f.lines)).2 }

/-- Whether event `k`, a write of level `v` to the enable pin answered `a`, makes the enable line fall. A call that
failed, or a low write from an unknown level, may (rules R204, R242). -/
def enableFalls (k : Nat) (old : Option Level) (v : Level) (a : Answer) : Bool :=
  match a, old with
  | .ok, some l => l && !v
  | .ok, none => !v && Config.strayFall k
  | .fail, some false => false
  | .fail, _ => Config.strayFall k

/-- The level a write leaves: as written, or unknown after a failure (rule R204). -/
def levelAfter (v : Level) : Answer → Option Level
  | .ok => some v
  | .fail => none

/-- The far end after event `k`, a write of level `v` to pin `p` answered `a`: a strobe if the enable line fell, on
the levels the lines had, then the pin's new level. -/
def FarEnd.writePin (nc : PinId) (d : Descriptor) (k : Nat) (p : PinId) (v : Level) (a : Answer) (f : FarEnd) :
    FarEnd :=
  let f' := if decide (p = d.enPin) && enableFalls k f.lines.en v a then f.strobe nc d k else f
  { f' with lines := driveLines d p (levelAfter v a) f'.lines }

/-- The far end after capability call number `k` and its answer. A direction call leaves the levels alone
(rule R32) unless it fails, when its effect on the pin is unknown (rule R204, U6); a delay changes nothing. -/
def FarEnd.observe (nc : PinId) (d : Descriptor) (k : Nat) (e : Event) (a : Answer) (f : FarEnd) : FarEnd :=
  match e, a with
  | .setDir _, .ok => f
  | .setDir p, .fail => f.writePin nc d k p false .fail
  | .setLevel p v, a => f.writePin nc d k p v a
  | .delay _, _ => f

end Sys2Proof.Machine
end

