-- ==== Sys2Proof/Machine/Ops.lean ====
section
/-! DEFINITION. The named operations every meaning is made of: issuing capability calls (rule R4), raising the
outcomes of rule R200, the model refusal of rule R210, and the frames of 40_bus_transport.md as lists of events. -/

namespace Sys2Proof.Machine

/-! ### The fixed waits (rule R233), in milliseconds -/

/-- `T_DWELL`. -/
def tDwell : Nat := 1
/-- `T_POST`. -/
def tPost : Nat := 1
/-- `T_POWER`. -/
def tPower : Nat := 50
/-- `T_INIT1`. -/
def tInit1 : Nat := 5
/-- `T_INIT2`. -/
def tInit2 : Nat := 1
/-- `T_CLEAR`. -/
def tClear : Nat := 50
/-- `T_HOME`. -/
def tHome : Nat := 50

/-! ### The descriptor's pins -/

/-- `data_pins[j]`. -/
def dataPin (p : DataPins) : Nat → PinId
  | 0 => p.d0
  | 1 => p.d1
  | 2 => p.d2
  | 3 => p.d3
  | 4 => p.d4
  | 5 => p.d5
  | 6 => p.d6
  | _ => p.d7

/-- `NDATA`: 8 data lines if `bus8`, else 4 (rule R25). -/
def ndata (d : Descriptor) : Nat := if d.bus8 then 8 else 4

/-- `data_pins[0 .. NDATA-1]`. -/
def usedDataPins (d : Descriptor) : List PinId := (List.range (ndata d)).map (dataPin d.dataPins)

/-- The pins `initialize` drives, in the order of step 2 (rules R142, R143). -/
def usedPins (nc : PinId) (d : Descriptor) : List PinId :=
  [d.rsPin] ++ (if d.rwPin = nc then [] else [d.rwPin]) ++ [d.enPin] ++ usedDataPins d

/-- No element occurs twice. -/
def allDistinct : List PinId → Bool
  | [] => true
  | p :: ps => !ps.contains p && allDistinct ps

/-! ### The pin shadow (rule R32), a function of the trace -/

/-- `lvl(p)`: the level of the last successful `SetLevel` on the pin, else unknown. -/
def pinLevel (t : List (Event × Answer)) (p : PinId) : Option Level :=
  t.foldl (fun old x =>
    match x with
    | (.setLevel q v, .ok) => if q = p then some v else old
    | _ => old) none

/-- `dir(p)` is output: some successful `SetDir` on the pin is in the trace; else it is unknown. -/
def pinIsOutput (t : List (Event × Answer)) (p : PinId) : Bool :=
  t.contains (.setDir p, .ok)

/-! ### Outcomes of a host call (rules R200 to R210) -/

/-- Records how a host call ended (rule R200). -/
def endCall (r : CallResult) (s : State) : State := { s with outcomes := s.outcomes ++ [r] }

/-- Raising `IoError`: the phase becomes `DESYNC` and the call ends with no further capability call; nothing is
saved and no other state changes (rules R204, R207). -/
def raiseIoError (s : State) : State := endCall .ioError { s with phase := .desync, seq := [] }

/-- Raising `ConfigError`: no state changes (rules R201, R207). -/
def raiseConfigError (s : State) : State := endCall .configError s

/-- Raising `InvalidArgument`: no state changes (rules R202, R207). -/
def raiseInvalidArgument (s : State) : State := endCall .invalidArgument s

/-- The model's refusal of a call: the sticky mark is set and nothing else changes (rules R41, R210). -/
def refuse (s : State) : State := endCall .refused { s with refused := true }

/-- The end of a sequencer step: the call returns `Ok` when nothing of it is left (rule R200). -/
def finishItem (s : State) : State := if s.seq = [] then endCall .ok s else s

/-! ### Capability calls (rules R4, R31, R203) -/

/-- The environment's answer to the `k`-th capability call: what State lists, else a free value (D14). -/
def answerAt (s : State) (k : Nat) : Answer := (s.answers[k]?).getD (Config.capabilityAnswer k)

/-- Whether the next `n` capability calls all answer `ok`. -/
def AllOk (s : State) (n : Nat) : Prop := ∀ k < n, answerAt s (s.trace.length + k) = .ok

/-- Appends one event with its answer to the trace (rule R31); the far end sees it. -/
def record (e : Event) (a : Answer) (s : State) : State :=
  { s with
    trace := s.trace ++ [(e, a)]
    far := s.far.observe s.pinNc s.cfg s.trace.length e a }

/-- One capability call, one step of the sequencer (rules R4, R20): if it answers `ok`, `after` is applied and the step
ends; if it fails, the host call ends with `IoError` (rule R204). -/
def issueThen (after : State → State) (e : Event) (s : State) : State :=
  match answerAt s s.trace.length with
  | .ok => finishItem (after (record e .ok s))
  | .fail => raiseIoError (record e .fail s)

/-- One capability call after which nothing else changes. -/
def issue (e : Event) (s : State) : State := issueThen id e s

/-- The first capability call of a list; those after it stand next in the sequencer, one for each further step, each
begun when the one before it is complete (rules R5, R20, R66). -/
def emit : List Event → State → State
  | [], s => finishItem s
  | e :: es, s => issue e { s with seq := es.map .call ++ s.seq }

/-- A word of a steady-state operation: emitted in `READY`; in any other phase the call is refused, what is left of
it is dropped, and no capability call is made (rules R160, R210 (a), which speak of calls; log entry 17). -/
def emitReady (es : List Event) (s : State) : State :=
  if s.phase = .ready then emit es s else refuse { s with seq := [] }

/-! ### The primitives of the bus transport (rules R120, R122, R131), as the events they issue -/

/-- `put_lines(x, n)`: the first `n` data lines, ascending (rule R120). -/
def putLines (d : Descriptor) (x : Byte) (n : Nat) : List Event :=
  (List.range n).map fun j => .setLevel (dataPin d.dataPins j) (x.getLsbD j)

/-- `pulse_enable()` (rule R122). -/
def pulseEnable (d : Descriptor) : List Event :=
  [.setLevel d.enPin false, .delay tDwell, .setLevel d.enPin true, .delay tDwell,
    .setLevel d.enPin false, .delay tDwell]

/-- The strobes of a transmit: one 8-bit frame or two nibbles, high first (rules R127, R128). -/
def frame (d : Descriptor) (v : Byte) : List Event :=
  if d.bus8 then putLines d v 8 ++ pulseEnable d
  else putLines d (highNibble v) 4 ++ pulseEnable d ++ (putLines d (lowNibble v) 4 ++ pulseEnable d)

/-- The calls of a transmit before its settle wait: RS, the frame. RW is not driven (rules R125, R126). -/
def transmitFrame (d : Descriptor) (v : Byte) (isData : Bool) : List Event := .setLevel d.rsPin isData :: frame d v

/-- `transmit(value, is_data)` (rule R131): RS, the frame, the settle wait of rule R129. -/
def transmit (d : Descriptor) (v : Byte) (isData : Bool) : List Event := transmitFrame d v isData ++ [.delay tPost]

/-- A raw nibble pulse: one 4-bit strobe outside any transmit, RS not written, no settle wait (rules R85, R146). -/
def rawNibble (d : Descriptor) (n : Byte) : List Event := putLines d n 4 ++ pulseEnable d

end Sys2Proof.Machine
end

