-- ==== Sys2Proof/Machine/Initialize.lean ====
section
/-! DEFINITION. The initialization handshake sequencer (41_init_sequencer.md): the meanings of its words, and
its step that sends no word. -/

namespace Sys2Proof.Machine

/-- `initialize.raw_0011` (rule R146): there is no raw nibble on an 8-bit bus. -/
def execInitializeRaw0011 (s : State) : Host.Outcome State Fault Refusal :=
  if s.cfg.bus8 then .refused .wrongBusWidth else .next (emit (rawNibble s.cfg 0x3) s)

/-- `initialize.raw_0010` (rule R146). -/
def execInitializeRaw0010 (s : State) : Host.Outcome State Fault Refusal :=
  if s.cfg.bus8 then .refused .wrongBusWidth else .next (emit (rawNibble s.cfg 0x2) s)

/-- `initialize.function_set` (rules R145, R147): `transmit` of the function-set byte with RS = 0. The spec gives the word
only with the descriptor's own fields (rule R93, `FS(cfg)`); a word with other fields is sent as given, over the
descriptor's bus width (DESIGN CHOICE, log entry 24). -/
def execInitializeFunctionSet (dl n f : Bool) (s : State) : Host.Outcome State Fault Refusal :=
  .next (emit (transmit s.cfg (functionByte dl n f) false) s)

/-- `initialize.display_default` (rule R148): display on, cursor off, blink off. -/
def execInitializeDisplayDefault (s : State) : Host.Outcome State Fault Refusal :=
  .next (emit (transmit s.cfg (0x08 ||| 0x04) false) s)

/-- `initialize.entry_default` (rule R149): left to right, no autoscroll; when its last call, the settle wait, has
succeeded the phase becomes `READY` (rule R150). -/
def execInitializeEntryDefault (s : State) : Host.Outcome State Fault Refusal :=
  .next (emit (transmitFrame s.cfg (0x04 ||| 0x02) false) { s with seq := .callThenReady (.delay tPost) :: s.seq })

/-- The call after which the phase is `READY` (rule R150). -/
def issueThenReady (e : Event) (s : State) : State := issueThen (fun t => { t with phase := .ready }) e s

/-- Step 2: every used pin becomes an output, driven low (rule R143). -/
def setupPins (nc : PinId) (d : Descriptor) : List Event :=
  (usedPins nc d).flatMap fun p => [.setDir p, .setLevel p false]

end Sys2Proof.Machine
end

