-- ==== Sys2Proof/Machine/Calls.lean ====
section
/-! DEFINITION. The host calls of rule R102: the checks each makes before any capability call (rule R206) and the
capability calls and words it is made of, loaded when the call starts with its operands taken by value (D21). -/

namespace Sys2Proof.Machine

/-- Starts a call made of the given items; a call of none returns `Ok` at once (rule R176, `print([])`). -/
def beginCall (items : List Item) (s : State) : State := finishItem { s with seq := items }

/-- The common precondition of the steady-state calls: in any phase but `READY` the call is refused (rule R160). -/
def whenReady (s t : State) : State := if s.phase = .ready then t else refuse s

/-- The function-set word of the descriptor (rule R93). -/
def functionSetWord (d : Descriptor) : Item :=
  .word (.initializeFunctionSet d.bus8 (twoLines d) d.largeFont)

/-- Step 4 or 4' of `initialize` (rules R145, R146). -/
def lockingItems (d : Descriptor) : List Item :=
  if d.bus8 then
    [functionSetWord d, .call (.delay tInit1), functionSetWord d, .call (.delay tInit2), functionSetWord d]
  else
    [.word .initializeRaw0011, .call (.delay tInit1), .word .initializeRaw0011, .call (.delay tInit2),
      .word .initializeRaw0011, .word .initializeRaw0010]

/-- Steps 2 to 6 of `initialize` (rule R152). -/
def initializeItems (nc : PinId) (d : Descriptor) : List Item :=
  (setupPins nc d).map .call ++ [.call (.delay tPower)] ++ lockingItems d ++
    [functionSetWord d, .word .initializeDisplayDefault, .word .initializeEntryDefault]

/-- Step 1 fails: RS or E not connected, or `line_count` outside [1,4] (rule R141). -/
def descriptorInvalid (nc : PinId) (d : Descriptor) : Bool :=
  d.rsPin == nc || d.enPin == nc || decide (d.lineCount < 1) || decide (4 < d.lineCount)

/-- A pin set the model gives no meaning to: a pin used twice, or a used data pin not connected (rule R142). -/
def unusablePinSet (nc : PinId) (d : Descriptor) : Bool :=
  !allDistinct (usedPins nc d) || (usedDataPins d).contains nc

/-- `initialize()` (rule R152): accepted in every phase (rule R140). -/
def callInitialize (s : State) : State :=
  if descriptorInvalid s.pinNc s.cfg then raiseConfigError s
  else if unusablePinSet s.pinNc s.cfg then refuse s
  else beginCall (initializeItems s.pinNc s.cfg) s

/-- `clear()` (rule R161). -/
def callClear (s : State) : State := whenReady s (beginCall [.word .clear] s)

/-- `home()` (rule R162). -/
def callHome (s : State) : State := whenReady s (beginCall [.word .home] s)

/-- `set_display_mode(on, cursor, blink)` (rule R163). -/
def callSetDisplayMode (on cursor blink : Bool) (s : State) : State :=
  whenReady s (beginCall [.word (.setDisplayMode on cursor blink)] s)

/-- `scroll_left()` (rule R164). -/
def callScrollLeft (s : State) : State := whenReady s (beginCall [.word .scrollLeft] s)

/-- `scroll_right()` (rule R165). -/
def callScrollRight (s : State) : State := whenReady s (beginCall [.word .scrollRight] s)

/-- `set_text_direction(left_to_right, autoscroll)` (rule R166). -/
def callSetTextDirection (leftToRight autoscroll : Bool) (s : State) : State :=
  whenReady s (beginCall [.word (.setTextDirection leftToRight autoscroll)] s)

/-- The glyph's rows, in order. -/
def Glyph.rows (g : Glyph) : List Byte := [g.g0, g.g1, g.g2, g.g3, g.g4, g.g5, g.g6, g.g7]

/-- The words of a valid `create_custom_char` (rules R171, R172); the slot fits 3 bits. -/
def customCharItems (slot : Byte) (glyph : Glyph) : List Item :=
  .word (.createCustomCharCgramAddress (slot.setWidth 3)) ::
    glyph.rows.map fun r => .word (.createCustomCharGlyphRow r)

/-- `create_custom_char(slot, glyph)` (rules R170, R172): the phase check comes first (rule R206). -/
def callCreateCustomChar (slot : Byte) (glyph : Glyph) (s : State) : State :=
  whenReady s
    (if 7 < slot.toNat then raiseInvalidArgument s else beginCall (customCharItems slot glyph) s)

/-- `set_cursor(col, row)` (rules R190 to R193): the mapper's byte; the command's bit 7 takes the place of the
address's (rule R95). -/
def callSetCursor (col row : Byte) (s : State) : State :=
  whenReady s (beginCall [.word (.setCursor ((ddramAddress s.cfg col row).setWidth 7))] s)

/-- `write_char(b)` (rule R175). -/
def callWriteChar (b : Byte) (s : State) : State := whenReady s (beginCall [.word (.writeChar b)] s)

/-- `print(text)` (rule R176). -/
def callPrint (text : List Byte) (s : State) : State :=
  whenReady s (beginCall (text.map fun t => .word (.print t)) s)

/-- Starts a host call (rule R102). -/
def startCall (c : HostCall) (s : State) : State :=
  match c with
  | .initializeCall => callInitialize s
  | .clear => callClear s
  | .home => callHome s
  | .setDisplayMode on cursor blink => callSetDisplayMode on cursor blink s
  | .scrollLeft => callScrollLeft s
  | .scrollRight => callScrollRight s
  | .setTextDirection ltr autoscroll => callSetTextDirection ltr autoscroll s
  | .createCustomChar slot glyph => callCreateCustomChar slot glyph s
  | .setCursor col row => callSetCursor col row s
  | .writeChar b => callWriteChar b s
  | .print text => callPrint text s

end Sys2Proof.Machine
end

