-- ==== Sys2Proof/Machine/Display.lean ====
section
/-! DEFINITION. The display commands of 42_controller_ops.md (rules R161 to R166): each one transmit with RS = 0. -/

namespace Sys2Proof.Machine

/-- `clear` (rule R161). -/
def execClear (s : State) : Host.Outcome State Fault Refusal :=
  .next (emitReady (transmit s.cfg clearByte false ++ [.delay tClear]) s)

/-- `home` (rule R162). -/
def execHome (s : State) : Host.Outcome State Fault Refusal :=
  .next (emitReady (transmit s.cfg homeByte false ++ [.delay tHome]) s)

/-- `set_display_mode` (rule R163). -/
def execSetDisplayMode (on cursor blink : Bool) (s : State) : Host.Outcome State Fault Refusal :=
  .next (emitReady (transmit s.cfg (displayByte on cursor blink) false) s)

/-- `scroll_left` (rule R164). -/
def execScrollLeft (s : State) : Host.Outcome State Fault Refusal :=
  .next (emitReady (transmit s.cfg (shiftByte false) false) s)

/-- `scroll_right` (rule R165). -/
def execScrollRight (s : State) : Host.Outcome State Fault Refusal :=
  .next (emitReady (transmit s.cfg (shiftByte true) false) s)

/-- `set_text_direction` (rule R166). -/
def execSetTextDirection (leftToRight autoscroll : Bool) (s : State) : Host.Outcome State Fault Refusal :=
  .next (emitReady (transmit s.cfg (entryByte leftToRight autoscroll) false) s)

end Sys2Proof.Machine
end

