-- ==== Sys2Proof/Machine/Text.lean ====
section
/-! DEFINITION. The words that address and fill the controller's memories: `set_cursor` (43_ddram_mapper.md),
`create_custom_char`, `write_char` and `print` (42_controller_ops.md). -/

namespace Sys2Proof.Machine

/-- `create_custom_char.cgram_address` (rule R171): `0x40 | (slot << 3)` with RS = 0. -/
def execCreateCustomCharCgramAddress (slot : BitVec 3) (s : State) : Host.Outcome State Fault Refusal :=
  .next (emitReady (transmit s.cfg (cgramByte (slot.setWidth 8)) false) s)

/-- `create_custom_char.glyph_row` (rule R172): one glyph row, unchanged, with RS = 1. -/
def execCreateCustomCharGlyphRow (g : Byte) (s : State) : Host.Outcome State Fault Refusal :=
  .next (emitReady (transmit s.cfg g true) s)

/-- `set_cursor` (rule R193): the set-DDRAM-address command with the 7-bit address the controller gets. -/
def execSetCursor (a : BitVec 7) (s : State) : Host.Outcome State Fault Refusal :=
  .next (emitReady (transmit s.cfg (ddramByte (a.setWidth 8)) false) s)

/-- `write_char` (rule R175): the byte, unchanged, with RS = 1. -/
def execWriteChar (b : Byte) (s : State) : Host.Outcome State Fault Refusal :=
  .next (emitReady (transmit s.cfg b true) s)

/-- `print`, one byte of its text (rule R176): as `write_char` of it. -/
def execPrint (t : Byte) (s : State) : Host.Outcome State Fault Refusal :=
  .next (emitReady (transmit s.cfg t true) s)

end Sys2Proof.Machine
end

