-- ==== Sys2Proof/Machine/Transport.lean ====
section
/-! DEFINITION. The two frame formats of `transmit` as instructions of their own (rules R127, R128). They are
internal to the block: no host call and no phase check stands before them (rule R103). -/

namespace Sys2Proof.Machine

/-- `transmit.w8` (rules R83, R127): the transmit of an 8-bit bus. -/
def execTransmitW8 (isData : Bool) (v : Byte) (s : State) : Host.Outcome State Fault Refusal :=
  if s.cfg.bus8 then .next (emit (transmit s.cfg v isData) s) else .refused .wrongBusWidth

/-- `transmit.w4x2` (rules R84, R128): the transmit of a 4-bit bus. -/
def execTransmitW4x2 (isData : Bool) (v : Byte) (s : State) : Host.Outcome State Fault Refusal :=
  if s.cfg.bus8 then .refused .wrongBusWidth else .next (emit (transmit s.cfg v isData) s)

end Sys2Proof.Machine
end

