-- ==== Sys2Proof/Machine/Dispatch.lean ====
section
/-! DEFINITION. The meaning of every instruction, one arm each. -/

namespace Sys2Proof.Machine

def exec (i : Instr) (s : State) : Host.Outcome State Fault Refusal :=
  match i with
  | .initializeRaw0011 => Sys2Proof.Machine.execInitializeRaw0011 s
  | .initializeRaw0010 => Sys2Proof.Machine.execInitializeRaw0010 s
  | .initializeFunctionSet dl n f => Sys2Proof.Machine.execInitializeFunctionSet dl n f s
  | .initializeDisplayDefault => Sys2Proof.Machine.execInitializeDisplayDefault s
  | .initializeEntryDefault => Sys2Proof.Machine.execInitializeEntryDefault s
  | .clear => Sys2Proof.Machine.execClear s
  | .home => Sys2Proof.Machine.execHome s
  | .setDisplayMode on cursor blink => Sys2Proof.Machine.execSetDisplayMode on cursor blink s
  | .scrollLeft => Sys2Proof.Machine.execScrollLeft s
  | .scrollRight => Sys2Proof.Machine.execScrollRight s
  | .setTextDirection ltr autoscroll => Sys2Proof.Machine.execSetTextDirection ltr autoscroll s
  | .createCustomCharCgramAddress slot => Sys2Proof.Machine.execCreateCustomCharCgramAddress slot s
  | .createCustomCharGlyphRow g => Sys2Proof.Machine.execCreateCustomCharGlyphRow g s
  | .setCursor a => Sys2Proof.Machine.execSetCursor a s
  | .writeChar b => Sys2Proof.Machine.execWriteChar b s
  | .print t => Sys2Proof.Machine.execPrint t s
  | .transmitW8 isData v => Sys2Proof.Machine.execTransmitW8 isData v s
  | .transmitW4x2 isData v => Sys2Proof.Machine.execTransmitW4x2 isData v s

end Sys2Proof.Machine
end

