-- ==== Sys2Proof/Decode.lean ====
section
/-! DEFINITION. Decoding and encoding of the opcode table's words. The block itself decodes no words (rule R101);
a word's meaning is fixed by the operation that emits it and by its format (rule R86), so a table word here
carries both: the emitting operation and its width, 5 bits for RAW4 `(RS,D3..D0)`, 9 for TX and W8
`(RS,D7..D0)`, 10 for W4x2. -/

namespace Sys2Proof

/-- The operation a row of the opcode table is keyed by. -/
inductive Emitter where
  | initializeCall
  | clear
  | home
  | setDisplayMode
  | scrollLeft
  | scrollRight
  | setTextDirection
  | createCustomChar
  | setCursor
  | writeChar
  | print
  | transmit
  deriving DecidableEq, Repr

/-- A word of the opcode table: who emits it, how wide its format is, and its bits, bit 0 the least significant. -/
structure TableWord where
  emitter : Emitter
  width : Nat
  bits : Nat
  deriving DecidableEq, Repr

/-- Why a word is no instruction. -/
inductive DecodeError where
  /-- The emitter has no format of this width. -/
  | noSuchFormat
  /-- A bit above the format's width is set. -/
  | bitsAboveWidth
  /-- The format is the emitter's, but no row of the table matches (rule R100: never emitted). -/
  | neverEmitted
  deriving DecidableEq, Repr

/-- The two halves of a 4-bit frame are equal in RS; the first strobe's word lies in bits 4..0 and the second's
in bits 9..5 (the table's numbering: a later word's bits count on; log entry 10). -/
def decodeW4x2 (bits : Nat) : Except DecodeError Instr :=
  if bits.testBit 4 = bits.testBit 9 then
    .ok (.transmitW4x2 (bits.testBit 4) (BitVec.ofNat 4 bits ++ BitVec.ofNat 4 (bits >>> 5)))
  else .error .neverEmitted

/-- The instruction when `ok` holds, else a rejection of the word by name. -/
def only (ok : Bool) (i : Instr) : Except DecodeError Instr :=
  if ok then .ok i else .error .neverEmitted

/-- Decodes the 9-bit words `(RS,D7..D0)` that `initialize` sends (rules R147 to R149). -/
def decodeInitialize9 (bits : Nat) : Except DecodeError Instr :=
  if bits &&& 0x1E3 = 0x020 then
    .ok (.initializeFunctionSet (bits.testBit 4) (bits.testBit 3) (bits.testBit 2))
  else if bits = 0x00C then .ok .initializeDisplayDefault
  else only (bits = 0x006) .initializeEntryDefault

/-- Decodes the 5-bit words `(RS,D3..D0)` that `initialize` sends (rule R146). -/
def decodeInitialize5 (bits : Nat) : Except DecodeError Instr :=
  if bits = 0x03 then .ok .initializeRaw0011 else only (bits = 0x02) .initializeRaw0010

/-- Decodes a 9-bit word `(RS,D7..D0)` of an emitter, row by row of the opcode table. -/
def decode9 (e : Emitter) (bits : Nat) : Except DecodeError Instr :=
  match e with
  | .initializeCall => decodeInitialize9 bits
  | .clear => only (bits = 0x001) .clear
  | .home => only (bits = 0x002) .home
  | .setDisplayMode =>
    only (bits &&& 0x1F8 = 0x008) (.setDisplayMode (bits.testBit 2) (bits.testBit 1) (bits.testBit 0))
  | .scrollLeft => only (bits = 0x018) .scrollLeft
  | .scrollRight => only (bits = 0x01C) .scrollRight
  | .setTextDirection =>
    only (bits &&& 0x1FC = 0x004) (.setTextDirection (bits.testBit 1) (bits.testBit 0))
  | .createCustomChar =>
    if bits &&& 0x100 = 0x100 then .ok (.createCustomCharGlyphRow (BitVec.ofNat 8 bits))
    else only (bits &&& 0x1C7 = 0x040) (.createCustomCharCgramAddress (BitVec.ofNat 3 (bits >>> 3)))
  | .setCursor => only (bits &&& 0x180 = 0x080) (.setCursor (BitVec.ofNat 7 bits))
  | .writeChar => only (bits &&& 0x100 = 0x100) (.writeChar (BitVec.ofNat 8 bits))
  | .print => only (bits &&& 0x100 = 0x100) (.print (BitVec.ofNat 8 bits))
  | .transmit => .ok (.transmitW8 (bits.testBit 8) (BitVec.ofNat 8 bits))

/-- Decodes any table word, rejecting by name what no row matches. -/
def decode (w : TableWord) : Except DecodeError Instr :=
  if 2 ^ w.width ≤ w.bits then .error .bitsAboveWidth
  else if w.width = 9 then decode9 w.emitter w.bits
  else if w.width = 5 ∧ w.emitter = .initializeCall then decodeInitialize5 w.bits
  else if w.width = 10 ∧ w.emitter = .transmit then decodeW4x2 w.bits
  else .error .noSuchFormat

/-- The 9-bit word `(RS,D7..D0)` of a register select and a byte. -/
def word9 (isData : Bool) (v : Byte) : Nat := isData.toNat * 0x100 + v.toNat

/-- The table word of an instruction, field for field of its row's `encoding` string. -/
def encode : Instr → TableWord
  | .initializeRaw0011 => ⟨.initializeCall, 5, 0x03⟩
  | .initializeRaw0010 => ⟨.initializeCall, 5, 0x02⟩
  | .initializeFunctionSet dl n f =>
    ⟨.initializeCall, 9, 0x020 + dl.toNat * 0x10 + n.toNat * 0x08 + f.toNat * 0x04⟩
  | .initializeDisplayDefault => ⟨.initializeCall, 9, 0x00C⟩
  | .initializeEntryDefault => ⟨.initializeCall, 9, 0x006⟩
  | .clear => ⟨.clear, 9, 0x001⟩
  | .home => ⟨.home, 9, 0x002⟩
  | .setDisplayMode on cursor blink =>
    ⟨.setDisplayMode, 9, 0x008 + on.toNat * 4 + cursor.toNat * 2 + blink.toNat⟩
  | .scrollLeft => ⟨.scrollLeft, 9, 0x018⟩
  | .scrollRight => ⟨.scrollRight, 9, 0x01C⟩
  | .setTextDirection ltr autoscroll => ⟨.setTextDirection, 9, 0x004 + ltr.toNat * 2 + autoscroll.toNat⟩
  | .createCustomCharCgramAddress slot => ⟨.createCustomChar, 9, 0x040 + slot.toNat * 8⟩
  | .createCustomCharGlyphRow g => ⟨.createCustomChar, 9, word9 true g⟩
  | .setCursor a => ⟨.setCursor, 9, 0x080 + a.toNat⟩
  | .writeChar b => ⟨.writeChar, 9, word9 true b⟩
  | .print t => ⟨.print, 9, word9 true t⟩
  | .transmitW8 isData v => ⟨.transmit, 9, word9 isData v⟩
  | .transmitW4x2 isData v =>
    ⟨.transmit, 10, isData.toNat * 0x10 + v.toNat / 16 + (isData.toNat * 0x10 + v.toNat % 16) * 0x20⟩

/-- The instruction of the first emitter, in the order given, one of whose rows matches the 9-bit word. -/
def decodeFirst (bits : Nat) : List Emitter → Option Instr
  | [] => none
  | e :: es =>
    match decode ⟨e, 9, bits⟩ with
    | .ok i => some i
    | .error _ => decodeFirst bits es

/-- The order in which an emitter is guessed for a bare 9-bit word: rows with every bit fixed first, `write_char`
before the two other rows with its bits, and the internal frame, which any word matches, last (log entry 10). -/
def emitterOrder : List Emitter :=
  [.initializeCall, .clear, .home, .scrollLeft, .scrollRight, .setTextDirection, .setDisplayMode, .setCursor,
    .writeChar, .print, .createCustomChar, .transmit]

/-- The instruction read from a bare word of the opcode table, whose bits do not say who emits it (rule R86):
one byte is a RAW4 word, two bytes are a TX or W8 word if they fit in 9 bits and a W4x2 frame otherwise. -/
def decodeTableWord (nbits w : Nat) : Option Instr :=
  if nbits = 8 then (decode ⟨.initializeCall, 5, w⟩).toOption
  else if nbits = 16 then
    if w < 0x200 then decodeFirst w emitterOrder else (decode ⟨.transmit, 10, w⟩).toOption
  else none

end Sys2Proof
end

