-- ==== Sys2Proof/Machine/Sequencer.lean ====
section
/-! DEFINITION. What the sequencer does next: the one agent of rule R20, which runs one host call at a time to its
end, and the word a host places for it to run. -/

namespace Sys2Proof.Machine

/-- The sequencer's next move. -/
inductive Move where
  /-- Nothing runs and the host asks nothing: wait for it. -/
  | idle
  /-- A host call starts. -/
  | start (c : HostCall) (requests : List Request)
  /-- A host call starts while another runs: refused (rule R210 (c)). -/
  | overlap (requests : List Request)
  /-- The next step of the running call. -/
  | run (item : Item) (rest : List Item)
  deriving DecidableEq, Repr

/-- The next move. The concurrency check is the first of rule R206. A call marked early that finds no other
running is an ordinary call. -/
def nextMove (s : State) : Move :=
  match s.seq, s.requests with
  | [], [] => .idle
  | [], r :: rs => .start r.call rs
  | it :: rest, [] => .run it rest
  | it :: rest, r :: rs => if r.early then .overlap rs else .run it rest

/-- The bus width an instruction's format belongs to, if only one (rules R85, R127, R128). -/
def busWidthOf : Instr → Option Bool
  | .initializeRaw0011 => some false
  | .initializeRaw0010 => some false
  | .transmitW8 _ _ => some true
  | .transmitW4x2 _ _ => some false
  | _ => none

/-- The state in which the next step runs `i` and nothing else of a call is left: no early call stands before it,
and the descriptor is of the bus width the word's format belongs to (log entry 9). -/
def placeInstr (i : Instr) (s : State) : State :=
  { s with
    seq := [.word i]
    requests := s.requests.dropWhile (·.early)
    cfg := { s.cfg with bus8 := (busWidthOf i).getD s.cfg.bus8 } }

/-- `placeInstr` of the word decoded; a word that decodes to nothing places nothing. -/
def placeWord (nbits w : Nat) (s : State) : State :=
  match decodeTableWord nbits w with
  | some i => placeInstr i s
  | none => s

end Sys2Proof.Machine
end

