-- ==== Sys2Proof/Machine/Step.lean ====
section
/-! DEFINITION. One step of the sequencer: start a host call, refuse one that overlaps, make the
next capability call of the one in progress, or wait for the host. -/

namespace Sys2Proof.Machine

/-- One step (rules R20, R34, R210): at most one capability call. A word's first call is made by its meaning, which
leaves the word's other calls to the steps after it (log entry 16). -/
def step (s : State) : Host.Outcome State Fault Refusal :=
  match nextMove s with
  | .idle => .next s
  | .start c rs => .next (startCall c { s with requests := rs })
  | .overlap rs => .next (refuse { s with requests := rs })
  | .run (.call e) rest => .next (issue e { s with seq := rest })
  | .run (.callThenReady e) rest => .next (issueThenReady e { s with seq := rest })
  | .run (.word i) rest => exec i { s with seq := rest }

/-- The state whose next step runs exactly the opcode-table word `w` (log entry 9). -/
def State.withFetchWord (s : State) (nbits w : Nat) : State := placeWord nbits w s

end Sys2Proof.Machine
end

