-- ==== Sys2Proof/WellFormed.lean ====
section
/-! DEFINITION. Which words a descriptor's block can emit at all: the frame formats are fixed by the bus width
(rule R86), and the function-set byte is the descriptor's own (rule R93). Every other operand is in range by its
type. -/

namespace Sys2Proof

/-- The word belongs to the block this descriptor makes: raw nibbles and 4-bit frames only in 4-bit mode
(rules R85, R128), 8-bit frames only in 8-bit mode (rule R127), and the function set with the descriptor's
own DL, N and F (rule R93). -/
def Instr.wellFormed (d : Descriptor) : Instr → Bool
  | .initializeRaw0011 => !d.bus8
  | .initializeRaw0010 => !d.bus8
  | .initializeFunctionSet dl n f => dl == d.bus8 && n == decide (2 ≤ d.lineCount) && f == d.largeFont
  | .initializeDisplayDefault => true
  | .initializeEntryDefault => true
  | .clear => true
  | .home => true
  | .setDisplayMode _ _ _ => true
  | .scrollLeft => true
  | .scrollRight => true
  | .setTextDirection _ _ => true
  | .createCustomCharCgramAddress _ => true
  | .createCustomCharGlyphRow _ => true
  | .setCursor _ => true
  | .writeChar _ => true
  | .print _ => true
  | .transmitW8 _ _ => d.bus8
  | .transmitW4x2 _ _ => !d.bus8

end Sys2Proof
end

