-- ==== Sys2Proof/Safety.lean ====
section
/-! DEFINITION. What a safe run is, the invariants claims are stated with, and the reference events claims compare
with: written from the spec's traces, not from the model's meanings. -/

namespace Sys2Proof.Machine

/-! ### Runs a claim may be about -/

/-- `n` steps, stopping at the first refusal. -/
def run (n : Nat) (s : State) : Host.Outcome State Fault Refusal := Host.Core.run core n s

/-- A claim about a run is stated under the premise that `refused` is 0 (rule R210). -/
def State.Claimable (s : State) : Prop := s.refused = false

/-- Nothing is running and no call waits. -/
def State.Idle (s : State) : Prop := s.seq = [] ∧ s.requests = []

/-- A descriptor that `initialize` accepts: step 1 passes and the pin set is usable (rules R141, R142). -/
def pinsUsable (nc : PinId) (d : Descriptor) : Prop :=
  descriptorInvalid nc d = false ∧ unusablePinSet nc d = false

/-- No call marked early stands first. -/
def noEarlyRequest (s : State) : Prop := ∀ r rs, s.requests = r :: rs → r.early = false

/-! ### Time (rules R6, R240) and conformance (rule R234) -/

/-- The time a capability call is sure to have taken, in milliseconds: a delay that answered `ok` has blocked for its
duration (rules R67, R213). How long a delay that failed has blocked is not given; it counts for nothing here, which no
reading makes too much (DESIGN CHOICE, log entry 23). -/
def callMsOf : Event × Answer → Nat
  | (.delay ms, .ok) => ms
  | _ => 0

/-- The least time a trace takes: the sum over its delays that answered `ok` (log entry 23). -/
def traceMs (t : List (Event × Answer)) : Nat := (t.map callMsOf).sum

/-- An implementation's event conforms to a reference event: equal, but a delay may be longer (rule R234). -/
def eventConforms : Event → Event → Prop
  | .delay t', .delay t => t ≤ t'
  | e', e => e' = e

/-- An implementation's trace conforms to the reference trace, event for event with its answer (rule R234). -/
def traceConforms : List (Event × Answer) → List (Event × Answer) → Prop
  | [], [] => True
  | (e', a') :: t', (e, a) :: t => eventConforms e' e ∧ a' = a ∧ traceConforms t' t
  | _, _ => False

/-! ### Reference events, transcribed from 95_test_vectors.md sections 2.1 and 2.2 -/

/-- The events as capability calls that succeeded. -/
def succeeded (es : List Event) : List (Event × Answer) := es.map fun e => (e, .ok)

/-- `PULSE`, its six events. -/
def pulseRef (d : Descriptor) : List Event :=
  [.setLevel d.enPin false, .delay 1, .setLevel d.enPin true, .delay 1, .setLevel d.enPin false, .delay 1]

/-- A nibble on `D0`..`D3`. -/
def nibbleRef (d : Descriptor) (n : Nibble) : List Event :=
  [.setLevel d.dataPins.d0 (n.getLsbD 0), .setLevel d.dataPins.d1 (n.getLsbD 1),
    .setLevel d.dataPins.d2 (n.getLsbD 2), .setLevel d.dataPins.d3 (n.getLsbD 3)]

/-- A byte on `D0`..`D7`. -/
def byteRef (d : Descriptor) (v : Byte) : List Event :=
  [.setLevel d.dataPins.d0 (v.getLsbD 0), .setLevel d.dataPins.d1 (v.getLsbD 1),
    .setLevel d.dataPins.d2 (v.getLsbD 2), .setLevel d.dataPins.d3 (v.getLsbD 3),
    .setLevel d.dataPins.d4 (v.getLsbD 4), .setLevel d.dataPins.d5 (v.getLsbD 5),
    .setLevel d.dataPins.d6 (v.getLsbD 6), .setLevel d.dataPins.d7 (v.getLsbD 7)]

/-- `TX(rs, v)`: 16 events in 8-bit mode, 22 in 4-bit mode, where the first strobe carries `v[7:4]` and the second
`v[3:0]`. -/
def txRef (d : Descriptor) (rs : Level) (v : Byte) : List Event :=
  if d.bus8 then .setLevel d.rsPin rs :: byteRef d v ++ pulseRef d ++ [.delay 1]
  else .setLevel d.rsPin rs :: nibbleRef d (v.extractLsb' 4 4) ++ pulseRef d ++
    nibbleRef d (v.extractLsb' 0 4) ++ pulseRef d ++ [.delay 1]

/-- The number of events of one transmit (rule R131). -/
def txCount (d : Descriptor) : Nat := if d.bus8 then 16 else 22

/-- The least time of one transmit, in milliseconds (rule R131). -/
def txMs (d : Descriptor) : Nat := if d.bus8 then 4 else 7

/-- The strobes of `TX(rs, v)` (rules R83, R84), RW low. -/
def txWords (d : Descriptor) (rs : Level) (v : Byte) : List BusWord :=
  if d.bus8 then [.w8 rs false v] else [.w4 rs false (v.extractLsb' 4 4), .w4 rs false (v.extractLsb' 0 4)]

/-- What the far end saw of the events, all answered `ok`, the first of them capability call number `k`: the fold of
`FarEnd.observe`. -/
def observeAll (nc : PinId) (d : Descriptor) : Nat → List Event → FarEnd → FarEnd
  | _, [], f => f
  | k, e :: es, f => observeAll nc d (k + 1) es (f.observe nc d k e .ok)

/-- `t` is `s` after the events `es`, all answered `ok`: the trace has them, the far end saw them, the running call has
ended if nothing of it is left (rule R200), and every other field is as before. -/
def Emitted (es : List Event) (s t : State) : Prop :=
  t = { s with
    trace := s.trace ++ succeeded es
    far := observeAll s.pinNc s.cfg s.trace.length es s.far
    outcomes := if s.seq = [] then s.outcomes ++ [.ok] else s.outcomes }

/-- `t` is `s` after the events `before`, all answered `ok`, and the event `e`, answered `fail`: the trace has them, the
far end saw them, the running call has ended with `IoError` in `DESYNC` (rule R204), and every other field is as
before. -/
def Failed (before : List Event) (e : Event) (s t : State) : Prop :=
  t = { s with
    trace := s.trace ++ succeeded before ++ [(e, .fail)]
    far := (observeAll s.pinNc s.cfg s.trace.length before s.far).observe s.pinNc s.cfg
      (s.trace.length + before.length) e .fail
    phase := .desync
    seq := []
    outcomes := s.outcomes ++ [.ioError] }

/-- The word `i` completes from `s` with the events `es`, in phase `p`: `exec` answers a next state, in which the first
of its capability calls is made and nothing but the trace, the far end and the sequencer's position has changed; and the
steps after it, one for each further call (rule R20, log entry 16), leave exactly the state after `es`. -/
def CompletesWith (i : Instr) (es : List Event) (p : Phase) (s : State) : Prop :=
  ∃ u t, exec i s = .next u ∧
    u = { s with
      trace := s.trace ++ succeeded (es.take 1)
      far := observeAll s.pinNc s.cfg s.trace.length (es.take 1) s.far
      seq := u.seq } ∧
    run (es.length - 1) u = .next t ∧ Emitted es { s with phase := p } t

/-! ### The words of host calls -/

/-- Whether a word belongs to a steady-state operation (rule R160). -/
def steadyWord : Instr → Bool
  | .initializeRaw0011 => false
  | .initializeRaw0010 => false
  | .initializeFunctionSet _ _ _ => false
  | .initializeDisplayDefault => false
  | .initializeEntryDefault => false
  | .clear => true
  | .home => true
  | .setDisplayMode _ _ _ => true
  | .scrollLeft => true
  | .scrollRight => true
  | .setTextDirection _ _ => true
  | .createCustomCharCgramAddress _ => true
  | .createCustomCharGlyphRow _ => true
  | .setCursor _ => true
  | .writeChar _ => true
  | .print _ => true
  | .transmitW8 _ _ => false
  | .transmitW4x2 _ _ => false

/-- The events a word issues when all its calls succeed: the reference trace of rule R234, word by word from the
table of rule R98. -/
def wordRef (d : Descriptor) : Instr → List Event
  | .initializeRaw0011 => nibbleRef d 0x3 ++ pulseRef d
  | .initializeRaw0010 => nibbleRef d 0x2 ++ pulseRef d
  | .initializeFunctionSet dl n f =>
    txRef d false (0x20 + (if dl then 0x10 else 0) + (if n then 0x08 else 0) + (if f then 0x04 else 0))
  | .initializeDisplayDefault => txRef d false 0x0C
  | .initializeEntryDefault => txRef d false 0x06
  | .clear => txRef d false 0x01 ++ [.delay 50]
  | .home => txRef d false 0x02 ++ [.delay 50]
  | .setDisplayMode on cursor blink =>
    txRef d false (0x08 + (if on then 4 else 0) + (if cursor then 2 else 0) + (if blink then 1 else 0))
  | .scrollLeft => txRef d false 0x18
  | .scrollRight => txRef d false 0x1C
  | .setTextDirection ltr autoscroll =>
    txRef d false (0x04 + (if ltr then 2 else 0) + (if autoscroll then 1 else 0))
  | .createCustomCharCgramAddress slot => txRef d false (0x40 + 8 * slot.setWidth 8)
  | .createCustomCharGlyphRow g => txRef d true g
  | .setCursor a => txRef d false (0x80 + a.setWidth 8)
  | .writeChar b => txRef d true b
  | .print t => txRef d true t
  | .transmitW8 isData v => txRef d isData v
  | .transmitW4x2 isData v => txRef d isData v

/-- Whether a word runs in a state: it belongs to the descriptor's bus width and, if it is a steady-state word, the
phase is `READY` (rules R85, R127, R128, R160). -/
def canRun (i : Instr) (s : State) : Prop :=
  (∀ w, busWidthOf i = some w → s.cfg.bus8 = w) ∧ (steadyWord i = true → s.phase = .ready)

/-! ### The reference trace of a host call (rules R98, R152, R161 to R176, R193) -/

/-- The function-set byte of a descriptor, by the table of 95_test_vectors.md section 2.3. -/
def fsRef (d : Descriptor) : Byte :=
  0x20 + (if d.bus8 then 0x10 else 0) + (if 2 ≤ d.lineCount then 0x08 else 0) + (if d.largeFont then 0x04 else 0)

/-- The pins of step 2 of `initialize`, in its order (rule R143). -/
def setupPinsRef (nc : PinId) (d : Descriptor) : List PinId :=
  let p := d.dataPins
  [d.rsPin] ++ (if d.rwPin = nc then [] else [d.rwPin]) ++ [d.enPin] ++
    (if d.bus8 then [p.d0, p.d1, p.d2, p.d3, p.d4, p.d5, p.d6, p.d7] else [p.d0, p.d1, p.d2, p.d3])

/-- Step 2 of `initialize`: direction, then level 0, of each used pin (rule R143). -/
def setupRef (nc : PinId) (d : Descriptor) : List Event :=
  (setupPinsRef nc d).flatMap fun p => [.setDir p, .setLevel p false]

/-- A raw nibble pulse (rules R85, R146). -/
def rawRef (d : Descriptor) (n : Nibble) : List Event := nibbleRef d n ++ pulseRef d

/-- Steps 2 to 6 of `initialize` (rule R152). -/
def initializeRef (nc : PinId) (d : Descriptor) : List Event :=
  setupRef nc d ++ [.delay 50] ++
    (if d.bus8 then
      txRef d false (fsRef d) ++ [.delay 5] ++ txRef d false (fsRef d) ++ [.delay 1] ++ txRef d false (fsRef d)
    else
      rawRef d 0x3 ++ [.delay 5] ++ rawRef d 0x3 ++ [.delay 1] ++ rawRef d 0x3 ++ rawRef d 0x2) ++
    txRef d false (fsRef d) ++ txRef d false 0x0C ++ txRef d false 0x06

/-- The row the mapper uses: `min(row, 3, line_count - 1)` (rule R191). -/
def rowRef (d : Descriptor) (row : Byte) : Nat := min (min row.toNat 3) (d.lineCount - 1).toNat

/-- The capability calls of a host call that is accepted and meets no failure. -/
def callRef (nc : PinId) (d : Descriptor) : HostCall → List Event
  | .initializeCall => initializeRef nc d
  | .clear => txRef d false 0x01 ++ [.delay 50]
  | .home => txRef d false 0x02 ++ [.delay 50]
  | .setDisplayMode on cursor blink =>
    txRef d false (0x08 + (if on then 4 else 0) + (if cursor then 2 else 0) + (if blink then 1 else 0))
  | .scrollLeft => txRef d false 0x18
  | .scrollRight => txRef d false 0x1C
  | .setTextDirection ltr autoscroll =>
    txRef d false (0x04 + (if ltr then 2 else 0) + (if autoscroll then 1 else 0))
  | .createCustomChar slot g =>
    txRef d false (0x40 + 8 * slot) ++ txRef d true g.g0 ++ txRef d true g.g1 ++ txRef d true g.g2 ++
      txRef d true g.g3 ++ txRef d true g.g4 ++ txRef d true g.g5 ++ txRef d true g.g6 ++ txRef d true g.g7
  | .setCursor col row => txRef d false (0x80 ||| (rowOffset d.rowOffsets (rowRef d row) + col))
  | .writeChar b => txRef d true b
  | .print text => text.flatMap fun t => txRef d true t

/-- A host call that passes the checks of rule R206: `initialize` with a usable descriptor, in any phase; a
steady-state call in `READY`, with a slot of at most 7. -/
def accepted (c : HostCall) (s : State) : Prop :=
  match c with
  | .initializeCall => pinsUsable s.pinNc s.cfg
  | .createCustomChar slot _ => s.phase = .ready ∧ slot.toNat ≤ 7
  | _ => s.phase = .ready

/-- The block is between calls and the host's next call is `c`, with no call behind it that will not wait. -/
def asked (c : HostCall) (rs : List Request) (s : State) : Prop :=
  s.seq = [] ∧ (∃ early, s.requests = ⟨early, c⟩ :: rs) ∧ ∀ r rs', rs = r :: rs' → r.early = false

/-- The least time of a host call that passes its checks and meets no failure, in milliseconds: the table of rule R240. -/
def callMs (d : Descriptor) : HostCall → Nat
  | .initializeCall => if d.bus8 then 80 else 89
  | .clear => if d.bus8 then 54 else 57
  | .home => if d.bus8 then 54 else 57
  | .setDisplayMode _ _ _ => txMs d
  | .scrollLeft => txMs d
  | .scrollRight => txMs d
  | .setTextDirection _ _ => txMs d
  | .createCustomChar _ _ => if d.bus8 then 36 else 63
  | .setCursor _ _ => txMs d
  | .writeChar _ => txMs d
  | .print text => text.length * txMs d

/-- The number of capability calls of a host call that passes its checks and meets no failure (rules R152, R161 to R176;
95_test_vectors.md section 2). -/
def callCalls (nc : PinId) (d : Descriptor) : HostCall → Nat
  | .initializeCall => (if d.bus8 then 119 else 121) + (if d.rwPin = nc then 0 else 2)
  | .clear => if d.bus8 then 17 else 23
  | .home => if d.bus8 then 17 else 23
  | .setDisplayMode _ _ _ => txCount d
  | .scrollLeft => txCount d
  | .scrollRight => txCount d
  | .setTextDirection _ _ => txCount d
  | .createCustomChar _ _ => if d.bus8 then 144 else 198
  | .setCursor _ _ => txCount d
  | .writeChar _ => txCount d
  | .print text => text.length * txCount d

/-! ### Invariants -/

/-- The sequencer holds only words this descriptor's block can emit, and steady-state words only in `READY`. -/
def SequencerSound (s : State) : Prop :=
  ∀ i, .word i ∈ s.seq → i.wellFormed s.cfg = true ∧ (steadyWord i = true → s.phase = .ready)

/-- The capability calls an item stands for. -/
def itemRef (d : Descriptor) : Item → List Event
  | .call e => [e]
  | .callThenReady e => [e]
  | .word i => wordRef d i

/-- The capability calls left of the host call in progress, if none fails. -/
def plan (d : Descriptor) (its : List Item) : List Event := its.flatMap (itemRef d)

/-- E is low and so is RW, as a line or by wiring (rule R132). -/
def linesQuiet (s : State) : Prop :=
  s.far.lines.en = some false ∧ (s.cfg.rwPin = s.pinNc ∨ s.far.lines.rw = some false)

/-- The capability calls keep rule R132 from E at level `en` on: they write only RS, E and used data lines, set no
direction, write no line but E while E is high and leave E low at their end. -/
def keepsFrames (d : Descriptor) : Level → List Event → Prop
  | en, [] => en = false
  | en, .delay _ :: es => keepsFrames d en es
  | _, .setDir _ :: _ => False
  | en, .setLevel p v :: es =>
    if p = d.enPin then (en = true → v = false) ∧ keepsFrames d v es
    else en = false ∧ (p = d.rsPin ∨ p ∈ usedDataPins d) ∧ keepsFrames d en es

/-- The bus is at work or at rest with a usable descriptor: RW is low, E's level is known, and the calls left keep rule
R132. -/
def InFrames (s : State) : Prop :=
  pinsUsable s.pinNc s.cfg ∧ (s.cfg.rwPin = s.pinNc ∨ s.far.lines.rw = some false) ∧
    ∃ en, s.far.lines.en = some en ∧ keepsFrames s.cfg en (plan s.cfg s.seq)

/-- Step 2 of `initialize` is under way: `left` of its calls are still to be made, E and RW are low or among them, and
what comes after keeps rule R132 from E low. -/
def InSetup (s : State) : Prop :=
  pinsUsable s.pinNc s.cfg ∧ ∃ (left : List Event) (rest : List Item), left ≠ [] ∧
    s.seq = left.map .call ++ rest ∧ left <:+ setupRef s.pinNc s.cfg ∧
    (s.far.lines.en = some false ∨ .setLevel s.cfg.enPin false ∈ left) ∧
    (s.cfg.rwPin = s.pinNc ∨ s.far.lines.rw = some false ∨ .setLevel s.cfg.rwPin false ∈ left) ∧
    keepsFrames s.cfg false (plan s.cfg rest)

/-- Rule R132 as an invariant of the sequencer's steps: nothing runs and the phase is not `READY`, or step 2 of
`initialize` is under way, or RW is low and the calls left keep the rule. -/
def BusQuiet (s : State) : Prop :=
  (s.seq = [] ∧ s.phase ≠ .ready) ∨ InSetup s ∨ InFrames s

/-- A line's level, where it is known, is the pin shadow of rule R32. -/
def lineAgrees (t : List (Event × Answer)) (p : PinId) (o : Option Level) : Prop :=
  ∀ v, o = some v → pinLevel t p = some v

/-- Every known line agrees with the pin shadow of the trace (rule R32). -/
def LinesAgree (s : State) : Prop :=
  lineAgrees s.trace s.cfg.rsPin s.far.lines.rs ∧ lineAgrees s.trace s.cfg.rwPin s.far.lines.rw ∧
  lineAgrees s.trace s.cfg.enPin s.far.lines.en ∧
  lineAgrees s.trace s.cfg.dataPins.d0 s.far.lines.d0 ∧ lineAgrees s.trace s.cfg.dataPins.d1 s.far.lines.d1 ∧
  lineAgrees s.trace s.cfg.dataPins.d2 s.far.lines.d2 ∧ lineAgrees s.trace s.cfg.dataPins.d3 s.far.lines.d3 ∧
  lineAgrees s.trace s.cfg.dataPins.d4 s.far.lines.d4 ∧ lineAgrees s.trace s.cfg.dataPins.d5 s.far.lines.d5 ∧
  lineAgrees s.trace s.cfg.dataPins.d6 s.far.lines.d6 ∧ lineAgrees s.trace s.cfg.dataPins.d7 s.far.lines.d7

/-- The receiver is at the start of a byte of the descriptor's bus width (rules R59, R151). -/
def aligned (s : State) : Prop := s.far.mode = (if s.cfg.bus8 then .m8 else .m4h)

/-- How many host calls are in progress: one at most (rule R20). -/
def inProgress (s : State) : Nat := if s.seq = [] then 0 else 1

/-- Host calls ended, in progress and waiting, counted together (rule R200). -/
def callCount (s : State) : Nat := s.outcomes.length + inProgress s + s.requests.length

/-- RW of a bus word. -/
def BusWord.rw : BusWord → Level
  | .w8 _ w _ => w
  | .w4 _ w _ => w

end Sys2Proof.Machine
end

