-- ==== Sys2Proof/Certificates/Slice0/Obligations.lean ====
section
/-! DEFINITION. The statements for the provers. Where a statement rests on a decision of the spec's own, or on a
choice of this model, its docstring says so. -/

open Sys2Proof Sys2Proof.Machine

/-! ### Encoding -/

/-- Decoding the table word of an instruction gives it back, with every operand at every value. -/
def Obligations.DecodeOfEncodeIsTheInstruction : Prop :=
  ∀ i : Instr, decode (encode i) = .ok i

/-- Where a table word decodes, the instruction's word is that word: no bit of it is dropped. -/
def Obligations.EncodeOfDecodeIsTheWord : Prop :=
  ∀ (w : TableWord) (i : Instr), decode w = .ok i → encode i = w

/-- Words written out from the table's `encoding` strings decode to the instructions they stand for, and a word no
row matches is rejected. -/
def Obligations.WrittenOutWordsDecode : Prop :=
  decode ⟨.initializeCall, 5, 0b00011⟩ = .ok .initializeRaw0011 ∧
  decode ⟨.initializeCall, 9, 0b000111000⟩ = .ok (.initializeFunctionSet true true false) ∧
  decode ⟨.setDisplayMode, 9, 0b000001101⟩ = .ok (.setDisplayMode true false true) ∧
  decode ⟨.setTextDirection, 9, 0b000000101⟩ = .ok (.setTextDirection false true) ∧
  decode ⟨.createCustomChar, 9, 0b001110000⟩ = .ok (.createCustomCharCgramAddress 6) ∧
  decode ⟨.setCursor, 9, 0b011000100⟩ = .ok (.setCursor 0x44) ∧
  decode ⟨.writeChar, 9, 0b101000001⟩ = .ok (.writeChar 0x41) ∧
  decode ⟨.home, 9, 0b000000011⟩ = .error .neverEmitted

/-- The function-set byte a descriptor gives is that of the table of 95_test_vectors.md section 2.3: 4-bit 0x20,
0x24, 0x28, 0x2C and 8-bit 0x30, 0x34, 0x38, 0x3C (rule R93; the N and F rules are the spec's decision D11). -/
def Obligations.FunctionSetByteOfDescriptor : Prop :=
  ∀ d : Descriptor,
    (functionSet d).toNat =
      (if d.bus8 then 0x30 else 0x20) + (if 2 ≤ d.lineCount then 8 else 0) + (if d.largeFont then 4 else 0)

/-! ### Reset and steps -/

/-- Reset is the creation of a descriptor (rules R40, R230): `UNINIT`, not refused, nothing traced, nothing running,
every line's level unknown. The phase, the mark and the empty trace are the spec's decisions D3 and D4; the
descriptor, `PIN_NC` and the receiver's mode, of which nothing is said, are the model's (log entries 1 to 3). -/
def Obligations.ResetStateIsFresh : Prop :=
  State.reset.phase = .uninit ∧ State.reset.refused = false ∧ State.reset.trace = [] ∧ State.reset.seq = [] ∧
  State.reset.outcomes = [] ∧ State.reset.requests = [] ∧
  State.reset.far.lines = ⟨none, none, none, none, none, none, none, none, none, none, none⟩ ∧
  (∀ p, pinLevel State.reset.trace p = none ∧ pinIsOutput State.reset.trace p = false)

/-- A step at a word runs it: `exec` of it, with that word taken off what is left of the call. The sequencer's position is
rule R34's; that a word waits in it whole until its first capability call, which `exec` makes, is the model's (log
entry 16), and so is the exception for a call that will not wait and stands first (log entry 14). -/
def Obligations.StepRunsTheSequencedWord : Prop :=
  ∀ (s : State) (i : Instr) (rest : List Item), s.seq = .word i :: rest → noEarlyRequest s →
    step s = exec i { s with seq := rest }

/-- The step after a table word is placed runs the instruction it decodes to. How a word is placed is the model's
(log entry 9): nothing else of a call is left, no early call stands before it, and the descriptor is of the bus
width the word's format belongs to. -/
def Obligations.StepRunsThePlacedTableWord : Prop :=
  ∀ (s : State) (nbits w : Nat) (i : Instr), decodeTableWord nbits w = some i →
    step (s.withFetchWord nbits w) =
      exec i { s with
        seq := []
        requests := s.requests.dropWhile fun r => r.early
        cfg := { s.cfg with bus8 := (busWidthOf i).getD s.cfg.bus8 } }

/-- With nothing running and no call asked, the block waits and changes nothing (rules R34, R215; that waiting is a
step is the model's, log entry 12). -/
def Obligations.IdleBlockWaits : Prop :=
  ∀ s : State, s.Idle → step s = .next s

/-- A call started while another runs is refused: the mark is set, no capability call is made, and the running call
is as it was (rules R69, R210 (c), decision D18). -/
def Obligations.OverlappingCallIsRefused : Prop :=
  ∀ (s : State) (r : Request) (rs : List Request), s.seq ≠ [] → s.requests = r :: rs → r.early = true →
    step s = .next { s with requests := rs, refused := true, outcomes := s.outcomes ++ [.refused] }

/-! ### What each word does -/

/-- The display words in `READY` with every capability call answered `ok`: `clear`, `home`, `set_display_mode`,
`scroll_left`, `scroll_right` and `set_text_direction` complete with exactly the events of one transmit of their byte,
`clear` and `home` with a 50 ms wait after it; the far end sees those events and nothing else of the state changes
(rules R161 to R166). The bytes are the spec's general knowledge, the order of pin writes and the three dwells its
decisions D5 and D6, what a line does the model's (log entries 4 and 6). Calls that will not wait are kept out (log
entry 14). -/
def Obligations.DisplayWordsComplete : Prop :=
  ∀ s : State, s.phase = .ready → noEarlyRequest s →
    (AllOk s (txCount s.cfg + 1) →
      CompletesWith .clear (txRef s.cfg false 0x01 ++ [.delay 50]) .ready s ∧
      CompletesWith .home (txRef s.cfg false 0x02 ++ [.delay 50]) .ready s) ∧
    (AllOk s (txCount s.cfg) →
      (∀ on cursor blink : Bool, CompletesWith (.setDisplayMode on cursor blink)
        (txRef s.cfg false (0x08 + (if on then 4 else 0) + (if cursor then 2 else 0) + (if blink then 1 else 0)))
        .ready s) ∧
      CompletesWith .scrollLeft (txRef s.cfg false 0x18) .ready s ∧
      CompletesWith .scrollRight (txRef s.cfg false 0x1C) .ready s ∧
      (∀ ltr autoscroll : Bool, CompletesWith (.setTextDirection ltr autoscroll)
        (txRef s.cfg false (0x04 + (if ltr then 2 else 0) + (if autoscroll then 1 else 0))) .ready s))

/-- The address and data words in `READY` with every capability call answered `ok`:
`create_custom_char.cgram_address`, `create_custom_char.glyph_row`, `set_cursor`, `write_char` and `print` complete
with exactly the events of one transmit; the far end sees those events and nothing else of the state changes (rules R171,
R172, R175, R176, R193). The command bytes are the spec's general knowledge, the order of events its decisions D5 and
D6, what a line does the model's (log entries 4 and 6). Calls that will not wait are kept out (log entry 14). -/
def Obligations.AddressAndDataWordsComplete : Prop :=
  ∀ s : State, s.phase = .ready → noEarlyRequest s → AllOk s (txCount s.cfg) →
    (∀ slot : BitVec 3, CompletesWith (.createCustomCharCgramAddress slot)
      (txRef s.cfg false (BitVec.ofNat 8 (0x40 + 8 * slot.toNat))) .ready s) ∧
    (∀ g : Byte, CompletesWith (.createCustomCharGlyphRow g) (txRef s.cfg true g) .ready s) ∧
    (∀ a : BitVec 7, CompletesWith (.setCursor a) (txRef s.cfg false (BitVec.ofNat 8 (0x80 + a.toNat))) .ready s) ∧
    (∀ b : Byte, CompletesWith (.writeChar b) (txRef s.cfg true b) .ready s) ∧
    (∀ b : Byte, CompletesWith (.print b) (txRef s.cfg true b) .ready s)

/-- The transmits of `initialize` in any phase with every capability call answered `ok`:
`initialize.function_set` and `initialize.display_default` complete with the events of one transmit and change nothing
else but what the far end saw of them, and `initialize.entry_default` also makes the phase `READY`, with its last call
(rules R147 to R150). That a function set whose fields are not the descriptor's is sent as given is log entry 24. The
bytes are the spec's general knowledge, the order of events its decisions D5 and D6, what a line does the model's (log
entries 4 and 6). Calls that will not wait are kept out (log entry 14). -/
def Obligations.InitializeTransmitsComplete : Prop :=
  ∀ s : State, noEarlyRequest s → AllOk s (txCount s.cfg) →
    (∀ dl n f : Bool, CompletesWith (.initializeFunctionSet dl n f)
      (txRef s.cfg false (0x20 + (if dl then 0x10 else 0) + (if n then 0x08 else 0) + (if f then 0x04 else 0)))
      s.phase s) ∧
    CompletesWith .initializeDisplayDefault (txRef s.cfg false 0x0C) s.phase s ∧
    CompletesWith .initializeEntryDefault (txRef s.cfg false 0x06) .ready s

/-- The raw nibbles of a 4-bit bus with every capability call answered `ok`: `initialize.raw_0011` and
`initialize.raw_0010` complete with ten events, the four data lines and one pulse, and nothing else changes but what the
far end saw of them: RS is not written and no settle wait follows (rule R146). The order of events is the spec's
decisions D5 and D6, what a line does the model's (log entries 4 and 6). Calls that will not wait are kept out (log
entry 14). -/
def Obligations.RawNibblesComplete : Prop :=
  ∀ s : State, s.cfg.bus8 = false → noEarlyRequest s → AllOk s 10 →
    CompletesWith .initializeRaw0011 (nibbleRef s.cfg 0b0011 ++ pulseRef s.cfg) s.phase s ∧
    CompletesWith .initializeRaw0010 (nibbleRef s.cfg 0b0010 ++ pulseRef s.cfg) s.phase s

/-- The two frames of `transmit` with every capability call answered `ok`, each on its own bus width: `transmit.w8` in
16 events and `transmit.w4x2` in 22, nothing else changing but what the far end saw of them (rules R127, R128, R131;
order of events by decisions D5 and D6, what a line does by log entries 4 and 6). Calls that will not wait are kept out
(log entry 14). -/
def Obligations.TransmitFramesComplete : Prop :=
  ∀ (s : State) (isData : Bool) (v : Byte), noEarlyRequest s →
    (s.cfg.bus8 = true → AllOk s 16 → CompletesWith (.transmitW8 isData v)
      (.setLevel s.cfg.rsPin isData :: byteRef s.cfg v ++ pulseRef s.cfg ++ [.delay 1]) s.phase s) ∧
    (s.cfg.bus8 = false → AllOk s 22 → CompletesWith (.transmitW4x2 isData v)
      (.setLevel s.cfg.rsPin isData :: nibbleRef s.cfg (v.extractLsb' 4 4) ++ pulseRef s.cfg ++
        nibbleRef s.cfg (v.extractLsb' 0 4) ++ pulseRef s.cfg ++ [.delay 1]) s.phase s)

/-- A raw nibble or a 4-bit frame on an 8-bit bus, and an 8-bit frame on a 4-bit bus, have no meaning, and `exec`
refuses them by name (rules R85, R127, R128; that it refuses is the model's, log entry 11). -/
def Obligations.WordsOfTheOtherBusWidthAreRefused : Prop :=
  ∀ (s : State) (isData : Bool) (v : Byte),
    (s.cfg.bus8 = true →
      exec .initializeRaw0011 s = .refused .wrongBusWidth ∧ exec .initializeRaw0010 s = .refused .wrongBusWidth ∧
      exec (.transmitW4x2 isData v) s = .refused .wrongBusWidth) ∧
    (s.cfg.bus8 = false → exec (.transmitW8 isData v) s = .refused .wrongBusWidth)

/-- A steady-state word outside `READY` makes no capability call: the mark is set and what is left of its call is dropped.
Rules R160 and R210 (a) and decision D3 say so of calls; that each word checks the phase as well, and that the rest of
the call is dropped, is the model's (log entry 17). -/
def Obligations.SteadyWordOutsideReadyIsRefused : Prop :=
  ∀ (s : State) (i : Instr), steadyWord i = true → s.phase ≠ .ready →
    exec i s = .next { s with seq := [], refused := true, outcomes := s.outcomes ++ [.refused] }

/-- The first capability call that fails ends the word and its host call, whichever of the word's calls it is: those
before it stand, it is recorded as failed, no later one is made, the phase is `DESYNC`, the outcome `IoError`, the far
end saw those calls and the failed one, and nothing else changes (rules R130, R204, R207; the phase is decision D3, the
free answers D14; what a failed call does to a line is log entries 4 and 6, that the calls are one step each log
entry 16). Calls that will not wait are kept out (log entry 14). -/
def Obligations.FirstFailureEndsTheWord : Prop :=
  ∀ (s : State) (i : Instr) (before after : List Event) (e : Event), canRun i s → noEarlyRequest s →
    wordRef s.cfg i = before ++ e :: after → AllOk s before.length →
    answerAt s (s.trace.length + before.length) = .fail →
    ∃ u t, exec i s = .next u ∧ run before.length u = .next t ∧ Failed before e s t

/-! ### What reaches the bus -/

/-- On an 8-bit bus one transmit is one strobe, whose bus word carries RS, RW low and the byte, bit `i` on `D i`
(rule R83), from a usable descriptor with E and RW low: the meaning makes the first of its 16 calls and the steps after
it the rest. -/
def Obligations.EightBitTransmitIsOneStrobe : Prop :=
  ∀ (s : State) (rs : Bool) (v : Byte), s.cfg.bus8 = true → pinsUsable s.pinNc s.cfg → linesQuiet s →
    noEarlyRequest s → AllOk s 16 →
    ∃ u t, exec (.transmitW8 rs v) s = .next u ∧ run 15 u = .next t ∧
      t.far.strobes = s.far.strobes ++ [.w8 rs false v] ∧ linesQuiet t ∧
      t.far.lines.d0 = some (v.getLsbD 0) ∧ t.far.lines.d1 = some (v.getLsbD 1) ∧
      t.far.lines.d2 = some (v.getLsbD 2) ∧ t.far.lines.d3 = some (v.getLsbD 3) ∧
      t.far.lines.d4 = some (v.getLsbD 4) ∧ t.far.lines.d5 = some (v.getLsbD 5) ∧
      t.far.lines.d6 = some (v.getLsbD 6) ∧ t.far.lines.d7 = some (v.getLsbD 7)

/-- On a 4-bit bus one transmit is two strobes, the high nibble first, both with the same RS and RW low (rule R84),
from a usable descriptor with E and RW low: the meaning makes the first of its 22 calls and the steps after it the
rest. -/
def Obligations.FourBitTransmitIsTwoStrobesHighFirst : Prop :=
  ∀ (s : State) (rs : Bool) (v : Byte), s.cfg.bus8 = false → pinsUsable s.pinNc s.cfg → linesQuiet s →
    noEarlyRequest s → AllOk s 22 →
    ∃ u t, exec (.transmitW4x2 rs v) s = .next u ∧ run 21 u = .next t ∧
      t.far.strobes = s.far.strobes ++ [.w4 rs false (v.extractLsb' 4 4), .w4 rs false (v.extractLsb' 0 4)] ∧
      linesQuiet t

/-- A raw nibble pulse is one strobe of its nibble with RS and RW as they stand, low after step 2 of `initialize`
(rules R85, R146), from a usable descriptor with RS, E and RW low: the meaning makes the first of its 10 calls and the
steps after it the rest (log entry 16). -/
def Obligations.RawNibbleIsOneStrobe : Prop :=
  ∀ s : State, s.cfg.bus8 = false → pinsUsable s.pinNc s.cfg → linesQuiet s → s.far.lines.rs = some false →
    noEarlyRequest s → AllOk s 10 →
    (∃ u t, exec .initializeRaw0011 s = .next u ∧ run 9 u = .next t ∧
      t.far.strobes = s.far.strobes ++ [.w4 false false 0b0011] ∧ linesQuiet t ∧ t.far.lines.rs = some false) ∧
    (∃ u t, exec .initializeRaw0010 s = .next u ∧ run 9 u = .next t ∧
      t.far.strobes = s.far.strobes ++ [.w4 false false 0b0010] ∧ linesQuiet t ∧ t.far.lines.rs = some false)

/-- A receiver at the start of a byte gets exactly the table word of every steady-state word, RS from bit 8 and the
byte from bits 7..0, and is at the start of a byte again (rules R59, R98, R111 to R113). The receiver is the spec's
informative model, from general knowledge; every strobe is acted on by rule R115's premise (log entry 8). -/
def Obligations.AlignedReceiverGetsTheTableWord : Prop :=
  ∀ (s : State) (i : Instr), steadyWord i = true → s.phase = .ready → pinsUsable s.pinNc s.cfg → linesQuiet s →
    aligned s → noEarlyRequest s → AllOk s (wordRef s.cfg i).length →
    ∃ u t, exec i s = .next u ∧ run ((wordRef s.cfg i).length - 1) u = .next t ∧ aligned t ∧ linesQuiet t ∧
      t.far.delivered = s.far.delivered ++ [((encode i).bits.testBit 8, BitVec.ofNat 8 (encode i).bits)]

/-- Step 2 of `initialize` makes at most one stray strobe, with RS and RW low, and leaves RS, RW and E low: none from E
low, one from E high, and at most one from E unknown, the case of a first boot (rule R242; from a usable descriptor, all
capability calls answered `ok`; whether E falls from an unknown level is log entry 6). -/
def Obligations.SetupStrobesOnlyIfEnableWasHigh : Prop :=
  ∀ (s : State) (rest : List Item), s.seq = (setupRef s.pinNc s.cfg).map .call ++ rest → noEarlyRequest s →
    pinsUsable s.pinNc s.cfg → AllOk s (setupRef s.pinNc s.cfg).length →
    ∃ t stray, run (setupRef s.pinNc s.cfg).length s = .next t ∧ t.seq = rest ∧ linesQuiet t ∧
      t.far.lines.rs = some false ∧ t.far.strobes = s.far.strobes ++ stray ∧ stray.length ≤ 1 ∧
      (∀ w ∈ stray, BusWord.rs w = false ∧ BusWord.rw w = false) ∧
      (s.far.lines.en = some false → stray = []) ∧ (s.far.lines.en = some true → stray.length = 1)

/-! ### `initialize` -/

/-- `initialize` fails with `ConfigError` exactly if RS or E is not connected or `line_count` is outside [1,4]; it then
makes no capability call and changes nothing but that it has ended; and no other call ends so when it starts
(rules R141, R201). -/
def Obligations.InvalidDescriptorIsAConfigError : Prop :=
  ∀ (s : State) (early : Bool) (c : HostCall) (rs : List Request), s.seq = [] → s.requests = ⟨early, c⟩ :: rs →
    (c = .initializeCall →
      (s.cfg.rsPin = s.pinNc ∨ s.cfg.enPin = s.pinNc ∨ s.cfg.lineCount < 1 ∨ 4 < s.cfg.lineCount) →
      step s = .next { s with requests := rs, outcomes := s.outcomes ++ [.configError] }) ∧
    ((c ≠ .initializeCall ∨
        ¬(s.cfg.rsPin = s.pinNc ∨ s.cfg.enPin = s.pinNc ∨ s.cfg.lineCount < 1 ∨ 4 < s.cfg.lineCount)) →
      ∀ t, step s = .next t → t.outcomes ≠ s.outcomes ++ [.configError])

/-- After step 1 passes, `initialize` is refused by the model if a used pin occurs twice or a used data pin is not
connected (rule R142, decision D15), and otherwise starts, in any phase, with the steps of rule R152 before it
(rule R140, decision D3; that starting a call is a step before its first capability call is log entry 16). -/
def Obligations.InitializeStartsUnlessPinsAreUnusable : Prop :=
  ∀ (s : State) (early : Bool) (rs : List Request), s.seq = [] → s.requests = ⟨early, .initializeCall⟩ :: rs →
    ¬(s.cfg.rsPin = s.pinNc ∨ s.cfg.enPin = s.pinNc ∨ s.cfg.lineCount < 1 ∨ 4 < s.cfg.lineCount) →
    ((¬(setupPinsRef s.pinNc s.cfg).Nodup ∨ s.pinNc ∈ usedDataPins s.cfg) →
      step s = .next { s with requests := rs, refused := true, outcomes := s.outcomes ++ [.refused] }) ∧
    ((setupPinsRef s.pinNc s.cfg).Nodup → s.pinNc ∉ usedDataPins s.cfg →
      step s = .next { s with requests := rs, seq := initializeItems s.pinNc s.cfg })

/-- Step 2 of `initialize`, and each of its waits, complete with their events and change nothing else but what the far end
saw of them: direction and level 0 of RS, RW if connected, E and the data pins in order, and one delay (rules R143 to
R146; the order is decision D8). Calls that will not wait are kept out (log entry 14). -/
def Obligations.SetupAndWaitsComplete : Prop :=
  ∀ (s : State) (rest : List Item), noEarlyRequest s →
    (s.seq = (setupRef s.pinNc s.cfg).map .call ++ rest → AllOk s (setupRef s.pinNc s.cfg).length →
      ∃ t, run (setupRef s.pinNc s.cfg).length s = .next t ∧
        Emitted (setupRef s.pinNc s.cfg) { s with seq := rest } t) ∧
    (∀ ms, s.seq = .call (.delay ms) :: rest → AllOk s 1 →
      ∃ t, step s = .next t ∧ Emitted [.delay ms] { s with seq := rest } t)

/-- The 4-bit handshake as a whole, from every phase, every state of the lines and every receiver mode: in one step that
starts it and one for each capability call (rule R20, log entry 16), `initialize` returns `Ok` in `READY`; but for at
most one stray strobe of step 2, its RS and RW low, the strobes are four raw nibbles and the two halves of the function
set, 0x0C and 0x06; and the receiver ends in its 4-bit mode at the start of a byte, those three bytes the last it took
(rules R146, R147, R151, R152). The bytes and the receiver are general knowledge; every strobe is acted on by rule
R115's premise (log entry 8). -/
def Obligations.FourBitInitializeLocksTheBus : Prop :=
  ∀ (s : State) (rs : List Request), asked .initializeCall rs s → pinsUsable s.pinNc s.cfg → s.cfg.bus8 = false →
    AllOk s (initializeRef s.pinNc s.cfg).length →
    ∃ t stray before, run ((initializeRef s.pinNc s.cfg).length + 1) s = .next t ∧ t.phase = .ready ∧ t.seq = [] ∧
      t.outcomes = s.outcomes ++ [.ok] ∧
      t.far.strobes = s.far.strobes ++ stray ++
        [.w4 false false 0x3, .w4 false false 0x3, .w4 false false 0x3, .w4 false false 0x2,
          .w4 false false ((fsRef s.cfg).extractLsb' 4 4), .w4 false false ((fsRef s.cfg).extractLsb' 0 4),
          .w4 false false 0x0, .w4 false false 0xC, .w4 false false 0x0, .w4 false false 0x6] ∧
      stray.length ≤ 1 ∧ (∀ w ∈ stray, BusWord.rs w = false ∧ BusWord.rw w = false) ∧
      (s.far.lines.en = some false → stray = []) ∧ t.far.mode = .m4h ∧ linesQuiet t ∧
      t.far.delivered = before ++ [(false, fsRef s.cfg), (false, 0x0C), (false, 0x06)]

/-- The 8-bit handshake as a whole, likewise, one step to start it and one for each capability call (rule R20, log
entry 16): four strobes of the function set, then 0x0C and 0x06, after at most one stray strobe with RS and RW low, and
the receiver in its 8-bit mode (rules R145, R147, R151, R152). The bytes and the receiver are general knowledge; every
strobe is acted on by rule R115's premise (log entry 8). -/
def Obligations.EightBitInitializeLocksTheBus : Prop :=
  ∀ (s : State) (rs : List Request), asked .initializeCall rs s → pinsUsable s.pinNc s.cfg → s.cfg.bus8 = true →
    AllOk s (initializeRef s.pinNc s.cfg).length →
    ∃ t stray before, run ((initializeRef s.pinNc s.cfg).length + 1) s = .next t ∧ t.phase = .ready ∧ t.seq = [] ∧
      t.outcomes = s.outcomes ++ [.ok] ∧
      t.far.strobes = s.far.strobes ++ stray ++
        [.w8 false false (fsRef s.cfg), .w8 false false (fsRef s.cfg), .w8 false false (fsRef s.cfg),
          .w8 false false (fsRef s.cfg), .w8 false false 0x0C, .w8 false false 0x06] ∧
      stray.length ≤ 1 ∧ (∀ w ∈ stray, BusWord.rs w = false ∧ BusWord.rw w = false) ∧
      (s.far.lines.en = some false → stray = []) ∧ t.far.mode = .m8 ∧ linesQuiet t ∧
      t.far.delivered = before ++ [(false, fsRef s.cfg), (false, 0x0C), (false, 0x06)]

/-! ### Host calls -/

/-- Every host call that passes its checks and meets no failure issues exactly its reference trace, which is what the far
end sees, and returns `Ok` in `READY`, for every call of rule R102 and every operand, in one step that starts it and one
for each capability call (rules R20, R152, R161 to R176, R193, R200; log entry 16). The reference trace is the spec's,
with its decisions D3 to D13 and its general-knowledge bytes; `set_cursor` in `READY` with `line_count` outside [1,4] is
log entry 13. -/
def Obligations.AcceptedCallIssuesItsReferenceTrace : Prop :=
  ∀ (s : State) (c : HostCall) (rs : List Request), asked c rs s → accepted c s →
    AllOk s (callRef s.pinNc s.cfg c).length →
    ∃ t, run ((callRef s.pinNc s.cfg c).length + 1) s = .next t ∧
      Emitted (callRef s.pinNc s.cfg c) { s with requests := rs, phase := .ready } t

/-- Every host call that passes its checks stops at the first capability call that fails, whichever it is: those before
it stand, none comes after it, the far end saw those and the failed one, the phase is `DESYNC` and the outcome `IoError`
(rules R20, R153, R177, R203, R204; decisions D3 and D14; the step that starts a call is log entry 16, what a failed
call does to a line log entries 4 and 6). -/
def Obligations.AcceptedCallStopsAtItsFirstFailure : Prop :=
  ∀ (s : State) (c : HostCall) (rs : List Request) (before after : List Event) (e : Event),
    asked c rs s → accepted c s → callRef s.pinNc s.cfg c = before ++ e :: after → AllOk s before.length →
    answerAt s (s.trace.length + before.length) = .fail →
    ∃ t, run (before.length + 2) s = .next t ∧ Failed before e { s with requests := rs } t

/-- Every host call that passes its checks and meets no failure runs to `Ok` with exactly the number of capability calls
the spec gives it, and the delays among them sum to the least time it gives (rules R131, R152, R240): 119 or 121 calls
and 80 ms, or 121 or 123 calls and 89 ms, for `initialize`, and so on. A host call that does not pass its checks (one that
ends in `ConfigError` or `InvalidArgument`, or is refused) ends when it starts, with no capability call and so in no time
(rules R201, R202, R210, R240). The number of steps is log entry 16, the delays are decisions D6 and D10. -/
def Obligations.ReferenceTraceCountsAndTimes : Prop :=
  ∀ (s : State) (c : HostCall) (rs : List Request), asked c rs s →
    (accepted c s → AllOk s (callCalls s.pinNc s.cfg c) →
      ∃ t new, run (callCalls s.pinNc s.cfg c + 1) s = .next t ∧ t.seq = [] ∧ t.outcomes = s.outcomes ++ [.ok] ∧
        t.trace = s.trace ++ new ∧ new.length = callCalls s.pinNc s.cfg c ∧ traceMs new = callMs s.cfg c) ∧
    (¬accepted c s →
      ∃ t r, step s = .next t ∧ t.seq = [] ∧ t.outcomes = s.outcomes ++ [r] ∧ r ≠ .ok ∧ r ≠ .ioError ∧
        t.trace = s.trace)

/-- A steady-state call in `UNINIT` or `DESYNC` is refused whatever its operands, and makes no capability call
(rules R160, R206, R210 (a), R232, decision D3). -/
def Obligations.SteadyCallOutsideReadyIsRefused : Prop :=
  ∀ (s : State) (r : Request) (rs : List Request), s.seq = [] → s.requests = r :: rs → r.call ≠ .initializeCall →
    s.phase ≠ .ready →
    step s = .next { s with requests := rs, refused := true, outcomes := s.outcomes ++ [.refused] }

/-- `create_custom_char` in `READY` with a slot above 7 ends with `InvalidArgument`, with no capability call and no other
change; with a slot of 0 to 7 it does not end but has its nine words to send; and no other call ends with
`InvalidArgument` when it starts, whatever its operands (rule R202). -/
def Obligations.BadSlotIsAnInvalidArgument : Prop :=
  ∀ (s : State) (early : Bool) (c : HostCall) (rs : List Request), s.seq = [] → s.requests = ⟨early, c⟩ :: rs →
    (s.phase = .ready → ∀ (slot : Byte) (g : Glyph), c = .createCustomChar slot g →
      (7 < slot.toNat → step s = .next { s with requests := rs, outcomes := s.outcomes ++ [.invalidArgument] }) ∧
      (slot.toNat ≤ 7 → ∀ t, step s = .next t → t.outcomes = s.outcomes ∧ t.seq.length = 9)) ∧
    ((∀ (slot : Byte) (g : Glyph), c ≠ .createCustomChar slot g) →
      ∀ t, step s = .next t → t.outcomes ≠ s.outcomes ++ [.invalidArgument])

/-- The mapper's row is `min(row, 3, line_count - 1)`, always in 0..3 and below `line_count`, and the clamp is silent:
`set_cursor` in `READY` starts for every row and column, with that row's offset, and changes nothing else
(rule R191). The sum is rule R192's, decision D12; that the sequencer holds it as a 7-bit operand is the model's (log
entry 22). -/
def Obligations.RowClampIsTheMinimum : Prop :=
  (∀ (lineCount : Int) (row : Byte), 1 ≤ lineCount → lineCount ≤ 4 →
    (clampRow lineCount row : Int) = min (min (row.toNat : Int) 3) (lineCount - 1) ∧
    clampRow lineCount row ≤ 3 ∧ (clampRow lineCount row : Int) < lineCount) ∧
  ∀ (s : State) (early : Bool) (col row : Byte) (rs : List Request), s.seq = [] →
    s.requests = ⟨early, .setCursor col row⟩ :: rs → s.phase = .ready → 1 ≤ s.cfg.lineCount →
    s.cfg.lineCount ≤ 4 →
    step s = .next { s with
      requests := rs
      seq := [.word (.setCursor ((rowOffset s.cfg.rowOffsets (rowRef s.cfg row) + col).setWidth 7))] }

/-- `set_cursor(col, row)` transmits `0x80 | a` with `a` the offset of the clamped row plus the column, modulo 256, and
never fails for an operand: the controller gets the address `a`'s low seven bits (rules R192, R193; the widths are
decision D12, the command byte general knowledge). -/
def Obligations.SetCursorSendsTheMappedAddress : Prop :=
  ∀ (s : State) (col row : Byte) (rs : List Request), asked (.setCursor col row) rs s → s.phase = .ready →
    1 ≤ s.cfg.lineCount → s.cfg.lineCount ≤ 4 → AllOk s (txCount s.cfg) →
    ∃ (t : State) (a v : Byte),
      a.toNat = ((rowOffset s.cfg.rowOffsets (rowRef s.cfg row)).toNat + col.toNat) % 256 ∧
      v.getLsbD 7 = true ∧ v.toNat % 128 = a.toNat % 128 ∧
      run (txCount s.cfg + 1) s = .next t ∧ t.trace = s.trace ++ succeeded (txRef s.cfg false v) ∧
      t.phase = .ready ∧ t.outcomes = s.outcomes ++ [.ok]

/-- `print(text)` and one `write_char` for each of its bytes, in order, leave the same trace, the same phase and the same
far end (rules R105, R176). The steps are one for each capability call and one to start each call (log entry 16). -/
def Obligations.PrintIsWriteCharOfEachByte : Prop :=
  ∀ (s : State) (text : List Byte), s.seq = [] → s.phase = .ready → AllOk s (text.length * txCount s.cfg) →
    ∃ t u, run (text.length * txCount s.cfg + 1) { s with requests := [⟨false, .print text⟩] } = .next t ∧
      run (text.length * (txCount s.cfg + 1))
        { s with requests := text.map fun b => ⟨false, .writeChar b⟩ } = .next u ∧
      t.trace = u.trace ∧ t.far = u.far ∧ t.phase = u.phase ∧ t.refused = u.refused ∧
      t.outcomes = s.outcomes ++ [.ok] ∧ u.outcomes = s.outcomes ++ List.replicate text.length .ok

/-! ### Rules of the whole machine -/

/-- No step writes the descriptor, `PIN_NC` or the environment's answers (rules R21, R36, R37; all fields fixed by
decision D2). -/
def Obligations.StepKeepsTheDescriptor : Prop :=
  ∀ s t : State, step s = .next t → t.cfg = s.cfg ∧ t.pinNc = s.pinNc ∧ t.answers = s.answers

/-- The refusal mark is never cleared; a step that sets it ends a call as refused; and a step that ends a call as refused,
whether or not the mark was set before, sets it and changes nothing else but that the call is gone: it was the next one
the host asked, or it was running, with a steady-state word at hand outside `READY`, and what was left of it is dropped
(rules R41, R210, decision D3; the second case is log entry 17). -/
def Obligations.RefusalMarkIsSticky : Prop :=
  ∀ s t : State, step s = .next t →
    (s.refused = true → t.refused = true) ∧
    (s.refused = false → t.refused = true → t.outcomes = s.outcomes ++ [.refused]) ∧
    (t.outcomes = s.outcomes ++ [.refused] →
      (∃ r, s.requests = r :: t.requests ∧
        t = { s with refused := true, outcomes := s.outcomes ++ [.refused], requests := t.requests }) ∨
      (∃ i rest, s.seq = .word i :: rest ∧ steadyWord i = true ∧ s.phase ≠ .ready ∧
        t = { s with refused := true, outcomes := s.outcomes ++ [.refused], seq := [] }))

/-- A step makes at most one capability call (rule R20). A step that makes none leaves the trace and the far end alone; a
step that makes one adds it to the trace with the environment's answer, and the far end sees it; and if it failed, the
phase is `DESYNC` and the call has ended with `IoError` (rules R31, R203, R204, R206; decisions D3 and D14). -/
def Obligations.StepAppendsAnsweredCalls : Prop :=
  ∀ s t : State, step s = .next t →
    (t.trace = s.trace ∧ t.far = s.far) ∨
    ∃ e, t.trace = s.trace ++ [(e, answerAt s s.trace.length)] ∧
      t.far = s.far.observe s.pinNc s.cfg s.trace.length e (answerAt s s.trace.length) ∧
      (answerAt s s.trace.length = .fail →
        t.phase = .desync ∧ t.seq = [] ∧ t.outcomes = s.outcomes ++ [.ioError])

/-- The pins a step touches, from a state that keeps rule R132: only used pins; a direction only in step 2 of
`initialize`; and RW in no other step (rules R51, R126; decision D7; the invariant is that of StepKeepsTheBusQuiet). -/
def Obligations.StepTouchesOnlyItsPins : Prop :=
  ∀ s t : State, BusQuiet s → step s = .next t →
    ∃ es : List (Event × Answer), t.trace = s.trace ++ es ∧ ∀ x ∈ es,
      match x.1 with
      | .delay _ => True
      | .setDir p => InSetup s ∧ p ∈ setupPinsRef s.pinNc s.cfg
      | .setLevel p v =>
        (InSetup s ∧ p ∈ setupPinsRef s.pinNc s.cfg ∧ v = false) ∨
        p = s.cfg.rsPin ∨ p = s.cfg.enPin ∨ p ∈ usedDataPins s.cfg

/-- The phase changes only as the table of rule R30 says: to `DESYNC` with a failed capability call, and to `READY` with
the last call of `initialize`, answered `ok`; and only `initialize.entry_default` brings that call into the sequencer
(rules R30, R150, R204; decision D3). -/
def Obligations.PhaseChangesOnlyAsListed : Prop :=
  ∀ s t : State, step s = .next t →
    (t.phase ≠ s.phase →
      (t.phase = .desync ∧ ∃ e, t.trace = s.trace ++ [(e, .fail)]) ∨
      (t.phase = .ready ∧ ∃ e, s.seq.head? = some (.callThenReady e) ∧ t.trace = s.trace ++ [(e, .ok)])) ∧
    ∀ e, .callThenReady e ∈ t.seq → .callThenReady e ∈ s.seq ∨ s.seq.head? = some (.word .initializeEntryDefault)

/-- Every host call ends exactly once: the calls ended, in progress and waiting, counted together, are the same number
before and after every step (rules R20, R200). -/
def Obligations.EveryCallEndsExactlyOnce : Prop :=
  ∀ s t : State, step s = .next t → callCount t = callCount s

/-- The sequencer holds only words this descriptor's block can emit, steady-state ones only in `READY`; every step keeps
that, and from such a state a step always answers a next state: the machine never stops (rules R85, R86, R93, R160). -/
def Obligations.SoundSequencerNeverStops : Prop :=
  ∀ s : State, SequencerSound s → ∃ t, step s = .next t ∧ SequencerSound t

/-- The reset state's sequencer is sound. -/
def Obligations.ResetSequencerIsSound : Prop := SequencerSound State.reset

/-- Rule R132 as an invariant: every step keeps it, and where it holds and nothing runs in `READY`, E is low and so is RW,
as a line or by wiring. -/
def Obligations.StepKeepsTheBusQuiet : Prop :=
  ∀ s t : State, BusQuiet s → step s = .next t →
    BusQuiet t ∧ (t.seq = [] → t.phase = .ready → pinsUsable t.pinNc t.cfg ∧ linesQuiet t)

/-- The reset state meets `BusQuiet`. -/
def Obligations.ResetBusIsQuiet : Prop := BusQuiet State.reset

/-- No read word ever occurs on the bus: from a quiet bus no step drives RW high, no pin is made an input (the model has
no such event), and every strobe carries RW low (rule R99; `BusQuiet` is the invariant of the statements before). -/
def Obligations.NoReadWordOccurs : Prop :=
  ∀ s t : State, BusQuiet s → step s = .next t →
    (∃ es : List (Event × Answer), t.trace = s.trace ++ es ∧
      ∀ x ∈ es, s.cfg.rwPin ≠ s.pinNc → x.1 ≠ .setLevel s.cfg.rwPin true) ∧
    ∃ ws, t.far.strobes = s.far.strobes ++ ws ∧ ∀ w ∈ ws, BusWord.rw w = false

/-- Every line whose level is known is at the level of the last successful write of its pin in the trace: every step
keeps that (rule R32; a level is unknown after a failed call by rule R204). -/
def Obligations.StepKeepsLinesAgreeing : Prop :=
  ∀ s t : State, LinesAgree s → step s = .next t → LinesAgree t

/-- The reset state's lines agree with its empty trace. -/
def Obligations.ResetLinesAgree : Prop := LinesAgree State.reset

/-- A host call in progress comes to its end: within one step for each capability call left of it and one for each call
waiting, nothing of it is left (rules R20, R241). That each capability call is one step rests on rule R20 and log entry 16;
a waiting call takes a step of this run only if it is marked early (log entry 14), so the bound need not be met. -/
def Obligations.RunningCallComesToItsEnd : Prop :=
  ∀ s : State, SequencerSound s →
    ∃ n t, n ≤ (plan s.cfg s.seq).length + s.requests.length ∧ run n s = .next t ∧ t.seq = []

/-- A trace that conforms to the reference trace of a host call (rule R234) has as many capability calls as the spec counts
for that call, all answered `ok`, and takes at least the time the spec gives for it, whatever it makes of the delays
(rules R6, R131, R152, R240; decision D4); and the trace the call leaves when the machine runs it conforms. -/
def Obligations.ConformingTraceIsNoFaster : Prop :=
  ∀ (s : State) (c : HostCall) (rs : List Request), asked c rs s → accepted c s →
    AllOk s (callRef s.pinNc s.cfg c).length →
    (∀ t', traceConforms t' (succeeded (callRef s.pinNc s.cfg c)) →
      t'.length = callCalls s.pinNc s.cfg c ∧ (∀ x ∈ t', x.2 = .ok) ∧ callMs s.cfg c ≤ traceMs t') ∧
    ∃ t new, run (callCalls s.pinNc s.cfg c + 1) s = .next t ∧ t.trace = s.trace ++ new ∧
      traceConforms new (succeeded (callRef s.pinNc s.cfg c))

/-! ### Single calls and their failures -/

/-- One capability call at hand is one step (rules R4, R20): answered `ok`, it is in the trace, the far end saw it and
nothing else changes but that the host call ends with it if nothing is left; answered `fail`, the host call ends with
`IoError` in `DESYNC` (rule R204, decision D3). A failed delay changes nothing at the far end; a failed call on a pin
leaves every line on that pin unknown and every other line as it was, and strobes nothing unless the pin is E's and E
was not known to be low, when it may have made E fall (the effect of a failing call on its pin is unknown by rule R204;
how that shows is log entries 4 and 6). Calls that will not wait are kept out (log entry 14). -/
def Obligations.OneCallIsOneStep : Prop :=
  ∀ (s : State) (e : Event) (rest : List Item), s.seq = .call e :: rest → noEarlyRequest s →
    (answerAt s s.trace.length = .ok → ∃ t, step s = .next t ∧ Emitted [e] { s with seq := rest } t) ∧
    (answerAt s s.trace.length = .fail →
      ∃ t, step s = .next t ∧ Failed [] e s t ∧
        ((∃ ms, e = .delay ms) → t.far = s.far) ∧
        ∀ p, (e = .setDir p ∨ ∃ v, e = .setLevel p v) →
          t.far.lines = driveLines s.cfg p none s.far.lines ∧
          (t.far.strobes = s.far.strobes ∧ t.far.mode = s.far.mode ∧ t.far.delivered = s.far.delivered ∨
            p = s.cfg.enPin ∧ s.far.lines.en ≠ some false ∧
              ∃ w, t.far.strobes = s.far.strobes ++ [w]))

/-- Every word that is a transmit, with or without a wait after it, strobes exactly the bus words of its byte (rules R83,
R84, R98), from a usable descriptor with E and RW low, and leaves E and RW low: the words of the instructions named in
DisplayWordsComplete, AddressAndDataWordsComplete, InitializeTransmitsComplete and TransmitFramesComplete (a function
set whose fields are not the descriptor's: log entry 24). -/
def Obligations.TransmitWordsStrobeTheirByte : Prop :=
  ∀ (s : State) (i : Instr) (rs : Bool) (v : Byte) (tail : List Event), canRun i s → noEarlyRequest s →
    wordRef s.cfg i = txRef s.cfg rs v ++ tail → (∀ e ∈ tail, ∃ ms, e = .delay ms) →
    pinsUsable s.pinNc s.cfg → linesQuiet s → AllOk s (wordRef s.cfg i).length →
    ∃ u t, exec i s = .next u ∧ run ((wordRef s.cfg i).length - 1) u = .next t ∧
      t.far.strobes = s.far.strobes ++ txWords s.cfg rs v ∧ t.far.lines.rs = some rs ∧ linesQuiet t

/-- What has reached the controller when call `before.length + 1` of a transmit fails, by its place in the frame, from a
usable descriptor with E and RW low (95_test_vectors.md section 2.7; rules R60, R62, R204). In 4-bit mode: up to the
rising edge of the first pulse, nothing; from the wait after its falling edge to the wait before the second falling
edge, the high nibble, which a receiver at the start of a byte then holds, nothing delivered (rule R60); after the
second falling edge, both halves. In 8-bit mode: up to the wait before the falling edge, nothing; after it, the byte.
The receiver is general knowledge; every strobe is acted on by rule R115's premise (log entry 8). -/
def Obligations.FailurePlaceFixesTheStrobes : Prop :=
  ∀ (s : State) (i : Instr) (rs : Bool) (v : Byte) (tail before after : List Event) (e : Event),
    canRun i s → noEarlyRequest s → wordRef s.cfg i = txRef s.cfg rs v ++ tail →
    txRef s.cfg rs v = before ++ e :: after → pinsUsable s.pinNc s.cfg → linesQuiet s →
    AllOk s before.length → answerAt s (s.trace.length + before.length) = .fail →
    ∃ u t, exec i s = .next u ∧ run before.length u = .next t ∧ t.phase = .desync ∧
      (s.cfg.bus8 = false → before.length ≤ 8 →
        t.far.strobes = s.far.strobes ∧ t.far.mode = s.far.mode ∧ t.far.delivered = s.far.delivered) ∧
      (s.cfg.bus8 = false → 10 ≤ before.length → before.length ≤ 18 →
        t.far.strobes = s.far.strobes ++ [.w4 rs false (v.extractLsb' 4 4)] ∧
        (s.far.mode = .m4h → t.far.mode = .m4l (v.extractLsb' 4 4) ∧ t.far.delivered = s.far.delivered)) ∧
      (s.cfg.bus8 = false → 20 ≤ before.length → t.far.strobes = s.far.strobes ++ txWords s.cfg rs v) ∧
      (s.cfg.bus8 = true → before.length ≤ 12 →
        t.far.strobes = s.far.strobes ∧ t.far.mode = s.far.mode ∧ t.far.delivered = s.far.delivered) ∧
      (s.cfg.bus8 = true → 14 ≤ before.length → t.far.strobes = s.far.strobes ++ txWords s.cfg rs v)

/-- Between the rising and the falling edge of E nothing but E is written: from a state whose calls keep rule R132, with E
high, a step that makes a capability call makes a delay or drives E low (rule R132 (c)). -/
def Obligations.OnlyEnableIsWrittenWhileItIsHigh : Prop :=
  ∀ s t : State, InFrames s → s.far.lines.en = some true → step s = .next t →
    ∀ e a, t.trace = s.trace ++ [(e, a)] → e = .setLevel s.cfg.enPin false ∨ ∃ ms, e = .delay ms

/-- Nothing in the block reads the far end (rules R20, R35, R38): two states that differ in the far end alone have steps
that differ in the far end alone. -/
def Obligations.FarEndIsNeverRead : Prop :=
  ∀ (s : State) (f : FarEnd),
    (∀ t, step s = .next t → ∃ g, step { s with far := f } = .next { t with far := g }) ∧
    ∀ r, step s = .refused r → step { s with far := f } = .refused r
end

