-- ==== Sys2Proof/Laws/State.lean ====
section
/-! SUPPORT. One lemma per field per update of State, so that no later proof unfolds a record update. -/

namespace Sys2Proof.Machine

@[simp] theorem record_pinNc (e : Event) (a : Answer) (s : State) : (record e a s).pinNc = s.pinNc := rfl
@[simp] theorem record_cfg (e : Event) (a : Answer) (s : State) : (record e a s).cfg = s.cfg := rfl
@[simp] theorem record_phase (e : Event) (a : Answer) (s : State) : (record e a s).phase = s.phase := rfl
@[simp] theorem record_refused (e : Event) (a : Answer) (s : State) : (record e a s).refused = s.refused := rfl
@[simp] theorem record_trace (e : Event) (a : Answer) (s : State) : (record e a s).trace = s.trace ++ [(e, a)] := rfl
@[simp] theorem record_seq (e : Event) (a : Answer) (s : State) : (record e a s).seq = s.seq := rfl
@[simp] theorem record_outcomes (e : Event) (a : Answer) (s : State) : (record e a s).outcomes = s.outcomes := rfl
@[simp] theorem record_requests (e : Event) (a : Answer) (s : State) : (record e a s).requests = s.requests := rfl
@[simp] theorem record_answers (e : Event) (a : Answer) (s : State) : (record e a s).answers = s.answers := rfl
@[simp] theorem record_far (e : Event) (a : Answer) (s : State) : (record e a s).far = s.far.observe s.pinNc s.cfg s.trace.length e a := rfl

@[simp] theorem endCall_pinNc (r : CallResult) (s : State) : (endCall r s).pinNc = s.pinNc := rfl
@[simp] theorem endCall_cfg (r : CallResult) (s : State) : (endCall r s).cfg = s.cfg := rfl
@[simp] theorem endCall_phase (r : CallResult) (s : State) : (endCall r s).phase = s.phase := rfl
@[simp] theorem endCall_refused (r : CallResult) (s : State) : (endCall r s).refused = s.refused := rfl
@[simp] theorem endCall_trace (r : CallResult) (s : State) : (endCall r s).trace = s.trace := rfl
@[simp] theorem endCall_seq (r : CallResult) (s : State) : (endCall r s).seq = s.seq := rfl
@[simp] theorem endCall_outcomes (r : CallResult) (s : State) : (endCall r s).outcomes = s.outcomes ++ [r] := rfl
@[simp] theorem endCall_requests (r : CallResult) (s : State) : (endCall r s).requests = s.requests := rfl
@[simp] theorem endCall_answers (r : CallResult) (s : State) : (endCall r s).answers = s.answers := rfl
@[simp] theorem endCall_far (r : CallResult) (s : State) : (endCall r s).far = s.far := rfl

@[simp] theorem raiseIoError_pinNc (s : State) : (raiseIoError s).pinNc = s.pinNc := rfl
@[simp] theorem raiseIoError_cfg (s : State) : (raiseIoError s).cfg = s.cfg := rfl
@[simp] theorem raiseIoError_phase (s : State) : (raiseIoError s).phase = .desync := rfl
@[simp] theorem raiseIoError_refused (s : State) : (raiseIoError s).refused = s.refused := rfl
@[simp] theorem raiseIoError_trace (s : State) : (raiseIoError s).trace = s.trace := rfl
@[simp] theorem raiseIoError_seq (s : State) : (raiseIoError s).seq = [] := rfl
@[simp] theorem raiseIoError_outcomes (s : State) : (raiseIoError s).outcomes = s.outcomes ++ [.ioError] := rfl
@[simp] theorem raiseIoError_requests (s : State) : (raiseIoError s).requests = s.requests := rfl
@[simp] theorem raiseIoError_answers (s : State) : (raiseIoError s).answers = s.answers := rfl
@[simp] theorem raiseIoError_far (s : State) : (raiseIoError s).far = s.far := rfl

@[simp] theorem raiseConfigError_pinNc (s : State) : (raiseConfigError s).pinNc = s.pinNc := rfl
@[simp] theorem raiseConfigError_cfg (s : State) : (raiseConfigError s).cfg = s.cfg := rfl
@[simp] theorem raiseConfigError_phase (s : State) : (raiseConfigError s).phase = s.phase := rfl
@[simp] theorem raiseConfigError_refused (s : State) : (raiseConfigError s).refused = s.refused := rfl
@[simp] theorem raiseConfigError_trace (s : State) : (raiseConfigError s).trace = s.trace := rfl
@[simp] theorem raiseConfigError_seq (s : State) : (raiseConfigError s).seq = s.seq := rfl
@[simp] theorem raiseConfigError_outcomes (s : State) : (raiseConfigError s).outcomes = s.outcomes ++ [.configError] := rfl
@[simp] theorem raiseConfigError_requests (s : State) : (raiseConfigError s).requests = s.requests := rfl
@[simp] theorem raiseConfigError_answers (s : State) : (raiseConfigError s).answers = s.answers := rfl
@[simp] theorem raiseConfigError_far (s : State) : (raiseConfigError s).far = s.far := rfl

@[simp] theorem raiseInvalidArgument_pinNc (s : State) : (raiseInvalidArgument s).pinNc = s.pinNc := rfl
@[simp] theorem raiseInvalidArgument_cfg (s : State) : (raiseInvalidArgument s).cfg = s.cfg := rfl
@[simp] theorem raiseInvalidArgument_phase (s : State) : (raiseInvalidArgument s).phase = s.phase := rfl
@[simp] theorem raiseInvalidArgument_refused (s : State) : (raiseInvalidArgument s).refused = s.refused := rfl
@[simp] theorem raiseInvalidArgument_trace (s : State) : (raiseInvalidArgument s).trace = s.trace := rfl
@[simp] theorem raiseInvalidArgument_seq (s : State) : (raiseInvalidArgument s).seq = s.seq := rfl
@[simp] theorem raiseInvalidArgument_outcomes (s : State) : (raiseInvalidArgument s).outcomes = s.outcomes ++ [.invalidArgument] := rfl
@[simp] theorem raiseInvalidArgument_requests (s : State) : (raiseInvalidArgument s).requests = s.requests := rfl
@[simp] theorem raiseInvalidArgument_answers (s : State) : (raiseInvalidArgument s).answers = s.answers := rfl
@[simp] theorem raiseInvalidArgument_far (s : State) : (raiseInvalidArgument s).far = s.far := rfl

@[simp] theorem refuse_pinNc (s : State) : (refuse s).pinNc = s.pinNc := rfl
@[simp] theorem refuse_cfg (s : State) : (refuse s).cfg = s.cfg := rfl
@[simp] theorem refuse_phase (s : State) : (refuse s).phase = s.phase := rfl
@[simp] theorem refuse_refused (s : State) : (refuse s).refused = true := rfl
@[simp] theorem refuse_trace (s : State) : (refuse s).trace = s.trace := rfl
@[simp] theorem refuse_seq (s : State) : (refuse s).seq = s.seq := rfl
@[simp] theorem refuse_outcomes (s : State) : (refuse s).outcomes = s.outcomes ++ [.refused] := rfl
@[simp] theorem refuse_requests (s : State) : (refuse s).requests = s.requests := rfl
@[simp] theorem refuse_answers (s : State) : (refuse s).answers = s.answers := rfl
@[simp] theorem refuse_far (s : State) : (refuse s).far = s.far := rfl

@[simp] theorem finishItem_pinNc (s : State) : (finishItem s).pinNc = s.pinNc := by
  unfold finishItem; split <;> rfl
@[simp] theorem finishItem_cfg (s : State) : (finishItem s).cfg = s.cfg := by
  unfold finishItem; split <;> rfl
@[simp] theorem finishItem_phase (s : State) : (finishItem s).phase = s.phase := by
  unfold finishItem; split <;> rfl
@[simp] theorem finishItem_refused (s : State) : (finishItem s).refused = s.refused := by
  unfold finishItem; split <;> rfl
@[simp] theorem finishItem_trace (s : State) : (finishItem s).trace = s.trace := by
  unfold finishItem; split <;> rfl
@[simp] theorem finishItem_seq (s : State) : (finishItem s).seq = s.seq := by
  unfold finishItem; split <;> rfl
@[simp] theorem finishItem_outcomes (s : State) : (finishItem s).outcomes = if s.seq = [] then s.outcomes ++ [.ok] else s.outcomes := by
  unfold finishItem; split <;> rfl
@[simp] theorem finishItem_requests (s : State) : (finishItem s).requests = s.requests := by
  unfold finishItem; split <;> rfl
@[simp] theorem finishItem_answers (s : State) : (finishItem s).answers = s.answers := by
  unfold finishItem; split <;> rfl
@[simp] theorem finishItem_far (s : State) : (finishItem s).far = s.far := by
  unfold finishItem; split <;> rfl

end Sys2Proof.Machine
end

