-- ==== Sys2Proof/Laws/Ops.lean ====
section
/-! SUPPORT. What the shared operations can do: one capability call and the emissions made of it, each said once. -/

namespace Sys2Proof.Machine

/-! ### Answers -/

@[simp] theorem answerAt_record (e : Event) (a : Answer) (s : State) (k : Nat) :
    answerAt (record e a s) k = answerAt s k := rfl

theorem AllOk.mono {s : State} {m n : Nat} (h : AllOk s n) (hmn : m ≤ n) : AllOk s m :=
  fun k hk => h k (Nat.lt_of_lt_of_le hk hmn)

theorem allOk_zero (s : State) : AllOk s 0 := fun _ hk => absurd hk (Nat.not_lt_zero _)

theorem AllOk.head {s : State} {n : Nat} (h : AllOk s (n + 1)) : answerAt s s.trace.length = .ok := by
  simpa using h 0 (Nat.succ_pos n)

theorem AllOk.tail {s : State} {n : Nat} {e : Event} {a : Answer} (h : AllOk s (n + 1)) :
    AllOk (record e a s) n := by
  intro k hk
  have := h (k + 1) (by omega)
  simpa [Nat.add_assoc, Nat.add_comm 1 k] using this

/-- States with the same answers and traces of one length agree on `AllOk`. -/
theorem AllOk.congr {s t : State} {n : Nat} (h : AllOk s n) (ha : t.answers = s.answers)
    (hl : t.trace.length = s.trace.length) : AllOk t n := by
  intro k hk
  have := h k hk
  simpa [answerAt, ha, hl] using this

/-- The answers after the first `m` calls. -/
theorem AllOk.drop {s t : State} {m n : Nat} (h : AllOk s (m + n)) (ha : t.answers = s.answers)
    (hl : t.trace.length = s.trace.length + m) : AllOk t n := by
  intro k hk
  have := h (m + k) (by omega)
  simpa [answerAt, ha, hl, Nat.add_assoc] using this

/-! ### A run of successful calls -/

/-- The state after the events, all answered `ok`. -/
def recordAll (es : List Event) (s : State) : State := es.foldl (fun t e => record e .ok t) s

@[simp] theorem recordAll_nil (s : State) : recordAll [] s = s := rfl

@[simp] theorem recordAll_cons (e : Event) (es : List Event) (s : State) :
    recordAll (e :: es) s = recordAll es (record e .ok s) := rfl

theorem recordAll_append (xs ys : List Event) (s : State) :
    recordAll (xs ++ ys) s = recordAll ys (recordAll xs s) := by
  simp [recordAll, List.foldl_append]

theorem observeAll_append (nc : PinId) (d : Descriptor) (k : Nat) (xs ys : List Event) (f : FarEnd) :
    observeAll nc d k (xs ++ ys) f = observeAll nc d (k + xs.length) ys (observeAll nc d k xs f) := by
  induction xs generalizing k f with
  | nil => rfl
  | cons x xs ih => simp [observeAll, ih, Nat.add_assoc, Nat.add_comm 1]

/-- `recordAll` changes the trace and the far end and nothing else. -/
theorem recordAll_eq (es : List Event) (s : State) :
    recordAll es s = { s with
      trace := s.trace ++ succeeded es
      far := observeAll s.pinNc s.cfg s.trace.length es s.far } := by
  induction es generalizing s with
  | nil => simp [succeeded, observeAll]
  | cons e es ih => simp [ih, succeeded, observeAll, record]

/-! ### One capability call -/

/-- Everything one capability call can do. -/
theorem issueThen_cases (after : State → State) (e : Event) (s : State) :
    (answerAt s s.trace.length = .ok ∧ issueThen after e s = finishItem (after (record e .ok s))) ∨
    (answerAt s s.trace.length = .fail ∧ issueThen after e s = raiseIoError (record e .fail s)) := by
  rcases h : answerAt s s.trace.length with _ | _ <;> simp [issueThen, h]

theorem issue_of_ok {e : Event} {s : State} (h : answerAt s s.trace.length = .ok) :
    issue e s = finishItem (record e .ok s) := by
  simp [issue, issueThen, h]

theorem issueThen_of_fail {after : State → State} {e : Event} {s : State} (h : answerAt s s.trace.length = .fail) :
    issueThen after e s = raiseIoError (record e .fail s) := by
  simp [issueThen, h]

/-- Ending a step changes nothing while something of the call is left. -/
theorem finishItem_of_ne {s : State} (h : s.seq ≠ []) : finishItem s = s := by simp [finishItem, h]

/-- The state in which a list of calls stopped: `before` succeeded, `e` failed. -/
def failedAt (before : List Event) (e : Event) (s : State) : State :=
  raiseIoError (record e .fail (recordAll before s))

theorem failed_failedAt (before : List Event) (e : Event) (s : State) : Failed before e s (failedAt before e s) := by
  unfold Failed failedAt
  rw [recordAll_eq]
  simp [raiseIoError, endCall, record, succeeded]

/-- What is left of the call does not matter to how it fails. -/
theorem failedAt_seq (before : List Event) (e : Event) (s : State) (q : List Item) :
    failedAt before e { s with seq := q } = failedAt before e s := by
  simp [failedAt, recordAll_eq, raiseIoError, endCall, record]

/-! ### Emissions -/

theorem emitReady_of_ready {es : List Event} {s : State} (h : s.phase = .ready) : emitReady es s = emit es s := by
  simp [emitReady, h]

theorem emitReady_of_not_ready {es : List Event} {s : State} (h : s.phase ≠ .ready) :
    emitReady es s = refuse { s with seq := [] } := by
  simp [emitReady, h]

/-- An emission that succeeds leaves the state that the reference calls `Emitted`. -/
theorem emitted_finishItem_recordAll (es : List Event) (s : State) :
    Emitted es s (finishItem (recordAll es s)) := by
  unfold Emitted
  rw [recordAll_eq]
  unfold finishItem
  split <;> simp_all [endCall]

/-! ### The frames as explicit events -/

theorem putLines_four (d : Descriptor) (x : Byte) :
    putLines d x 4 = [.setLevel d.dataPins.d0 (x.getLsbD 0), .setLevel d.dataPins.d1 (x.getLsbD 1),
      .setLevel d.dataPins.d2 (x.getLsbD 2), .setLevel d.dataPins.d3 (x.getLsbD 3)] := rfl

theorem putLines_eight (d : Descriptor) (x : Byte) : putLines d x 8 = byteRef d x := rfl

theorem pulseEnable_eq (d : Descriptor) : pulseEnable d = pulseRef d := rfl

theorem putLines_high (d : Descriptor) (v : Byte) :
    putLines d (highNibble v) 4 = nibbleRef d (v.extractLsb' 4 4) := by
  simp [putLines_four, nibbleRef, highNibble]

theorem putLines_low (d : Descriptor) (v : Byte) :
    putLines d (lowNibble v) 4 = nibbleRef d (v.extractLsb' 0 4) := by
  simp [putLines_four, nibbleRef, lowNibble]

/-- The model's transmit issues the reference trace's events. -/
theorem transmit_eq_txRef (d : Descriptor) (v : Byte) (rs : Level) : transmit d v rs = txRef d rs v := by
  unfold transmit transmitFrame frame txRef
  split <;> simp [putLines_eight, pulseEnable_eq, putLines_high, putLines_low, tPost]

theorem txRef_length (d : Descriptor) (rs : Level) (v : Byte) : (txRef d rs v).length = txCount d := by
  unfold txRef txCount
  split <;> rfl

end Sys2Proof.Machine
end

