-- ==== Sys2Proof/Laws/Exec.lean ====
section
/-! SUPPORT. Every instruction's meaning as the first of its reference events, the others to come, and everything a step
can do. -/

namespace Sys2Proof.Machine

/-! ### The command bytes as sums of their fields -/

theorem functionByte_eq (dl n f : Bool) :
    functionByte dl n f = 0x20 + (if dl then 0x10 else 0) + (if n then 0x08 else 0) + (if f then 0x04 else 0) := by
  revert dl n f; decide

theorem displayByte_eq (on cursor blink : Bool) :
    displayByte on cursor blink =
      0x08 + (if on then 4 else 0) + (if cursor then 2 else 0) + (if blink then 1 else 0) := by
  revert on cursor blink; decide

theorem entryByte_eq (ltr autoscroll : Bool) :
    entryByte ltr autoscroll = 0x04 + (if ltr then 2 else 0) + (if autoscroll then 1 else 0) := by
  revert ltr autoscroll; decide

theorem cgramByte_eq (slot : BitVec 3) : cgramByte (slot.setWidth 8) = 0x40 + 8 * slot.setWidth 8 := by
  revert slot; decide

theorem ddramByte_eq (a : BitVec 7) : ddramByte (a.setWidth 8) = 0x80 + a.setWidth 8 := by
  revert a; decide

/-- The command byte keeps only the address's low seven bits: bit 7 is forced to 1 either way (rule R95). -/
theorem ddramByte_setWidth (a : Byte) : ddramByte ((a.setWidth 7).setWidth 8) = ddramByte a := by
  revert a; decide

/-- A slot of at most 7 is its own low three bits. -/
theorem cgramByte_setWidth (slot : Byte) (h : slot.toNat ≤ 7) :
    cgramByte ((slot.setWidth 3).setWidth 8) = cgramByte slot := by
  revert slot; decide

theorem rawNibble_three (d : Descriptor) : rawNibble d 3#8 = nibbleRef d 3#4 ++ pulseRef d := rfl

theorem rawNibble_two (d : Descriptor) : rawNibble d 2#8 = nibbleRef d 2#4 ++ pulseRef d := rfl

/-! ### The meanings -/

/-- A word as the capability calls it stands for: only the last call of `entry_default` is more than a call (rule
R150). -/
def wordItems (d : Descriptor) : Instr → List Item
  | .initializeEntryDefault => (transmitFrame d 0x06 false).map .call ++ [.callThenReady (.delay 1)]
  | i => (wordRef d i).map .call

/-- Making the first call of a list of items, the others left for later steps. -/
def begin : List Item → State → State
  | .call e :: its, s => issue e { s with seq := its ++ s.seq }
  | _, s => s

theorem begin_map (es : List Event) (its : List Item) (s : State) (h : es ≠ []) :
    begin (es.map .call ++ its) s = emit es { s with seq := its ++ s.seq } := by
  rcases es with _ | ⟨e, es⟩
  · exact absurd rfl h
  · simp [begin, emit]

theorem begin_map_nil (es : List Event) (s : State) (h : es ≠ []) : begin (es.map .call) s = emit es s := by
  simpa using begin_map es [] s h

theorem wordRef_ne_nil (d : Descriptor) (i : Instr) : wordRef d i ≠ [] := by
  have htx : ∀ rs v, txRef d rs v ≠ [] := by
    intro rs v h
    have := txRef_length d rs v
    rw [h] at this
    simp only [txCount] at this
    split at this <;> simp at this
  cases i <;> simp [wordRef, htx, nibbleRef]

theorem transmitFrame_ne_nil (d : Descriptor) (v : Byte) (rs : Level) : transmitFrame d v rs ≠ [] := by
  simp [transmitFrame]

/-- Every instruction that can run makes the first of its reference events and leaves the others for later steps. -/
theorem exec_of_canRun {i : Instr} {s : State} (h : canRun i s) :
    exec i s = .next (begin (wordItems s.cfg i) s) := by
  obtain ⟨hw, hp⟩ := h
  by_cases hi : i = .initializeEntryDefault
  · subst hi
    simp only [exec, execInitializeEntryDefault, wordItems]
    rw [begin_map _ _ _ (transmitFrame_ne_nil _ _ _)]
    rfl
  · have hb : begin (wordItems s.cfg i) s = emit (wordRef s.cfg i) s := by
      rw [← begin_map_nil _ _ (wordRef_ne_nil _ _)]
      cases i <;> first | rfl | exact absurd rfl hi
    rw [hb]
    cases i <;> simp only [steadyWord, busWidthOf, Option.some.injEq, forall_eq', forall_const, reduceCtorEq,
        not_true_eq_false] at hw hp hi <;>
      simp [exec, execInitializeRaw0011, execInitializeRaw0010, execInitializeFunctionSet,
        execInitializeDisplayDefault, execClear, execHome, execSetDisplayMode,
        execScrollLeft, execScrollRight, execSetTextDirection, execCreateCustomCharCgramAddress,
        execCreateCustomCharGlyphRow, execSetCursor, execWriteChar, execPrint, execTransmitW8, execTransmitW4x2,
        wordRef, emitReady_of_ready, transmit_eq_txRef, rawNibble_three, rawNibble_two,
        functionByte_eq, displayByte_eq, entryByte_eq, cgramByte_eq, ddramByte_eq, clearByte, homeByte, shiftByte,
        bit, tClear, tHome, hw, hp]

/-- A steady-state word outside `READY` (rules R160, R210 (a)). -/
theorem exec_steady_of_not_ready {i : Instr} {s : State} (hi : steadyWord i = true) (h : s.phase ≠ .ready) :
    exec i s = .next (refuse { s with seq := [] }) := by
  cases i <;> simp [steadyWord] at hi <;>
    simp [exec, execClear, execHome, execSetDisplayMode, execScrollLeft, execScrollRight, execSetTextDirection,
      execCreateCustomCharCgramAddress, execCreateCustomCharGlyphRow, execSetCursor, execWriteChar, execPrint,
      emitReady_of_not_ready h]

/-- A word of the other bus width has no meaning (rules R85, R127, R128). -/
theorem exec_of_wrong_width {i : Instr} {s : State} {w : Bool} (hi : busWidthOf i = some w) (h : s.cfg.bus8 ≠ w) :
    exec i s = .refused .wrongBusWidth := by
  cases i <;> simp [busWidthOf] at hi <;> subst hi <;>
    simp_all [exec, execInitializeRaw0011, execInitializeRaw0010, execTransmitW8, execTransmitW4x2]

/-- Everything `exec` can do: run, be refused by the model's mark, or stop for the bus width. -/
theorem exec_cases (i : Instr) (s : State) :
    (canRun i s ∧ exec i s = .next (begin (wordItems s.cfg i) s)) ∨
    (steadyWord i = true ∧ s.phase ≠ .ready ∧ exec i s = .next (refuse { s with seq := [] })) ∨
    (∃ w, busWidthOf i = some w ∧ s.cfg.bus8 ≠ w ∧ exec i s = .refused .wrongBusWidth) := by
  by_cases hc : canRun i s
  · exact .inl ⟨hc, exec_of_canRun hc⟩
  · simp only [canRun, not_and_or, not_forall] at hc
    rcases hc with ⟨w, hw, hb⟩ | ⟨hs, hp⟩
    · exact .inr (.inr ⟨w, hw, hb, exec_of_wrong_width hw hb⟩)
    · exact .inr (.inl ⟨hs, hp, exec_steady_of_not_ready hs hp⟩)

/-! ### Steps -/

theorem step_start {s : State} {r : Request} {rs : List Request} (hs : s.seq = []) (hr : s.requests = r :: rs) :
    step s = .next (startCall r.call { s with requests := rs }) := by
  simp [step, nextMove, hs, hr]

theorem step_overlap {s : State} {it : Item} {rest : List Item} {r : Request} {rs : List Request}
    (hs : s.seq = it :: rest) (hr : s.requests = r :: rs) (he : r.early = true) :
    step s = .next (refuse { s with requests := rs }) := by
  simp [step, nextMove, hs, hr, he]

theorem nextMove_run {s : State} {it : Item} {rest : List Item} (hs : s.seq = it :: rest) (he : noEarlyRequest s) :
    nextMove s = .run it rest := by
  rcases hr : s.requests with _ | ⟨r, rs⟩
  · simp [nextMove, hs, hr]
  · simp [nextMove, hs, hr, he r rs hr]

theorem step_call {s : State} {e : Event} {rest : List Item} (hs : s.seq = .call e :: rest) (he : noEarlyRequest s) :
    step s = .next (issue e { s with seq := rest }) := by
  simp [step, nextMove_run hs he]

theorem step_callThenReady {s : State} {e : Event} {rest : List Item} (hs : s.seq = .callThenReady e :: rest)
    (he : noEarlyRequest s) : step s = .next (issueThenReady e { s with seq := rest }) := by
  simp [step, nextMove_run hs he]

/-- A word at hand stands for its calls: a step does with it what it does with them. -/
theorem step_word_eq {s : State} {i : Instr} {rest : List Item} (hs : s.seq = .word i :: rest) (he : noEarlyRequest s)
    (hc : canRun i s) : step s = .next (begin (wordItems s.cfg i) { s with seq := rest }) := by
  have hc' : canRun i { s with seq := rest } := hc
  simp only [step, nextMove_run hs he, exec_of_canRun hc']

/-- Everything a step can do, guards included. -/
theorem step_cases (s : State) :
    (s.Idle ∧ step s = .next s) ∨
    (∃ r rs, s.seq = [] ∧ s.requests = r :: rs ∧ step s = .next (startCall r.call { s with requests := rs })) ∨
    (∃ it rest r rs, s.seq = it :: rest ∧ s.requests = r :: rs ∧ r.early = true ∧
      step s = .next (refuse { s with requests := rs })) ∨
    (∃ e rest, s.seq = .call e :: rest ∧ noEarlyRequest s ∧ step s = .next (issue e { s with seq := rest })) ∨
    (∃ e rest, s.seq = .callThenReady e :: rest ∧ noEarlyRequest s ∧
      step s = .next (issueThenReady e { s with seq := rest })) ∨
    (∃ i rest, s.seq = .word i :: rest ∧ noEarlyRequest s ∧ step s = exec i { s with seq := rest }) := by
  have hq : s.seq = [] ∨ ∃ it rest, s.seq = it :: rest := by cases s.seq <;> simp
  have hp : s.requests = [] ∨ ∃ r rs, s.requests = r :: rs := by cases s.requests <;> simp
  rcases hq with hs | ⟨it, rest, hs⟩
  · rcases hp with hr | ⟨r, rs, hr⟩
    · exact .inl ⟨⟨hs, hr⟩, by simp [step, nextMove, hs, hr]⟩
    · exact .inr (.inl ⟨r, rs, hs, hr, step_start hs hr⟩)
  · by_cases he : noEarlyRequest s
    · rcases it with e | e | i
      · exact .inr (.inr (.inr (.inl ⟨e, rest, hs, he, step_call hs he⟩)))
      · exact .inr (.inr (.inr (.inr (.inl ⟨e, rest, hs, he, step_callThenReady hs he⟩))))
      · exact .inr (.inr (.inr (.inr (.inr ⟨i, rest, hs, he, by simp [step, nextMove_run hs he]⟩))))
    · simp only [noEarlyRequest, not_forall, Bool.not_eq_false] at he
      obtain ⟨r, rs, hr, he⟩ := he
      exact .inr (.inr (.inl ⟨it, rest, r, rs, hs, hr, he, step_overlap hs hr he⟩))

/-- The whole of starting a host call: it is refused, ends with an argument or descriptor error, or loads its
steps; nothing else of the state changes. -/
theorem startCall_cases (c : HostCall) (s : State) :
    (s.phase ≠ .ready ∧ c ≠ .initializeCall ∧ startCall c s = refuse s) ∨
    (c = .initializeCall ∧ descriptorInvalid s.pinNc s.cfg = true ∧ startCall c s = raiseConfigError s) ∨
    (c = .initializeCall ∧ descriptorInvalid s.pinNc s.cfg = false ∧ unusablePinSet s.pinNc s.cfg = true ∧
      startCall c s = refuse s) ∨
    (c = .initializeCall ∧ pinsUsable s.pinNc s.cfg ∧ startCall c s = beginCall (initializeItems s.pinNc s.cfg) s) ∨
    (∃ slot g, c = .createCustomChar slot g ∧ s.phase = .ready ∧ 7 < slot.toNat ∧
      startCall c s = raiseInvalidArgument s) ∨
    (∃ ws : List Instr, c ≠ .initializeCall ∧ s.phase = .ready ∧ (∀ w ∈ ws, steadyWord w = true) ∧
      startCall c s = beginCall (ws.map .word) s) := by
  by_cases hp : s.phase = .ready
  · cases c
    case initializeCall =>
      rcases hd : descriptorInvalid s.pinNc s.cfg with _ | _
      · rcases hu : unusablePinSet s.pinNc s.cfg with _ | _
        · exact .inr (.inr (.inr (.inl ⟨rfl, ⟨hd, hu⟩, by simp [startCall, callInitialize, hd, hu]⟩)))
        · exact .inr (.inr (.inl ⟨rfl, rfl, rfl, by simp [startCall, callInitialize, hd, hu]⟩))
      · exact .inr (.inl ⟨rfl, rfl, by simp [startCall, callInitialize, hd]⟩)
    case createCustomChar slot g =>
      by_cases h7 : 7 < slot.toNat
      · exact .inr (.inr (.inr (.inr (.inl ⟨slot, g, rfl, hp, h7, by
          simp [startCall, callCreateCustomChar, whenReady, hp, h7]⟩))))
      · refine .inr (.inr (.inr (.inr (.inr ⟨.createCustomCharCgramAddress (slot.setWidth 3) ::
          g.rows.map .createCustomCharGlyphRow, by simp, hp, by simp [steadyWord], ?_⟩))))
        simp [startCall, callCreateCustomChar, whenReady, hp, h7, customCharItems, Function.comp_def]
    case print text =>
      refine .inr (.inr (.inr (.inr (.inr ⟨text.map .print, by simp, hp, by simp [steadyWord], ?_⟩))))
      simp [startCall, callPrint, whenReady, hp, Function.comp_def]
    case clear => exact .inr (.inr (.inr (.inr (.inr ⟨[.clear], by simp, hp, by simp [steadyWord], by
      simp [startCall, callClear, whenReady, hp]⟩))))
    case home => exact .inr (.inr (.inr (.inr (.inr ⟨[.home], by simp, hp, by simp [steadyWord], by
      simp [startCall, callHome, whenReady, hp]⟩))))
    case setDisplayMode a b c => exact .inr (.inr (.inr (.inr (.inr ⟨[.setDisplayMode a b c], by simp, hp, by
      simp [steadyWord], by simp [startCall, callSetDisplayMode, whenReady, hp]⟩))))
    case scrollLeft => exact .inr (.inr (.inr (.inr (.inr ⟨[.scrollLeft], by simp, hp, by simp [steadyWord], by
      simp [startCall, callScrollLeft, whenReady, hp]⟩))))
    case scrollRight => exact .inr (.inr (.inr (.inr (.inr ⟨[.scrollRight], by simp, hp, by simp [steadyWord], by
      simp [startCall, callScrollRight, whenReady, hp]⟩))))
    case setTextDirection a b => exact .inr (.inr (.inr (.inr (.inr ⟨[.setTextDirection a b], by simp, hp, by
      simp [steadyWord], by simp [startCall, callSetTextDirection, whenReady, hp]⟩))))
    case setCursor col row => exact .inr (.inr (.inr (.inr (.inr
      ⟨[.setCursor ((ddramAddress s.cfg col row).setWidth 7)], by simp, hp, by simp [steadyWord], by
      simp [startCall, callSetCursor, whenReady, hp]⟩))))
    case writeChar b => exact .inr (.inr (.inr (.inr (.inr ⟨[.writeChar b], by simp, hp, by simp [steadyWord], by
      simp [startCall, callWriteChar, whenReady, hp]⟩))))
  · by_cases hc : c = .initializeCall
    · subst hc
      rcases hd : descriptorInvalid s.pinNc s.cfg with _ | _
      · rcases hu : unusablePinSet s.pinNc s.cfg with _ | _
        · exact .inr (.inr (.inr (.inl ⟨rfl, ⟨hd, hu⟩, by simp [startCall, callInitialize, hd, hu]⟩)))
        · exact .inr (.inr (.inl ⟨rfl, rfl, rfl, by simp [startCall, callInitialize, hd, hu]⟩))
      · exact .inr (.inl ⟨rfl, rfl, by simp [startCall, callInitialize, hd]⟩)
    · refine .inl ⟨hp, hc, ?_⟩
      cases c <;> simp_all [startCall, callClear, callHome, callSetDisplayMode, callScrollLeft, callScrollRight,
        callSetTextDirection, callCreateCustomChar, callSetCursor, callWriteChar, callPrint, whenReady]

end Sys2Proof.Machine
end

