-- ==== Sys2Proof/Laws/Run.lean ====
section
/-! SUPPORT. Runs of the sequencer: what an item stands for, one capability call for each step, and the items of a host
call run one after the other, to the end or to the first capability call that fails. -/

namespace Sys2Proof.Machine

/-! ### Items -/

/-- An item as the single calls it stands for. -/
def expandItem (d : Descriptor) : Item → List Item
  | .call e => [.call e]
  | .callThenReady e => [.callThenReady e]
  | .word i => wordItems d i

/-- Whether an item makes the phase `READY` when it is done. -/
def readies : Item → Bool
  | .callThenReady _ => true
  | .word .initializeEntryDefault => true
  | _ => false

/-- Whether an item runs in a state. -/
def itemRuns (it : Item) (s : State) : Prop := ∀ i, it = .word i → canRun i s

theorem usedPins_eq (nc : PinId) (d : Descriptor) : usedPins nc d = setupPinsRef nc d := by
  unfold usedPins setupPinsRef usedDataPins ndata
  cases d.bus8 <;> rfl

theorem setupPins_eq (nc : PinId) (d : Descriptor) : setupPins nc d = setupRef nc d := by
  simp [setupPins, setupRef, usedPins_eq]

theorem entryDefault_ref (d : Descriptor) :
    wordRef d .initializeEntryDefault = transmitFrame d 0x06 false ++ [.delay 1] :=
  (transmit_eq_txRef d 0x06 false).symm

/-- Every item but those that end in `READY` stands for plain calls. -/
theorem expandItem_of_not_readies {it : Item} (d : Descriptor) (h : readies it = false) :
    expandItem d it = (itemRef d it).map .call := by
  rcases it with e | e | i
  · rfl
  · simp [readies] at h
  · cases i <;> first | rfl | simp [readies] at h

/-- An item that ends in `READY` stands for plain calls and a last one. -/
theorem expandItem_of_readies {it : Item} (d : Descriptor) (h : readies it = true) :
    ∃ es e, itemRef d it = es ++ [e] ∧ expandItem d it = es.map .call ++ [.callThenReady e] := by
  rcases it with e | e | i
  · simp [readies] at h
  · exact ⟨[], e, rfl, rfl⟩
  · cases i <;> simp only [readies, Bool.false_eq_true] at h
    exact ⟨_, _, entryDefault_ref d, rfl⟩

theorem itemRef_ne_nil (d : Descriptor) (it : Item) : itemRef d it ≠ [] := by
  rcases it with e | e | i
  · simp [itemRef]
  · simp [itemRef]
  · exact wordRef_ne_nil d i

/-- Where the events of an item are split, its calls are split. -/
theorem expandItem_split {d : Descriptor} {it : Item} {before after : List Event} {e : Event}
    (h : itemRef d it = before ++ e :: after) :
    ∃ x more, (x = .call e ∨ x = .callThenReady e) ∧ expandItem d it = before.map .call ++ x :: more := by
  rcases hr : readies it with _ | _
  · exact ⟨.call e, after.map .call, .inl rfl, by rw [expandItem_of_not_readies d hr, h]; simp⟩
  · obtain ⟨es, l, h1, h2⟩ := expandItem_of_readies d hr
    rw [h1] at h
    rcases List.eq_nil_or_concat after with rfl | ⟨init, z, rfl⟩
    · obtain ⟨rfl, h4⟩ := List.append_inj' h rfl
      simp only [List.cons.injEq, and_true] at h4
      exact ⟨.callThenReady e, [], .inr rfl, by rw [h2, h4]⟩
    · have h' : es ++ [l] = (before ++ e :: init) ++ [z] := by simpa using h
      obtain ⟨rfl, _⟩ := List.append_inj' h' rfl
      exact ⟨.call e, init.map .call ++ [.callThenReady l], .inl rfl, by rw [h2]; simp⟩

/-! ### Plans -/

@[simp] theorem plan_nil (d : Descriptor) : plan d [] = [] := rfl

@[simp] theorem plan_cons (d : Descriptor) (it : Item) (its : List Item) :
    plan d (it :: its) = itemRef d it ++ plan d its := rfl

@[simp] theorem plan_append (d : Descriptor) (xs ys : List Item) : plan d (xs ++ ys) = plan d xs ++ plan d ys := by
  simp [plan]

@[simp] theorem plan_calls (d : Descriptor) (es : List Event) : plan d (es.map .call) = es := by
  induction es with
  | nil => rfl
  | cons e es ih => simp [ih, itemRef]

theorem plan_expandItem (d : Descriptor) (it : Item) : plan d (expandItem d it) = itemRef d it := by
  rcases hr : readies it with _ | _
  · rw [expandItem_of_not_readies d hr, plan_calls]
  · obtain ⟨es, e, h1, h2⟩ := expandItem_of_readies d hr
    rw [h1, h2, plan_append, plan_calls]
    rfl

/-! ### One call -/

/-- The state after one call of the sequencer, answered `ok` or `fail`: its answer decides. -/
def afterCall (ready : Bool) (e : Event) (q : List Item) (s : State) : State :=
  match answerAt s s.trace.length with
  | .ok => { s with
      trace := s.trace ++ [(e, .ok)]
      far := s.far.observe s.pinNc s.cfg s.trace.length e .ok
      seq := q
      phase := if ready then .ready else s.phase
      outcomes := if q = [] then s.outcomes ++ [.ok] else s.outcomes }
  | .fail => { s with
      trace := s.trace ++ [(e, .fail)]
      far := s.far.observe s.pinNc s.cfg s.trace.length e .fail
      seq := []
      phase := .desync
      outcomes := s.outcomes ++ [.ioError] }

theorem issueThen_eq_afterCall (after : State → State) (ready : Bool)
    (h : ∀ t : State, after t = { t with phase := if ready then .ready else t.phase }) (e : Event) (q : List Item)
    (s : State) : issueThen after e { s with seq := q } = afterCall ready e q s := by
  rcases h0 : answerAt s s.trace.length with _ | _
  · have h1 : answerAt { s with seq := q } s.trace.length = .ok := h0
    simp only [issueThen, afterCall, h0, h1, h]
    by_cases hq : q = [] <;> simp [finishItem, endCall, record, hq]
  · have h1 : answerAt { s with seq := q } s.trace.length = .fail := h0
    simp only [issueThen, afterCall, h0, h1]
    rfl

theorem issue_eq_afterCall (e : Event) (q : List Item) (s : State) :
    issue e { s with seq := q } = afterCall false e q s :=
  issueThen_eq_afterCall id false (fun _ => rfl) e q s

theorem issueThenReady_eq_afterCall (e : Event) (q : List Item) (s : State) :
    issueThenReady e { s with seq := q } = afterCall true e q s :=
  issueThen_eq_afterCall _ true (fun _ => rfl) e q s

/-! ### Runs -/

@[simp] theorem run_zero (s : State) : run 0 s = .next s := rfl

theorem core_run_succ (M : Host.Core) (n : Nat) (s t : M.State) (h : M.step s = .next t) :
    M.run (n + 1) s = M.run n t := by
  simp [Host.Core.run, h]

theorem run_succ {s t : State} {n : Nat} (h : step s = .next t) : run (n + 1) s = run n t :=
  core_run_succ core n s t h

theorem core_run_add (M : Host.Core) (m n : Nat) (s t : M.State) (h : M.run m s = .next t) :
    M.run (m + n) s = M.run n t := by
  induction m generalizing s with
  | zero => cases h; rw [Nat.zero_add]
  | succ m ih =>
    rw [Nat.add_right_comm]
    simp only [Host.Core.run] at h ⊢
    cases hs : M.step s <;> simp only [hs, reduceCtorEq] at h ⊢
    exact ih _ h

theorem run_add {s t : State} {m n : Nat} (h : run m s = .next t) : run (m + n) s = run n t :=
  core_run_add core m n s t h

theorem run_one {s t : State} (h : step s = .next t) : run 1 s = .next t := by rw [run_succ h, run_zero]

/-- Two states with the same next step have the same runs. -/
theorem run_congr {s s' t : State} {n : Nat} (h : step s = .next t) (h' : step s' = .next t) :
    run (n + 1) s = run (n + 1) s' := by rw [run_succ h, run_succ h']

/-- A step with an item at hand makes the first of the calls it stands for. -/
theorem step_item {s : State} {it : Item} {rest : List Item} (hs : s.seq = it :: rest) (he : noEarlyRequest s)
    (hr : itemRuns it s) :
    ∃ x q e, expandItem s.cfg it ++ rest = x :: q ∧
      (x = .call e ∧ step s = .next (issue e { s with seq := q }) ∨
        x = .callThenReady e ∧ step s = .next (issueThenReady e { s with seq := q })) := by
  rcases it with e | e | i
  · exact ⟨_, rest, e, rfl, .inl ⟨rfl, step_call hs he⟩⟩
  · exact ⟨_, rest, e, rfl, .inr ⟨rfl, step_callThenReady hs he⟩⟩
  · obtain ⟨e, es, hes⟩ := List.exists_cons_of_ne_nil (wordRef_ne_nil s.cfg i)
    have hx : ∃ more, wordItems s.cfg i = .call e :: more := by
      by_cases hi : i = .initializeEntryDefault
      · subst hi
        obtain ⟨f, fs, hfs⟩ := List.exists_cons_of_ne_nil (transmitFrame_ne_nil s.cfg 0x06 false)
        rw [entryDefault_ref, hfs] at hes
        simp only [List.cons_append, List.cons.injEq] at hes
        refine ⟨fs.map .call ++ [.callThenReady (.delay 1)], ?_⟩
        simp only [wordItems, hfs, hes.1, List.map_cons, List.cons_append]
      · refine ⟨es.map .call, ?_⟩
        have := expandItem_of_not_readies (it := .word i) s.cfg (by cases i <;> first | rfl | exact absurd rfl hi)
        simpa [expandItem, itemRef, hes] using this
    obtain ⟨more, hm⟩ := hx
    have h := step_word_eq hs he (hr i rfl)
    rw [hm] at h
    exact ⟨.call e, more ++ rest, e, by simp [expandItem, hm], .inl ⟨rfl, h⟩⟩

/-- An item at hand runs as the calls it stands for. -/
theorem run_expandItem {s : State} {it : Item} {rest : List Item} {n : Nat} (hs : s.seq = it :: rest)
    (he : noEarlyRequest s) (hr : itemRuns it s) :
    run (n + 1) s = run (n + 1) { s with seq := expandItem s.cfg it ++ rest } := by
  obtain ⟨x, q, e, hx, ⟨rfl, h⟩ | ⟨rfl, h⟩⟩ := step_item hs he hr
  · exact run_congr h (step_call (s := { s with seq := expandItem s.cfg it ++ rest }) hx he)
  · exact run_congr h (step_callThenReady (s := { s with seq := expandItem s.cfg it ++ rest }) hx he)

/-- Calls at hand, all answered `ok`, with something of the host call after them. -/
theorem run_calls {s : State} {es : List Event} {rest : List Item} (hs : s.seq = es.map .call ++ rest)
    (hrest : rest ≠ []) (he : noEarlyRequest s) (ha : AllOk s es.length) :
    run es.length s = .next { recordAll es s with seq := rest } := by
  induction es generalizing s with
  | nil =>
    have : s.seq = rest := hs
    subst this
    rfl
  | cons e es ih =>
    have hstep := step_call (e := e) (rest := es.map .call ++ rest) hs he
    have h0 : answerAt { s with seq := es.map .call ++ rest } s.trace.length = .ok := AllOk.head ha
    rw [issue_of_ok h0, finishItem_of_ne (by simp [hrest])] at hstep
    rw [List.length_cons, run_succ hstep, ih (s := record e .ok { s with seq := es.map .call ++ rest }) rfl he
      (AllOk.tail (s := { s with seq := es.map .call ++ rest }) ha)]
    congr 1
    rw [recordAll_cons, recordAll_eq, recordAll_eq es (record e .ok s)]
    rfl

/-- Calls at hand, all answered `ok`. -/
theorem run_calls_finish {s : State} {es : List Event} {rest : List Item} (hs : s.seq = es.map .call ++ rest)
    (hne : es ≠ []) (he : noEarlyRequest s) (ha : AllOk s es.length) :
    run es.length s = .next (finishItem { recordAll es s with seq := rest }) := by
  rcases List.eq_nil_or_concat es with rfl | ⟨init, e, rfl⟩
  · exact absurd rfl hne
  · simp only [List.concat_eq_append] at *
    have h1 := run_calls (es := init) (rest := .call e :: rest) (by simpa using hs) (by simp) he
      (AllOk.mono ha (by simp))
    have h2 := step_call (s := { recordAll init s with seq := .call e :: rest }) (e := e) (rest := rest) rfl
      (by rw [recordAll_eq]; exact he)
    have h0 : answerAt { recordAll init s with seq := rest } (recordAll init s).trace.length = .ok := by
      have := ha init.length (by simp)
      rw [recordAll_eq]
      simpa [answerAt, succeeded] using this
    rw [issue_of_ok (s := { recordAll init s with seq := rest }) h0] at h2
    rw [List.length_append, List.length_singleton, run_add h1, run_one h2]
    congr 2
    rw [recordAll_append]
    rfl

/-- The calls at hand up to the one that fails. -/
theorem run_calls_fail {s : State} {before : List Event} {e : Event} {x : Item} {rest : List Item}
    (hs : s.seq = before.map .call ++ x :: rest) (hx : x = .call e ∨ x = .callThenReady e) (he : noEarlyRequest s)
    (ha : AllOk s before.length) (hf : answerAt s (s.trace.length + before.length) = .fail) :
    run (before.length + 1) s = .next (failedAt before e s) := by
  have h1 := run_calls hs (by simp) he ha
  have he' : noEarlyRequest { recordAll before s with seq := x :: rest } := by rw [recordAll_eq]; exact he
  have h0 : answerAt { recordAll before s with seq := rest } (recordAll before s).trace.length = .fail := by
    rw [recordAll_eq]
    simpa [answerAt, succeeded] using hf
  have key : ∀ after, issueThen after e { recordAll before s with seq := rest } = failedAt before e s := by
    intro after
    rw [issueThen_of_fail (s := { recordAll before s with seq := rest }) h0]
    rfl
  rw [run_add h1]
  rcases hx with rfl | rfl
  · exact run_one ((step_call rfl he').trans (congrArg _ (key _)))
  · exact run_one ((step_callThenReady rfl he').trans (congrArg _ (key _)))

/-- The state after the first item of a call ran with every call answered `ok`. -/
def ranItem (it : Item) (rest : List Item) (s : State) : State :=
  { s with
    trace := s.trace ++ succeeded (itemRef s.cfg it)
    far := observeAll s.pinNc s.cfg s.trace.length (itemRef s.cfg it) s.far
    seq := rest
    phase := if readies it then .ready else s.phase
    outcomes := if rest = [] then s.outcomes ++ [.ok] else s.outcomes }

/-- The first item of a call, run to its end: one step for each capability call. -/
theorem run_item {s : State} {it : Item} {rest : List Item} (hs : s.seq = it :: rest) (he : noEarlyRequest s)
    (hr : itemRuns it s) (ha : AllOk s (itemRef s.cfg it).length) :
    run (itemRef s.cfg it).length s = .next (ranItem it rest s) := by
  obtain ⟨n, hn⟩ : ∃ n, (itemRef s.cfg it).length = n + 1 :=
    Nat.exists_eq_succ_of_ne_zero (by simpa using itemRef_ne_nil s.cfg it)
  rw [hn, run_expandItem hs he hr, ← hn]
  rcases hd : readies it with _ | _
  · rw [run_calls_finish (s := { s with seq := expandItem s.cfg it ++ rest }) (rest := rest)
      (by rw [expandItem_of_not_readies _ hd]) (itemRef_ne_nil _ _) he ha]
    rw [recordAll_eq]
    by_cases h : rest = [] <;> simp [finishItem, endCall, ranItem, h, hd]
  · obtain ⟨es, e, h1, h2⟩ := expandItem_of_readies s.cfg hd
    rw [h1] at ha ⊢
    have h3 := run_calls (s := { s with seq := expandItem s.cfg it ++ rest }) (es := es)
      (rest := .callThenReady e :: rest) (by rw [h2]; simp) (by simp) he (AllOk.mono ha (by simp))
    rw [recordAll_eq] at h3
    have h4 := step_callThenReady (s := { s with
      trace := s.trace ++ succeeded es
      far := observeAll s.pinNc s.cfg s.trace.length es s.far
      seq := .callThenReady e :: rest }) rfl he
    rw [issueThenReady_eq_afterCall] at h4
    have h0 : answerAt { s with
        trace := s.trace ++ succeeded es
        far := observeAll s.pinNc s.cfg s.trace.length es s.far
        seq := .callThenReady e :: rest } (s.trace ++ succeeded es).length = .ok := by
      simpa [answerAt, succeeded] using ha es.length (by simp)
    simp only [afterCall, h0] at h4
    rw [List.length_append, List.length_singleton, run_add h3, run_one h4]
    simp [ranItem, h1, hd, observeAll_append, observeAll, succeeded]

/-- The first item of a call, run up to its first capability call that fails. -/
theorem run_item_fail {s : State} {it : Item} {rest : List Item} {before after : List Event} {e : Event}
    (hs : s.seq = it :: rest) (he : noEarlyRequest s) (hr : itemRuns it s)
    (hes : itemRef s.cfg it = before ++ e :: after) (ha : AllOk s before.length)
    (hf : answerAt s (s.trace.length + before.length) = .fail) :
    run (before.length + 1) s = .next (failedAt before e s) := by
  obtain ⟨x, more, hx, hm⟩ := expandItem_split hes
  rw [run_expandItem hs he hr]
  have := run_calls_fail (s := { s with seq := expandItem s.cfg it ++ rest }) (rest := more ++ rest)
    (by rw [hm]; simp) hx he ha hf
  rwa [failedAt_seq] at this

/-- Every item of the rest runs after the first one as it did before. -/
theorem itemRuns_ranItem {it jt : Item} {rest : List Item} {s : State} (h : itemRuns jt s) :
    itemRuns jt (ranItem it rest s) := by
  intro i hi
  refine ⟨(h i hi).1, fun hs => ?_⟩
  have := (h i hi).2 hs
  simp [ranItem, this]

/-- The state after a list of items ran with every call answered `ok`: the phase is `READY` if one of them makes it so, and
the call has returned `Ok`. -/
def ranItems (its : List Item) (s : State) : State :=
  { s with
    trace := s.trace ++ succeeded (plan s.cfg its)
    far := observeAll s.pinNc s.cfg s.trace.length (plan s.cfg its) s.far
    seq := []
    phase := if its.any readies then .ready else s.phase
    outcomes := s.outcomes ++ [.ok] }

/-- The items of a call, run to the end: one step for each capability call. -/
theorem run_items {its : List Item} {s : State} (hne : its ≠ []) (hs : s.seq = its) (he : noEarlyRequest s)
    (hr : ∀ it ∈ its, itemRuns it s) (ha : AllOk s (plan s.cfg its).length) :
    run (plan s.cfg its).length s = .next (ranItems its s) := by
  induction its generalizing s with
  | nil => exact absurd rfl hne
  | cons it rest ih =>
    rw [plan_cons, List.length_append] at ha ⊢
    have h1 := run_item hs he (hr it (by simp)) (AllOk.mono ha (Nat.le_add_right _ _))
    rw [run_add h1]
    by_cases hrest : rest = []
    · subst hrest
      simp [ranItem, ranItems]
    · have h2 := ih (s := ranItem it rest s) hrest rfl he (fun jt hj => itemRuns_ranItem (hr jt (by simp [hj])))
        (AllOk.drop (s := s) ha rfl (by simp [ranItem, succeeded]))
      refine h2.trans ?_
      congr 1
      simp only [ranItems, ranItem, hrest, if_false, plan_cons, succeeded, List.map_append, observeAll_append,
        List.append_assoc, List.length_append, List.length_map, List.any_cons, State.mk.injEq, and_true, true_and]
      by_cases h1 : readies it = true <;> by_cases h2 : rest.any readies = true <;> simp [h1, h2]

/-- The items of a call up to the first capability call that fails. -/
theorem run_items_fail {its : List Item} {s : State} {before after : List Event} {e : Event} (hs : s.seq = its)
    (he : noEarlyRequest s) (hr : ∀ it ∈ its, itemRuns it s) (hes : plan s.cfg its = before ++ e :: after)
    (ha : AllOk s before.length) (hf : answerAt s (s.trace.length + before.length) = .fail) :
    run (before.length + 1) s = .next (failedAt before e s) := by
  induction its generalizing s before with
  | nil => simp at hes
  | cons it rest ih =>
    rw [plan_cons] at hes
    rcases List.append_eq_append_iff.1 hes with ⟨p, rfl, hp⟩ | ⟨c, hc, hp⟩
    · -- all of this item succeeds: the failing call is a later one
      rw [List.length_append] at ha
      have h1 := run_item hs he (hr it (by simp)) (AllOk.mono ha (Nat.le_add_right _ _))
      have hrest : rest ≠ [] := by rintro rfl; simp at hp
      have h2 := ih (s := ranItem it rest s) (before := p) rfl he
        (fun jt hj => itemRuns_ranItem (hr jt (by simp [hj]))) hp
        (AllOk.drop (s := s) ha rfl (by simp [ranItem, succeeded]))
        (by simpa [answerAt, ranItem, succeeded, Nat.add_assoc] using hf)
      rw [List.length_append, Nat.add_assoc, run_add h1, h2]
      congr 1
      simp [failedAt, recordAll_eq, raiseIoError, endCall, record, ranItem, hrest, succeeded, observeAll_append,
        List.append_assoc]
    · rcases c with _ | ⟨c, cs⟩
      · -- the failing call is the first after this item
        simp only [List.append_nil] at hc
        subst hc
        have h1 := run_item hs he (hr it (by simp)) ha
        have hrest : rest ≠ [] := by rintro rfl; simp at hp
        have h2 := ih (s := ranItem it rest s) (before := []) rfl he
          (fun jt hj => itemRuns_ranItem (hr jt (by simp [hj]))) hp.symm (allOk_zero _)
          (by simpa [answerAt, ranItem, succeeded, Nat.add_assoc] using hf)
        rw [run_add h1]
        refine h2.trans ?_
        congr 1
        simp [failedAt, recordAll_eq, raiseIoError, endCall, record, ranItem, hrest, succeeded, List.append_assoc,
          observeAll]
      · -- the failing call is of this item
        simp only [List.cons_append, List.cons.injEq] at hp
        obtain ⟨rfl, _⟩ := hp
        exact run_item_fail hs he (hr it (by simp)) hc ha hf

/-! ### A word, from its meaning on -/

/-- A word's first call and the steps after it are a run from the word at hand. -/
theorem run_of_exec {i : Instr} {s u : State} {n : Nat} (he : noEarlyRequest s) (hu : exec i s = .next u) :
    run n u = run (n + 1) { s with seq := .word i :: s.seq } := by
  have hstep : step { s with seq := .word i :: s.seq } = .next u := by
    rw [← hu]
    simp only [step, nextMove_run (s := { s with seq := .word i :: s.seq }) rfl he]
  rw [run_succ hstep]

/-- A word that runs and meets no failure. -/
theorem exec_run {i : Instr} {s : State} (hc : canRun i s) (he : noEarlyRequest s)
    (ha : AllOk s (wordRef s.cfg i).length) :
    ∃ u, exec i s = .next u ∧
      run ((wordRef s.cfg i).length - 1) u = .next (ranItem (.word i) s.seq { s with seq := .word i :: s.seq }) := by
  refine ⟨_, exec_of_canRun hc, ?_⟩
  obtain ⟨n, hn⟩ : ∃ n, (wordRef s.cfg i).length = n + 1 :=
    Nat.exists_eq_succ_of_ne_zero (by simpa using wordRef_ne_nil s.cfg i)
  rw [run_of_exec he (exec_of_canRun hc), hn, Nat.add_sub_cancel, ← hn]
  exact run_item (s := { s with seq := .word i :: s.seq }) rfl he (by intro j hj; cases hj; exact hc) ha

/-- A word that runs up to its first capability call that fails. -/
theorem exec_run_fail {i : Instr} {s : State} {before after : List Event} {e : Event} (hc : canRun i s)
    (he : noEarlyRequest s) (hes : wordRef s.cfg i = before ++ e :: after) (ha : AllOk s before.length)
    (hf : answerAt s (s.trace.length + before.length) = .fail) :
    ∃ u, exec i s = .next u ∧ run before.length u = .next (failedAt before e s) := by
  refine ⟨_, exec_of_canRun hc, ?_⟩
  rw [run_of_exec he (exec_of_canRun hc)]
  have := run_item_fail (s := { s with seq := .word i :: s.seq }) rfl he (by intro j hj; cases hj; exact hc) hes ha hf
  rwa [failedAt_seq] at this

/-! ### Everything a step can do -/

/-- A step that issues no capability call. -/
def Silent (s t : State) : Prop :=
  t.trace = s.trace ∧ t.far = s.far ∧ t.phase = s.phase ∧ t.cfg = s.cfg ∧ t.pinNc = s.pinNc ∧ t.answers = s.answers

theorem startCall_silent (c : HostCall) (s : State) : Silent s (startCall c s) := by
  rcases startCall_cases c s with ⟨_, _, h⟩ | ⟨_, _, h⟩ | ⟨_, _, _, h⟩ | ⟨_, _, h⟩ | ⟨_, _, _, _, _, h⟩ | ⟨_, _, _, _, h⟩ <;>
    rw [h] <;> simp [Silent, beginCall]

/-- A step that answers a next state issues no call, or makes the first call of the sequencer's next item. -/
theorem step_next_cases {s t : State} (h : step s = .next t) :
    Silent s t ∨ ∃ it rest x q e ready, s.seq = it :: rest ∧ noEarlyRequest s ∧ itemRuns it s ∧
      expandItem s.cfg it ++ rest = x :: q ∧ x = (if ready then .callThenReady e else .call e) ∧
      t = afterCall ready e q s := by
  have hitem : ∀ {it rest}, s.seq = it :: rest → noEarlyRequest s → itemRuns it s →
      ∃ it rest x q e ready, s.seq = it :: rest ∧ noEarlyRequest s ∧ itemRuns it s ∧
        expandItem s.cfg it ++ rest = x :: q ∧ x = (if ready then .callThenReady e else .call e) ∧
        t = afterCall ready e q s := by
    intro it rest hs he hr
    obtain ⟨x, q, e, hx, ⟨hc, h1⟩ | ⟨hc, h1⟩⟩ := step_item hs he hr
    · rw [h1] at h; cases h
      exact ⟨it, rest, x, q, e, false, hs, he, hr, hx, hc, issue_eq_afterCall e q s⟩
    · rw [h1] at h; cases h
      exact ⟨it, rest, x, q, e, true, hs, he, hr, hx, hc, issueThenReady_eq_afterCall e q s⟩
  rcases step_cases s with ⟨_, h1⟩ | ⟨r, rs, _, _, h1⟩ | ⟨_, _, _, _, _, _, _, h1⟩ | ⟨_, rest, hs, he, _⟩ |
    ⟨_, rest, hs, he, _⟩ | ⟨i, rest, hs, he, h1⟩
  · rw [h1] at h; cases h; left; simp [Silent]
  · rw [h1] at h; cases h; left; exact startCall_silent r.call { s with requests := rs }
  · rw [h1] at h; cases h; left; simp [Silent]
  · exact .inr (hitem hs he (by intro i hi; cases hi))
  · exact .inr (hitem hs he (by intro i hi; cases hi))
  · rcases exec_cases i { s with seq := rest } with ⟨hc, _⟩ | ⟨_, _, h2⟩ | ⟨_, _, _, h2⟩
    · exact .inr (hitem hs he (by intro j hj; cases hj; exact hc))
    · left; rw [h1, h2] at h; cases h; simp [Silent]
    · rw [h1, h2] at h; cases h

/-- The calls left after a step are those left before it, less the first. -/
theorem plan_after {s : State} {it x : Item} {rest q : List Item} {e : Event} {ready : Bool} (hs : s.seq = it :: rest)
    (hx : expandItem s.cfg it ++ rest = x :: q) (he : x = (if ready then .callThenReady e else .call e)) :
    plan s.cfg s.seq = e :: plan s.cfg q := by
  have h1 : plan s.cfg s.seq = plan s.cfg (x :: q) := by
    rw [← hx, hs, plan_append, plan_expandItem, plan_cons]
  rw [h1, he]
  cases ready <;> rfl

/-! ### The items of a host call -/

/-- The sequencer steps of an accepted host call. -/
def callItems (nc : PinId) (d : Descriptor) : HostCall → List Item
  | .initializeCall => initializeItems nc d
  | .clear => [.word .clear]
  | .home => [.word .home]
  | .setDisplayMode on cursor blink => [.word (.setDisplayMode on cursor blink)]
  | .scrollLeft => [.word .scrollLeft]
  | .scrollRight => [.word .scrollRight]
  | .setTextDirection ltr autoscroll => [.word (.setTextDirection ltr autoscroll)]
  | .createCustomChar slot glyph => customCharItems slot glyph
  | .setCursor col row => [.word (.setCursor ((ddramAddress d col row).setWidth 7))]
  | .writeChar b => [.word (.writeChar b)]
  | .print text => text.map fun t => .word (.print t)

theorem startCall_of_accepted {c : HostCall} {s : State} (h : accepted c s) :
    startCall c s = beginCall (callItems s.pinNc s.cfg c) s := by
  cases c <;> simp only [accepted] at h
  case initializeCall => obtain ⟨h1, h2⟩ := h; simp [startCall, callInitialize, callItems, h1, h2]
  case createCustomChar slot g =>
    simp [startCall, callCreateCustomChar, whenReady, callItems, h.1, Nat.not_lt.mpr h.2]
  all_goals simp [startCall, callClear, callHome, callSetDisplayMode, callScrollLeft, callScrollRight,
    callSetTextDirection, callSetCursor, callWriteChar, callPrint, whenReady, callItems, h]

/-- Every item of an accepted call runs. -/
theorem callItems_run {c : HostCall} {s : State} (h : accepted c s) : ∀ it ∈ callItems s.pinNc s.cfg c, itemRuns it s := by
  intro it hit i hi
  subst hi
  cases c <;> simp only [accepted] at h
  case initializeCall =>
    cases hb : s.cfg.bus8 <;>
      simp [callItems, initializeItems, lockingItems, hb, functionSetWord] at hit <;>
      rcases hit with rfl | rfl | rfl | rfl | rfl <;> simp [canRun, busWidthOf, steadyWord, hb]
  case createCustomChar slot g =>
    simp only [callItems, customCharItems, List.mem_cons, Item.word.injEq, List.mem_map] at hit
    rcases hit with rfl | ⟨r, _, rfl⟩ <;> simp [canRun, busWidthOf, h.1]
  case print text =>
    simp only [callItems, List.mem_map, Item.word.injEq] at hit
    obtain ⟨t, _, rfl⟩ := hit
    simp [canRun, busWidthOf, h]
  all_goals
    simp only [callItems, List.mem_singleton, Item.word.injEq] at hit
    subst hit
    simp [canRun, busWidthOf, h]

/-! ### The items of a call issue its reference trace -/

theorem functionSet_eq_fsRef (d : Descriptor) :
    (0x20 + (if d.bus8 then 0x10 else 0) + (if twoLines d then 0x08 else 0) + (if d.largeFont then 0x04 else 0) : Byte) =
      fsRef d := by
  simp [fsRef, twoLines]

theorem clampRow_eq_rowRef (d : Descriptor) (row : Byte) : clampRow d.lineCount row = rowRef d row := by
  unfold clampRow rowRef clampToThree
  split <;> split <;> omega

theorem setCursor_byte (a : Byte) : (0x80 + (a.setWidth 7).setWidth 8 : Byte) = 0x80 ||| a := by
  revert a; decide

theorem cgram_byte (slot : Byte) (h : slot.toNat ≤ 7) :
    (0x40 + 8 * (slot.setWidth 3).setWidth 8 : Byte) = 0x40 + 8 * slot := by
  revert slot; decide

/-- The events of an accepted call's items are its reference trace. -/
theorem callItems_ref {c : HostCall} {s : State} (h : accepted c s) :
    plan s.cfg (callItems s.pinNc s.cfg c) = callRef s.pinNc s.cfg c := by
  cases c <;> simp only [accepted] at h
  case initializeCall =>
    cases hb : s.cfg.bus8 <;>
      simp [callItems, initializeItems, lockingItems, hb, functionSetWord, itemRef, wordRef, callRef, initializeRef,
        setupPins_eq, rawRef, tPower, tInit1, tInit2] <;>
      simp [← functionSet_eq_fsRef, hb]
  case createCustomChar slot g =>
    simp [callItems, customCharItems, Glyph.rows, itemRef, wordRef, callRef]
    exact congrArg _ (cgram_byte slot h.2)
  case print text => simp [callItems, plan, List.flatMap_map, itemRef, wordRef, callRef]
  case setCursor col row =>
    simp [callItems, itemRef, wordRef, callRef, ddramAddress, clampRow_eq_rowRef]
    exact congrArg _ (setCursor_byte _)
  all_goals simp [callItems, itemRef, wordRef, callRef]

/-! ### Numbers of calls and times of the reference traces -/

/-- The least time of a list of calls that all answered `ok`. -/
def okMs (es : List Event) : Nat := traceMs (succeeded es)

@[simp] theorem okMs_nil : okMs [] = 0 := rfl

@[simp] theorem okMs_delay (ms : Nat) (es : List Event) : okMs (.delay ms :: es) = ms + okMs es := by
  simp [okMs, traceMs, succeeded, callMsOf]

@[simp] theorem okMs_setLevel (p : PinId) (v : Level) (es : List Event) : okMs (.setLevel p v :: es) = okMs es := by
  simp [okMs, traceMs, succeeded, callMsOf]

@[simp] theorem okMs_setDir (p : PinId) (es : List Event) : okMs (.setDir p :: es) = okMs es := by
  simp [okMs, traceMs, succeeded, callMsOf]

@[simp] theorem okMs_append (xs ys : List Event) : okMs (xs ++ ys) = okMs xs + okMs ys := by
  simp [okMs, traceMs, succeeded]

@[simp] theorem okMs_txRef (d : Descriptor) (rs : Level) (v : Byte) : okMs (txRef d rs v) = txMs d := by
  unfold txRef txMs; split <;> simp [byteRef, nibbleRef, pulseRef]

/-- The reference trace of a call has the calls and the time of the spec's tables. -/
theorem callRef_cost (nc : PinId) (d : Descriptor) (c : HostCall) :
    (callRef nc d c).length = callCalls nc d c ∧ okMs (callRef nc d c) = callMs d c := by
  cases c
  case initializeCall =>
    cases hb : d.bus8 <;> by_cases hw : d.rwPin = nc <;>
      simp [callRef, initializeRef, setupRef, setupPinsRef, hb, hw, txRef_length, txCount, callCalls, callMs, rawRef,
        nibbleRef, pulseRef, txMs]
  case print text =>
    induction text with
    | nil => simp [callRef, callCalls, callMs]
    | cons t ts ih =>
      simp only [callRef, callCalls, callMs, List.flatMap_cons, List.length_append, okMs_append, txRef_length,
        okMs_txRef, List.length_cons, Nat.succ_mul] at ih ⊢
      omega
  all_goals cases hb : d.bus8 <;> simp [callRef, callCalls, callMs, txRef_length, txCount, txMs, hb]

end Sys2Proof.Machine
end

