-- ==== Sys2Proof/Laws/Receiver.lean ====
section
/-! SUPPORT. What the far end sees of the frames: the strobes a transmit makes and what the receiver delivers. -/

namespace Sys2Proof.Machine

/-! ### Distinct pins -/

/-- The pins a frame writes are distinct from the enable pin and from each other, and RW from all of them. -/
structure FramePins (nc : PinId) (d : Descriptor) : Prop where
  rs_en : d.rsPin ≠ d.enPin
  data_en : ∀ j < ndata d, dataPin d.dataPins j ≠ d.enPin
  data_rs : ∀ j < ndata d, dataPin d.dataPins j ≠ d.rsPin
  data_nodup : (usedDataPins d).Nodup
  rw : d.rwPin ≠ nc → d.rwPin ≠ d.rsPin ∧ d.rwPin ≠ d.enPin ∧ ∀ j < ndata d, dataPin d.dataPins j ≠ d.rwPin

theorem allDistinct_iff_nodup (ps : List PinId) : allDistinct ps = true ↔ ps.Nodup := by
  induction ps with
  | nil => simp [allDistinct]
  | cons p ps ih => simp [allDistinct, ih]

theorem framePins_of_usable {nc : PinId} {d : Descriptor} (h : pinsUsable nc d) : FramePins nc d := by
  have hu := h.2
  simp only [unusablePinSet, Bool.or_eq_false_iff, Bool.not_eq_false', allDistinct_iff_nodup] at hu
  have hn := hu.1
  have hdata : (usedDataPins d).Nodup := by
    refine hn.sublist ?_
    simp only [usedPins]
    exact List.sublist_append_right _ _
  refine ⟨?_, ?_, ?_, hdata, ?_⟩
  · intro he
    simp [usedPins, he] at hn
  · intro j hj he
    have : d.enPin ∈ usedDataPins d := by
      rw [← he]; exact List.mem_map.2 ⟨j, by simpa using hj, rfl⟩
    simp [usedPins, this, List.nodup_append] at hn
  · intro j hj he
    have : d.rsPin ∈ usedDataPins d := by
      rw [← he]; exact List.mem_map.2 ⟨j, by simpa using hj, rfl⟩
    simp [usedPins, this] at hn
  · intro hw
    refine ⟨?_, ?_, ?_⟩
    · intro he
      simp [usedPins, hw, ← he] at hn
    · intro he
      simp [usedPins, hw, ← he] at hn
    · intro j hj he
      have : d.rwPin ∈ usedDataPins d := by
        rw [← he]; exact List.mem_map.2 ⟨j, by simpa using hj, rfl⟩
      simp [usedPins, hw, this] at hn

/-! ### One event -/

@[simp] theorem observe_delay (nc : PinId) (d : Descriptor) (k ms : Nat) (a : Answer) (f : FarEnd) :
    f.observe nc d k (.delay ms) a = f := by
  cases a <;> rfl

@[simp] theorem observe_setDir_ok (nc : PinId) (d : Descriptor) (k : Nat) (p : PinId) (f : FarEnd) :
    f.observe nc d k (.setDir p) .ok = f := rfl

/-- Writing a pin that is not the enable pin only moves its lines. -/
theorem observe_setLevel_of_ne {nc : PinId} {d : Descriptor} {k : Nat} {p : PinId} {v : Level} {f : FarEnd}
    (h : p ≠ d.enPin) :
    f.observe nc d k (.setLevel p v) .ok = { f with lines := driveLines d p (some v) f.lines } := by
  simp [FarEnd.observe, FarEnd.writePin, h, levelAfter]

/-- Writing the enable pin while it is low makes no strobe. -/
theorem observe_en_of_low {nc : PinId} {d : Descriptor} {k : Nat} {v : Level} {f : FarEnd}
    (h : f.lines.en = some false) :
    f.observe nc d k (.setLevel d.enPin v) .ok = { f with lines := driveLines d d.enPin (some v) f.lines } := by
  simp [FarEnd.observe, FarEnd.writePin, h, enableFalls, levelAfter]

/-- Driving the enable pin low while it is high is a strobe. -/
theorem observe_en_fall {nc : PinId} {d : Descriptor} {k : Nat} {f : FarEnd} (h : f.lines.en = some true) :
    f.observe nc d k (.setLevel d.enPin false) .ok =
      { f.strobe nc d k with lines := driveLines d d.enPin (some false) f.lines } := by
  simp [FarEnd.observe, FarEnd.writePin, h, enableFalls, levelAfter, FarEnd.strobe]

theorem lineAfter_self (p : PinId) (o old : Option Level) : lineAfter p p o old = o := by simp [lineAfter]

theorem lineAfter_of_ne {pin p : PinId} (o old : Option Level) (h : p ≠ pin) : lineAfter pin p o old = old := by
  simp [lineAfter, h]

/-! ### The word on the lines -/

/-- The lines a bus word is read from are known to carry `rs`, RW low and the byte `v` (in 4-bit mode, its low
nibble on D3..D0). -/
structure Carries (nc : PinId) (d : Descriptor) (rs : Level) (v : Byte) (l : Lines) : Prop where
  rs : l.rs = some rs
  rw : d.rwPin = nc ∨ l.rw = some false
  low : l.d0 = some (v.getLsbD 0) ∧ l.d1 = some (v.getLsbD 1) ∧ l.d2 = some (v.getLsbD 2) ∧ l.d3 = some (v.getLsbD 3)
  high : d.bus8 = true → l.d4 = some (v.getLsbD 4) ∧ l.d5 = some (v.getLsbD 5) ∧ l.d6 = some (v.getLsbD 6) ∧
    l.d7 = some (v.getLsbD 7)

/-- The bus word of lines that carry a byte. -/
def carriedWord (d : Descriptor) (rs : Level) (v : Byte) : BusWord :=
  if d.bus8 then .w8 rs false v else .w4 rs false (v.extractLsb' 0 4)

theorem nibbleOf_bits (b3 b2 b1 b0 : Level) :
    (nibbleOf b3 b2 b1 b0).getLsbD 0 = b0 ∧ (nibbleOf b3 b2 b1 b0).getLsbD 1 = b1 ∧
    (nibbleOf b3 b2 b1 b0).getLsbD 2 = b2 ∧ (nibbleOf b3 b2 b1 b0).getLsbD 3 = b3 := by
  revert b3 b2 b1 b0; decide

theorem nibbleOf_getLsbD (v : Byte) (i : Nat) :
    nibbleOf (v.getLsbD (i + 3)) (v.getLsbD (i + 2)) (v.getLsbD (i + 1)) (v.getLsbD i) = v.extractLsb' i 4 := by
  apply BitVec.eq_of_getLsbD_eq
  intro j hj
  have : j = 0 ∨ j = 1 ∨ j = 2 ∨ j = 3 := by omega
  obtain ⟨h0, h1, h2, h3⟩ :=
    nibbleOf_bits (v.getLsbD (i + 3)) (v.getLsbD (i + 2)) (v.getLsbD (i + 1)) (v.getLsbD i)
  rcases this with rfl | rfl | rfl | rfl
  · rw [h0]; simp
  · rw [h1]; simp
  · rw [h2]; simp
  · rw [h3]; simp

theorem byte_of_nibbles (v : Byte) : v.extractLsb' 4 4 ++ v.extractLsb' 0 4 = v := by
  revert v; decide

theorem busWord_of_carries {nc : PinId} {d : Descriptor} {k : Nat} {rs : Level} {v : Byte} {l : Lines}
    (h : Carries nc d rs v l) : busWord nc d k l = carriedWord d rs v := by
  have hrw : readRw nc d k l = false := by
    rcases h.rw with hn | hl
    · simp [readRw, hn]
    · simp [readRw, readLine, hl]
  have hlow : lowLines k l = v.extractLsb' 0 4 := by
    obtain ⟨h0, h1, h2, h3⟩ := h.low
    simpa [lowLines, readLine, h0, h1, h2, h3] using nibbleOf_getLsbD v 0
  by_cases hb : d.bus8 = true
  · have hhigh : highLines k l = v.extractLsb' 4 4 := by
      obtain ⟨h4, h5, h6, h7⟩ := h.high hb
      simpa [highLines, readLine, h4, h5, h6, h7] using nibbleOf_getLsbD v 4
    simp [busWord, carriedWord, hb, hrw, hlow, hhigh, readLine, h.rs, byte_of_nibbles]
  · simp [busWord, carriedWord, hb, hrw, hlow, readLine, h.rs]

/-! ### A list of data-line writes, and a pulse -/

/-- The level of the line on pin `q` after a list of successful writes. -/
def levelAfterWrites (q : PinId) (ws : List (PinId × Level)) (old : Option Level) : Option Level :=
  ws.foldl (fun o w => lineAfter q w.1 (some w.2) o) old

/-- The lines after a list of successful writes. -/
def linesAfterWrites (d : Descriptor) (ws : List (PinId × Level)) (l : Lines) : Lines :=
  ws.foldl (fun l w => driveLines d w.1 (some w.2) l) l

theorem linesAfterWrites_eq (d : Descriptor) (ws : List (PinId × Level)) (l : Lines) :
    linesAfterWrites d ws l =
      { rs := levelAfterWrites d.rsPin ws l.rs, rw := levelAfterWrites d.rwPin ws l.rw
        en := levelAfterWrites d.enPin ws l.en
        d0 := levelAfterWrites d.dataPins.d0 ws l.d0, d1 := levelAfterWrites d.dataPins.d1 ws l.d1
        d2 := levelAfterWrites d.dataPins.d2 ws l.d2, d3 := levelAfterWrites d.dataPins.d3 ws l.d3
        d4 := levelAfterWrites d.dataPins.d4 ws l.d4, d5 := levelAfterWrites d.dataPins.d5 ws l.d5
        d6 := levelAfterWrites d.dataPins.d6 ws l.d6, d7 := levelAfterWrites d.dataPins.d7 ws l.d7 } := by
  induction ws generalizing l with
  | nil => rfl
  | cons w ws ih => simp only [linesAfterWrites, levelAfterWrites, List.foldl_cons] at ih ⊢; rw [ih]; rfl

theorem levelAfterWrites_of_not_mem {q : PinId} {ws : List (PinId × Level)} {old : Option Level}
    (h : q ∉ ws.map Prod.fst) : levelAfterWrites q ws old = old := by
  induction ws generalizing old with
  | nil => rfl
  | cons w ws ih =>
    simp only [List.map_cons, List.mem_cons, not_or] at h
    simp only [levelAfterWrites, List.foldl_cons] at ih ⊢
    rw [lineAfter_of_ne _ _ (Ne.symm h.1), ih h.2]

theorem levelAfterWrites_of_mem {q : PinId} {v : Level} {ws : List (PinId × Level)} {old : Option Level}
    (hn : (ws.map Prod.fst).Nodup) (h : (q, v) ∈ ws) : levelAfterWrites q ws old = some v := by
  induction ws generalizing old with
  | nil => simp at h
  | cons w ws ih =>
    simp only [List.map_cons, List.nodup_cons] at hn
    rcases List.mem_cons.1 h with rfl | h
    · have := levelAfterWrites_of_not_mem (old := some v) hn.1
      simpa [levelAfterWrites, lineAfter] using this
    · simpa [levelAfterWrites] using ih (old := lineAfter q w.1 (some w.2) old) hn.2 h

/-- A list of writes that leave the enable pin alone only moves lines. -/
theorem observeAll_writes {nc : PinId} {d : Descriptor} (ws : List (PinId × Level)) (k : Nat) (f : FarEnd)
    (h : ∀ w ∈ ws, w.1 ≠ d.enPin) :
    observeAll nc d k (ws.map fun w => .setLevel w.1 w.2) f = { f with lines := linesAfterWrites d ws f.lines } := by
  induction ws generalizing k f with
  | nil => rfl
  | cons w ws ih =>
    have hw : w.1 ≠ d.enPin := h w (by simp)
    simp only [List.map_cons, observeAll, observe_setLevel_of_ne hw, linesAfterWrites, List.foldl_cons]
    rw [ih]
    · rfl
    · exact fun w' hw' => h w' (by simp [hw'])

/-- The writes of `put_lines`. -/
def dataWrites (d : Descriptor) (v : Byte) : List (PinId × Level) :=
  (List.range (ndata d)).map fun j => (dataPin d.dataPins j, v.getLsbD j)

theorem dataWrites_pins (d : Descriptor) (v : Byte) : (dataWrites d v).map Prod.fst = usedDataPins d := by
  simp [dataWrites, usedDataPins, Function.comp_def]

theorem mem_dataWrites {d : Descriptor} (v : Byte) {j : Nat} (h : j < ndata d) :
    (dataPin d.dataPins j, v.getLsbD j) ∈ dataWrites d v :=
  List.mem_map.2 ⟨j, by simpa using h, rfl⟩

/-- The events of `put_lines` of a byte's low `NDATA` bits. -/
def dataRef (d : Descriptor) (v : Byte) : List Event :=
  if d.bus8 then byteRef d v else nibbleRef d (v.extractLsb' 0 4)

theorem dataRef_eq_writes (d : Descriptor) (v : Byte) :
    dataRef d v = (dataWrites d v).map fun w => .setLevel w.1 w.2 := by
  unfold dataRef dataWrites ndata
  split
  · rfl
  · simp [nibbleRef, List.range_succ, dataPin]

/-- `put_lines` of a byte: RS, RW and E keep their levels and the data lines carry it. -/
theorem observeAll_data {nc : PinId} {d : Descriptor} {k : Nat} {rs : Level} {v : Byte} {f : FarEnd}
    (hp : FramePins nc d) (hrs : f.lines.rs = some rs) (hrw : d.rwPin = nc ∨ f.lines.rw = some false)
    (he : f.lines.en = some false) :
    ∃ l, observeAll nc d k (dataRef d v) f = { f with lines := l } ∧ Carries nc d rs v l ∧ l.en = some false := by
  have mem_used : ∀ {q : PinId}, q ∈ (dataWrites d v).map Prod.fst → ∃ j < ndata d, dataPin d.dataPins j = q := by
    intro q hq
    rw [dataWrites_pins] at hq
    obtain ⟨j, hj, hjq⟩ := List.mem_map.1 hq
    exact ⟨j, by simpa using hj, hjq⟩
  have hn4 : 4 ≤ ndata d := by unfold ndata; split <;> omega
  have hnodup : ((dataWrites d v).map Prod.fst).Nodup := by rw [dataWrites_pins]; exact hp.data_nodup
  have line : ∀ j < ndata d, ∀ old,
      levelAfterWrites (dataPin d.dataPins j) (dataWrites d v) old = some (v.getLsbD j) :=
    fun j hj old => levelAfterWrites_of_mem hnodup (mem_dataWrites v hj)
  refine ⟨linesAfterWrites d (dataWrites d v) f.lines, ?_, ?_, ?_⟩
  · rw [dataRef_eq_writes]
    refine observeAll_writes _ k f ?_
    intro w hw
    obtain ⟨j, hj, hjq⟩ := mem_used (List.mem_map_of_mem (f := Prod.fst) hw)
    rw [← hjq]
    exact hp.data_en j hj
  · rw [linesAfterWrites_eq]
    refine ⟨?_, ?_, ?_, ?_⟩
    · simp only
      rw [levelAfterWrites_of_not_mem, hrs]
      intro hq
      obtain ⟨j, hj, hjq⟩ := mem_used hq
      exact hp.data_rs j hj hjq
    · by_cases hw : d.rwPin = nc
      · exact .inl hw
      · right
        simp only
        rw [levelAfterWrites_of_not_mem, hrw.resolve_left hw]
        intro hq
        obtain ⟨j, hj, hjq⟩ := mem_used hq
        exact (hp.rw hw).2.2 j hj hjq
    · exact ⟨line 0 (by omega) _, line 1 (by omega) _, line 2 (by omega) _, line 3 (by omega) _⟩
    · intro hb
      have hn8 : ndata d = 8 := by simp [ndata, hb]
      exact ⟨line 4 (by omega) _, line 5 (by omega) _, line 6 (by omega) _, line 7 (by omega) _⟩
  · rw [linesAfterWrites_eq]
    simp only
    rw [levelAfterWrites_of_not_mem, he]
    intro hq
    obtain ⟨j, hj, hjq⟩ := mem_used hq
    exact hp.data_en j hj hjq

/-- A pulse from E low: one strobe of the word on the lines, which the receiver takes, and E low again. -/
theorem observeAll_pulse {nc : PinId} {d : Descriptor} {k : Nat} {rs : Level} {v : Byte} {f : FarEnd}
    (hp : FramePins nc d) (hc : Carries nc d rs v f.lines) (he : f.lines.en = some false) :
    ∃ l, observeAll nc d k (pulseRef d) f =
        { lines := l
          strobes := f.strobes ++ [carriedWord d rs v]
          mode := (receive (k + 4) f.mode (carriedWord d rs v)).1
          delivered := f.delivered ++ (receive (k + 4) f.mode (carriedWord d rs v)).2 } ∧
      Carries nc d rs v l ∧ l.en = some false := by
  have hrs := hp.rs_en
  have hn : 4 ≤ ndata d := by unfold ndata; split <;> omega
  have h0 := hp.data_en 0 (by omega)
  have h1 := hp.data_en 1 (by omega)
  have h2 := hp.data_en 2 (by omega)
  have h3 := hp.data_en 3 (by omega)
  simp only [dataPin] at h0 h1 h2 h3
  have keep : ∀ (o : Option Level) (l : Lines), Carries nc d rs v l → Carries nc d rs v (driveLines d d.enPin o l) := by
    intro o l hl
    refine ⟨?_, ?_, ?_, ?_⟩
    · simp [driveLines, lineAfter_of_ne o _ hrs.symm, hl.rs]
    · by_cases hw : d.rwPin = nc
      · exact .inl hw
      · right
        have := (hp.rw hw).2.1
        simp [driveLines, lineAfter_of_ne o _ this.symm, hl.rw.resolve_left hw]
    · simp [driveLines, lineAfter_of_ne o _ h0.symm, lineAfter_of_ne o _ h1.symm, lineAfter_of_ne o _ h2.symm,
        lineAfter_of_ne o _ h3.symm, hl.low]
    · intro hb
      have hn8 : ndata d = 8 := by simp [ndata, hb]
      have h4 := hp.data_en 4 (by omega)
      have h5 := hp.data_en 5 (by omega)
      have h6 := hp.data_en 6 (by omega)
      have h7 := hp.data_en 7 (by omega)
      simp only [dataPin] at h4 h5 h6 h7
      simp [driveLines, lineAfter_of_ne o _ h4.symm, lineAfter_of_ne o _ h5.symm, lineAfter_of_ne o _ h6.symm,
        lineAfter_of_ne o _ h7.symm, hl.high hb]
  have hen : ∀ (o : Option Level) (l : Lines), (driveLines d d.enPin o l).en = o := fun o l => by
    simp [driveLines, lineAfter_self]
  refine ⟨driveLines d d.enPin (some false) (driveLines d d.enPin (some true) (driveLines d d.enPin (some false)
    f.lines)), ?_, keep _ _ (keep _ _ (keep _ _ hc)), hen _ _⟩
  have hw := busWord_of_carries (k := k + 4) (keep (some true) _ (keep (some false) _ hc))
  have h1 := observe_en_of_low (nc := nc) (d := d) (k := k) (v := false) he
  have h2 := observe_en_of_low (nc := nc) (d := d) (k := k + 2) (v := true)
    (f := { f with lines := driveLines d d.enPin (some false) f.lines }) (hen _ _)
  have h3 := observe_en_fall (nc := nc) (d := d) (k := k + 4)
    (f := { f with lines := driveLines d d.enPin (some true) (driveLines d d.enPin (some false) f.lines) }) (hen _ _)
  simp only [pulseRef, observeAll, observe_delay, Nat.add_assoc, Nat.reduceAdd, h1, h2, h3, FarEnd.strobe, hw]

/-! ### A transmit -/

/-- What the receiver makes of a list of bus words, taken at the events given. -/
def receiveAll (m : RxMode) : List (Nat × BusWord) → RxMode × List (Level × Byte)
  | [] => (m, [])
  | (k, w) :: ws =>
    ((receiveAll (receive k m w).1 ws).1, (receive k m w).2 ++ (receiveAll (receive k m w).1 ws).2)

/-- The strobes of a transmit that starts at event `k`, with the events of their falling edges
(95_test_vectors.md section 2.2: events 14, or 10 and 20). -/
def txStrobes (d : Descriptor) (k : Nat) (rs : Level) (v : Byte) : List (Nat × BusWord) :=
  if d.bus8 then [(k + 13, .w8 rs false v)]
  else [(k + 9, .w4 rs false (v.extractLsb' 4 4)), (k + 19, .w4 rs false (v.extractLsb' 0 4))]

theorem txStrobes_words (d : Descriptor) (k : Nat) (rs : Level) (v : Byte) :
    (txStrobes d k rs v).map Prod.snd = txWords d rs v := by
  unfold txStrobes txWords; split <;> rfl

theorem high_as_byte (v : Byte) : ((v.extractLsb' 4 4).setWidth 8).extractLsb' 0 4 = v.extractLsb' 4 4 := by
  revert v; decide

theorem carriedWord_high (d : Descriptor) (rs : Level) (v : Byte) (hb : d.bus8 = false) :
    carriedWord d rs ((v.extractLsb' 4 4).setWidth 8) = .w4 rs false (v.extractLsb' 4 4) := by
  simp [carriedWord, hb, high_as_byte]

/-- A whole transmit, from E and RW low: its strobes, what the receiver delivers, and E and RW low again. -/
theorem observeAll_tx {nc : PinId} {d : Descriptor} {k : Nat} {rs : Level} {v : Byte} {f : FarEnd}
    (hp : FramePins nc d) (hrw : d.rwPin = nc ∨ f.lines.rw = some false) (he : f.lines.en = some false) :
    ∃ l, observeAll nc d k (txRef d rs v) f =
        { lines := l
          strobes := f.strobes ++ txWords d rs v
          mode := (receiveAll f.mode (txStrobes d k rs v)).1
          delivered := f.delivered ++ (receiveAll f.mode (txStrobes d k rs v)).2 } ∧
      Carries nc d rs v l ∧ l.en = some false := by
  have hrs : f.observe nc d k (.setLevel d.rsPin rs) .ok = { f with lines := driveLines d d.rsPin (some rs) f.lines } :=
    observe_setLevel_of_ne hp.rs_en
  have rs' : (driveLines d d.rsPin (some rs) f.lines).rs = some rs := by simp [driveLines, lineAfter_self]
  have rw' : d.rwPin = nc ∨ (driveLines d d.rsPin (some rs) f.lines).rw = some false := by
    by_cases hw : d.rwPin = nc
    · exact .inl hw
    · right
      simp [driveLines, lineAfter_of_ne _ _ (hp.rw hw).1.symm, hrw.resolve_left hw]
  have en' : (driveLines d d.rsPin (some rs) f.lines).en = some false := by
    simp [driveLines, lineAfter_of_ne _ _ hp.rs_en, he]
  by_cases hb : d.bus8 = true
  · obtain ⟨l1, h1, c1, e1⟩ := observeAll_data (k := k + 1) (v := v)
      (f := { f with lines := driveLines d d.rsPin (some rs) f.lines }) hp rs' rw' en'
    obtain ⟨l2, h2, c2, e2⟩ := observeAll_pulse (k := k + 9) (f := { f with lines := l1 }) hp c1 e1
    refine ⟨l2, ?_, c2, e2⟩
    have hd : dataRef d v = byteRef d v := by simp [dataRef, hb]
    have hl : (byteRef d v).length = 8 := rfl
    rw [hd] at h1
    simp only [txRef, hb, if_true, List.cons_append, observeAll, observeAll_append, hrs, h1, h2, hl,
      observe_delay, Nat.add_assoc, Nat.reduceAdd]
    simp [txWords, txStrobes, hb, receiveAll, carriedWord]
  · have hb : d.bus8 = false := by simpa using hb
    obtain ⟨l1, h1, c1, e1⟩ := observeAll_data (k := k + 1) (v := (v.extractLsb' 4 4).setWidth 8)
      (f := { f with lines := driveLines d d.rsPin (some rs) f.lines }) hp rs' rw' en'
    obtain ⟨l2, h2, c2, e2⟩ := observeAll_pulse (k := k + 5) (f := { f with lines := l1 }) hp c1 e1
    obtain ⟨l3, h3, c3, e3⟩ := observeAll_data (k := k + 11) (v := v)
      (f := { lines := l2
              strobes := f.strobes ++ [carriedWord d rs ((v.extractLsb' 4 4).setWidth 8)]
              mode := (receive (k + 9) f.mode (carriedWord d rs ((v.extractLsb' 4 4).setWidth 8))).1
              delivered := f.delivered ++
                (receive (k + 9) f.mode (carriedWord d rs ((v.extractLsb' 4 4).setWidth 8))).2 }) hp c2.rs c2.rw e2
    obtain ⟨l4, h4, c4, e4⟩ := observeAll_pulse (k := k + 15)
      (f := { lines := l3
              strobes := f.strobes ++ [carriedWord d rs ((v.extractLsb' 4 4).setWidth 8)]
              mode := (receive (k + 9) f.mode (carriedWord d rs ((v.extractLsb' 4 4).setWidth 8))).1
              delivered := f.delivered ++
                (receive (k + 9) f.mode (carriedWord d rs ((v.extractLsb' 4 4).setWidth 8))).2 }) hp c3 e3
    refine ⟨l4, ?_, c4, e4⟩
    have hd : dataRef d ((v.extractLsb' 4 4).setWidth 8) = nibbleRef d (v.extractLsb' 4 4) := by
      simp [dataRef, hb, high_as_byte]
    have hd2 : dataRef d v = nibbleRef d (v.extractLsb' 0 4) := by simp [dataRef, hb]
    have hl : ∀ n, (nibbleRef d n).length = 4 := fun _ => rfl
    have hq : (pulseRef d).length = 6 := rfl
    rw [hd] at h1
    rw [hd2] at h3
    simp only [Nat.add_assoc, Nat.reduceAdd] at h1 h2 h3 h4
    simp only [txRef, hb, Bool.false_eq_true, if_false, List.cons_append, observeAll, observeAll_append,
      List.length_append, hrs, hl, hq, observe_delay, Nat.add_assoc, Nat.reduceAdd, h1, h2, h3, h4]
    simp [txWords, txStrobes, hb, receiveAll, high_as_byte, carriedWord, List.append_assoc]

end Sys2Proof.Machine
end

