-- ==== Sys2Proof/Laws/Setup.lean ====
section
/-! SUPPORT. What the far end sees of the handshake: step 2 of `initialize`, with its possible stray strobe, and the raw
nibbles. -/

namespace Sys2Proof.Machine

/-! ### Step 2 of `initialize` -/

/-- Direction and level 0 of pins that are not the enable pin: only lines move. -/
theorem observeAll_setup_pins {nc : PinId} {d : Descriptor} (ps : List PinId) (k : Nat) (f : FarEnd)
    (h : ∀ p ∈ ps, p ≠ d.enPin) :
    observeAll nc d k (ps.flatMap fun p => [.setDir p, .setLevel p false]) f =
      { f with lines := linesAfterWrites d (ps.map fun p => (p, false)) f.lines } := by
  induction ps generalizing k f with
  | nil => rfl
  | cons p ps ih =>
    have hp : p ≠ d.enPin := h p (by simp)
    simp only [List.flatMap_cons, List.cons_append, List.nil_append, observeAll, observe_setDir_ok,
      observe_setLevel_of_ne hp]
    rw [ih _ _ fun q hq => h q (by simp [hq])]
    rfl

/-- A strobe at event `k` if `b` holds. -/
def strobeIf (nc : PinId) (d : Descriptor) (k : Nat) (b : Bool) (f : FarEnd) : FarEnd :=
  if b then f.strobe nc d k else f

/-- The pins of step 2 before E. -/
def pinsBeforeEnable (nc : PinId) (d : Descriptor) : List PinId := [d.rsPin] ++ if d.rwPin = nc then [] else [d.rwPin]

theorem setupPinsRef_eq (nc : PinId) (d : Descriptor) :
    setupPinsRef nc d = pinsBeforeEnable nc d ++ d.enPin :: usedDataPins d := by
  unfold setupPinsRef pinsBeforeEnable usedDataPins ndata
  cases d.bus8 <;> simp <;> rfl

/-- Step 2 as a whole, every call answered `ok`: RS, RW and E low, and one strobe exactly if the enable line fell, with
RS and RW low (rule R242). -/
theorem observeAll_setup {nc : PinId} {d : Descriptor} {k : Nat} {f : FarEnd} (hp : FramePins nc d) :
    ∃ l₁ l₂ k', observeAll nc d k (setupRef nc d) f =
        { strobeIf nc d k' (enableFalls k' f.lines.en false .ok) { f with lines := l₁ } with lines := l₂ } ∧
      (l₁.rs = some false ∧ (d.rwPin = nc ∨ l₁.rw = some false)) ∧
      l₂.rs = some false ∧ (d.rwPin = nc ∨ l₂.rw = some false) ∧ l₂.en = some false := by
  have hpre : ∀ p ∈ pinsBeforeEnable nc d, p ≠ d.enPin := by
    intro p hm
    unfold pinsBeforeEnable at hm
    split at hm
    · simp at hm; subst hm; exact hp.rs_en
    · rename_i hw
      simp at hm
      rcases hm with rfl | rfl
      · exact hp.rs_en
      · exact (hp.rw hw).2.1
  have hdata : ∀ p ∈ usedDataPins d, p ≠ d.enPin ∧ p ≠ d.rsPin ∧ (d.rwPin ≠ nc → p ≠ d.rwPin) := by
    intro p hm
    obtain ⟨j, hj, rfl⟩ := List.mem_map.1 hm
    have hj : j < ndata d := by simpa using hj
    exact ⟨hp.data_en j hj, hp.data_rs j hj, fun hw => (hp.rw hw).2.2 j hj⟩
  -- the lines after the pins before E
  have hl₁ : ∀ l, (linesAfterWrites d ((pinsBeforeEnable nc d).map fun p => (p, false)) l).rs = some false ∧
      (d.rwPin = nc ∨ (linesAfterWrites d ((pinsBeforeEnable nc d).map fun p => (p, false)) l).rw = some false) ∧
      (linesAfterWrites d ((pinsBeforeEnable nc d).map fun p => (p, false)) l).en = l.en := by
    intro l
    rw [linesAfterWrites_eq]
    have hm : ((pinsBeforeEnable nc d).map fun p => (p, false)).map Prod.fst = pinsBeforeEnable nc d := by
      simp [Function.comp_def]
    have hnd : (pinsBeforeEnable nc d).Nodup := by
      unfold pinsBeforeEnable
      split
      · simp
      · rename_i hw; simpa using (hp.rw hw).1.symm
    refine ⟨levelAfterWrites_of_mem (by rw [hm]; exact hnd) (by simp [pinsBeforeEnable]), ?_, ?_⟩
    · by_cases hw : d.rwPin = nc
      · exact .inl hw
      · exact .inr (levelAfterWrites_of_mem (by rw [hm]; exact hnd) (by simp [pinsBeforeEnable, hw]))
    · exact levelAfterWrites_of_not_mem (by rw [hm]; exact fun h => hpre _ h rfl)
  -- the lines the data pins leave alone
  have hl₂ : ∀ l, (linesAfterWrites d ((usedDataPins d).map fun p => (p, false)) l).rs = l.rs ∧
      (d.rwPin = nc ∨ (linesAfterWrites d ((usedDataPins d).map fun p => (p, false)) l).rw = l.rw) ∧
      (linesAfterWrites d ((usedDataPins d).map fun p => (p, false)) l).en = l.en := by
    intro l
    rw [linesAfterWrites_eq]
    have hm : ((usedDataPins d).map fun p => (p, false)).map Prod.fst = usedDataPins d := by simp [Function.comp_def]
    refine ⟨levelAfterWrites_of_not_mem (by rw [hm]; exact fun h => (hdata _ h).2.1 rfl), ?_,
      levelAfterWrites_of_not_mem (by rw [hm]; exact fun h => (hdata _ h).1 rfl)⟩
    by_cases hw : d.rwPin = nc
    · exact .inl hw
    · exact .inr (levelAfterWrites_of_not_mem (by rw [hm]; exact fun h => (hdata _ h).2.2 hw rfl))
  obtain ⟨a1, a2, a3⟩ := hl₁ f.lines
  obtain ⟨b1, b2, b3⟩ := hl₂ (driveLines d d.enPin (some false)
    (linesAfterWrites d ((pinsBeforeEnable nc d).map fun p => (p, false)) f.lines))
  refine ⟨linesAfterWrites d ((pinsBeforeEnable nc d).map fun p => (p, false)) f.lines,
    linesAfterWrites d ((usedDataPins d).map fun p => (p, false)) (driveLines d d.enPin (some false)
      (linesAfterWrites d ((pinsBeforeEnable nc d).map fun p => (p, false)) f.lines)),
    k + ((pinsBeforeEnable nc d).flatMap fun p => [Event.setDir p, .setLevel p false]).length + 1, ?_,
    ⟨a1, a2⟩, ?_, ?_, ?_⟩
  · unfold setupRef
    rw [setupPinsRef_eq, List.flatMap_append, List.flatMap_cons, observeAll_append, observeAll_setup_pins _ _ _ hpre]
    simp only [List.cons_append, List.nil_append, observeAll, observe_setDir_ok]
    rw [observeAll_setup_pins _ _ _ fun p h => (hdata p h).1]
    simp only [FarEnd.observe, FarEnd.writePin, levelAfter, a3, decide_true, Bool.true_and, strobeIf]
    split <;> rfl
  · rw [b1]; simp [driveLines, lineAfter_of_ne _ _ hp.rs_en.symm, a1]
  · by_cases hw : d.rwPin = nc
    · exact .inl hw
    · right
      rw [b2.resolve_left hw]
      simp [driveLines, lineAfter_of_ne _ _ (hp.rw hw).2.1.symm, a2.resolve_left hw]
  · rw [b3]; simp [driveLines, lineAfter_self]

/-! ### A raw nibble -/

theorem nibble_as_byte (n : Nibble) : (n.setWidth 8 : Byte).extractLsb' 0 4 = n := by revert n; decide

/-- A raw nibble pulse on a 4-bit bus, from RS, RW and E low: one strobe of it (rule R85). -/
theorem observeAll_raw {nc : PinId} {d : Descriptor} {k : Nat} {n : Nibble} {f : FarEnd} (hp : FramePins nc d)
    (hb : d.bus8 = false) (hrs : f.lines.rs = some false) (hrw : d.rwPin = nc ∨ f.lines.rw = some false)
    (he : f.lines.en = some false) :
    ∃ l, observeAll nc d k (rawRef d n) f =
        { lines := l
          strobes := f.strobes ++ [.w4 false false n]
          mode := (receive (k + 8) f.mode (.w4 false false n)).1
          delivered := f.delivered ++ (receive (k + 8) f.mode (.w4 false false n)).2 } ∧
      l.rs = some false ∧ (d.rwPin = nc ∨ l.rw = some false) ∧ l.en = some false := by
  obtain ⟨l₁, h₁, c₁, e₁⟩ := observeAll_data (k := k) (v := n.setWidth 8) hp hrs hrw he
  obtain ⟨l₂, h₂, c₂, e₂⟩ := observeAll_pulse (k := k + 4) (f := { f with lines := l₁ }) hp c₁ e₁
  have hd : dataRef d (n.setWidth 8) = nibbleRef d n := by simp [dataRef, hb, nibble_as_byte]
  have hw : carriedWord d false (n.setWidth 8) = .w4 false false n := by simp [carriedWord, hb, nibble_as_byte]
  have hl : (nibbleRef d n).length = 4 := rfl
  rw [hd] at h₁
  rw [hw] at h₂
  refine ⟨l₂, ?_, c₂.rs, c₂.rw, e₂⟩
  rw [rawRef, observeAll_append, h₁, hl, h₂]

end Sys2Proof.Machine
end

