-- ==== Sys2Proof/Laws/Bus.lean ====
section
/-! SUPPORT. What any capability call does to the lines and the strobes, whatever the levels are: the facts the bus
invariants rest on. -/

namespace Sys2Proof.Machine

/-! ### Lines -/

/-- The pin a call touches. -/
def eventPin : Event → Option PinId
  | .setDir p => some p
  | .setLevel p _ => some p
  | .delay _ => none

/-- A successful write moves the lines of its pin, whether or not it makes a strobe. -/
theorem observe_setLevel_lines (nc : PinId) (d : Descriptor) (k : Nat) (p : PinId) (v : Level) (f : FarEnd) :
    (f.observe nc d k (.setLevel p v) .ok).lines = driveLines d p (some v) f.lines := by
  simp only [FarEnd.observe, FarEnd.writePin, levelAfter]
  split <;> rfl

/-- A call that touches another pin leaves E and RW alone. -/
theorem observe_lines_of_ne {nc : PinId} {d : Descriptor} {k : Nat} {e : Event} {f : FarEnd} :
    (eventPin e ≠ some d.enPin → (f.observe nc d k e .ok).lines.en = f.lines.en) ∧
    (eventPin e ≠ some d.rwPin → (f.observe nc d k e .ok).lines.rw = f.lines.rw) := by
  rcases e with p | ⟨p, v⟩ | ms
  · simp
  · rw [observe_setLevel_lines]
    simp only [eventPin, ne_eq, Option.some.injEq, driveLines]
    exact ⟨fun h => lineAfter_of_ne _ _ h, fun h => lineAfter_of_ne _ _ h⟩
  · simp

/-! ### Strobes -/

/-- RW is low where the controller sees it. -/
def RwLow (nc : PinId) (d : Descriptor) (f : FarEnd) : Prop := d.rwPin = nc ∨ f.lines.rw = some false

theorem busWord_rw {nc : PinId} {d : Descriptor} {k : Nat} {f : FarEnd} (h : RwLow nc d f) :
    (busWord nc d k f.lines).rw = false := by
  have : readRw nc d k f.lines = false := by
    unfold readRw; rcases h with h | h <;> simp [h, readLine]
  unfold busWord; split <;> simp [BusWord.rw, this]

/-- Any call adds at most one strobe, and none unless it touches E. -/
theorem observe_strobes (nc : PinId) (d : Descriptor) (k : Nat) (e : Event) (a : Answer) (f : FarEnd) :
    (f.observe nc d k e a).strobes = f.strobes ∨
    (eventPin e = some d.enPin ∧ (f.observe nc d k e a).strobes = f.strobes ++ [busWord nc d k f.lines]) := by
  have hw : ∀ (p : PinId) (v : Level), (f.writePin nc d k p v a).strobes = f.strobes ∨
      (p = d.enPin ∧ (f.writePin nc d k p v a).strobes = f.strobes ++ [busWord nc d k f.lines]) := by
    intro p v
    simp only [FarEnd.writePin]
    split
    · rename_i h
      simp only [Bool.and_eq_true, decide_eq_true_eq] at h
      exact .inr ⟨h.1, rfl⟩
    · exact .inl rfl
  rcases e with p | ⟨p, v⟩ | ms
  · cases a
    · exact .inl rfl
    · simpa [eventPin, FarEnd.observe] using hw p false
  · cases a <;> simpa [eventPin, FarEnd.observe] using hw p v
  · simp

/-- Calls that do not touch E make no strobe and leave E alone. -/
theorem observeAll_en {nc : PinId} {d : Descriptor} (es : List Event) (k : Nat) (f : FarEnd)
    (hes : ∀ e ∈ es, eventPin e ≠ some d.enPin) :
    (observeAll nc d k es f).strobes = f.strobes ∧ (observeAll nc d k es f).lines.en = f.lines.en := by
  induction es generalizing k f with
  | nil => exact ⟨rfl, rfl⟩
  | cons e es ih =>
    obtain ⟨h1, h2⟩ := ih (k + 1) (f.observe nc d k e .ok) fun e' he' => hes e' (by simp [he'])
    have he := hes e (by simp)
    refine ⟨?_, by rw [observeAll, h2, observe_lines_of_ne.1 he]⟩
    rw [observeAll, h1]
    rcases observe_strobes nc d k e .ok f with hs | ⟨h, _⟩
    · exact hs
    · exact absurd h he

/-- A pulse leaves E low, whatever E was. -/
theorem observeAll_pulse_en (nc : PinId) (d : Descriptor) (k : Nat) (f : FarEnd) :
    (observeAll nc d k (pulseRef d) f).lines.en = some false := by
  simp [pulseRef, observeAll, observe_setLevel_lines, driveLines, lineAfter_self]

end Sys2Proof.Machine
end

