-- ==== Sys2Proof/Laws/PerInstr.lean ====
section
/-! SUPPORT. Statements made of every instruction as syntax, one lemma per constructor. -/

namespace Sys2Proof.Laws

/-! ### `TableRow`: an instruction's word is one its row of the opcode table matches -/

/-- Width, `match` and `mask` of an instruction's row, copied from spec/opcode_table.json. -/
def TableRow.row : Instr → Nat × Nat × Nat
  | .initializeRaw0011 => (5, 0x03, 0x1F)
  | .initializeRaw0010 => (5, 0x02, 0x1F)
  | .initializeFunctionSet _ _ _ => (9, 0x020, 0x1E3)
  | .initializeDisplayDefault => (9, 0x00C, 0x1FF)
  | .initializeEntryDefault => (9, 0x006, 0x1FF)
  | .clear => (9, 0x001, 0x1FF)
  | .home => (9, 0x002, 0x1FF)
  | .setDisplayMode _ _ _ => (9, 0x008, 0x1F8)
  | .scrollLeft => (9, 0x018, 0x1FF)
  | .scrollRight => (9, 0x01C, 0x1FF)
  | .setTextDirection _ _ => (9, 0x004, 0x1FC)
  | .createCustomCharCgramAddress _ => (9, 0x040, 0x1C7)
  | .createCustomCharGlyphRow _ => (9, 0x100, 0x100)
  | .setCursor _ => (9, 0x080, 0x180)
  | .writeChar _ => (9, 0x100, 0x100)
  | .print _ => (9, 0x100, 0x100)
  | .transmitW8 _ _ => (9, 0, 0)
  | .transmitW4x2 _ _ => (10, 0, 0)

/-- The word has its row's width, fits in it, and agrees with the row's `match` under its `mask`. -/
def TableRow.Statement (i : Instr) : Prop :=
  (encode i).width = (TableRow.row i).1 ∧ (encode i).bits < 2 ^ (TableRow.row i).1 ∧
    (encode i).bits &&& (TableRow.row i).2.2 = (TableRow.row i).2.1

theorem TableRow.initializeRaw0011 : TableRow.Statement .initializeRaw0011 := by unfold Statement; decide

theorem TableRow.initializeRaw0010 : TableRow.Statement .initializeRaw0010 := by unfold Statement; decide

theorem TableRow.initializeFunctionSet (dl n f : Bool) : TableRow.Statement (.initializeFunctionSet dl n f) := by
  unfold Statement; revert dl n f; decide

theorem TableRow.initializeDisplayDefault : TableRow.Statement .initializeDisplayDefault := by
  unfold Statement; decide

theorem TableRow.initializeEntryDefault : TableRow.Statement .initializeEntryDefault := by unfold Statement; decide

theorem TableRow.clear : TableRow.Statement .clear := by unfold Statement; decide

theorem TableRow.home : TableRow.Statement .home := by unfold Statement; decide

theorem TableRow.setDisplayMode (on cursor blink : Bool) : TableRow.Statement (.setDisplayMode on cursor blink) := by
  unfold Statement; revert on cursor blink; decide

theorem TableRow.scrollLeft : TableRow.Statement .scrollLeft := by unfold Statement; decide

theorem TableRow.scrollRight : TableRow.Statement .scrollRight := by unfold Statement; decide

theorem TableRow.setTextDirection (ltr autoscroll : Bool) : TableRow.Statement (.setTextDirection ltr autoscroll) := by
  unfold Statement; revert ltr autoscroll; decide

theorem TableRow.createCustomCharCgramAddress (slot : BitVec 3) :
    TableRow.Statement (.createCustomCharCgramAddress slot) := by
  unfold Statement; revert slot; decide

/-- A data word: bit 8 is the register select, the low bits are the byte. -/
theorem TableRow.data_word (v : Byte) : word9 true v < 2 ^ 9 ∧ word9 true v &&& 0x100 = 0x100 := by
  revert v; decide

theorem TableRow.createCustomCharGlyphRow (g : Byte) : TableRow.Statement (.createCustomCharGlyphRow g) :=
  ⟨rfl, data_word g⟩

theorem TableRow.setCursor (a : BitVec 7) : TableRow.Statement (.setCursor a) := by
  unfold Statement; revert a; decide

theorem TableRow.writeChar (b : Byte) : TableRow.Statement (.writeChar b) := ⟨rfl, data_word b⟩

theorem TableRow.print (t : Byte) : TableRow.Statement (.print t) := ⟨rfl, data_word t⟩

theorem TableRow.transmitW8 (isData : Bool) (v : Byte) : TableRow.Statement (.transmitW8 isData v) := by
  have h : word9 isData v < 2 ^ 9 := by revert isData v; decide
  exact ⟨rfl, h, Nat.and_zero _⟩

theorem TableRow.transmitW4x2 (isData : Bool) (v : Byte) : TableRow.Statement (.transmitW4x2 isData v) := by
  refine ⟨rfl, ?_, Nat.and_zero _⟩
  have hv := v.isLt
  have hd := Bool.toNat_le isData
  simp only [encode, TableRow.row]
  omega

end Sys2Proof.Laws
end

