-- ==== Sys2Proof/Tests/Slice0.lean ====
section
/-! SUPPORT. Small tests. Every expected value is transcribed from spec/: the `encoding` strings of opcode_table.json and
the vectors of 95_test_vectors.md, each named beside its tests. Then one witness for the hypotheses of each statement. -/

namespace Sys2Proof.Tests

open Sys2Proof.Machine

/-! ### Well-formedness -/

/-- A 4-bit device: the descriptor of program P1. -/
def d4 : Descriptor := descriptorAtReset

/-- An 8-bit device without an RW pin: the descriptor of program P2. -/
def d8 : Descriptor := { descriptorAtReset with bus8 := true, lineCount := 4, rwPin := 0 }

theorem test_raw_0011_refused_on_8_bit : Instr.wellFormed d8 .initializeRaw0011 = false := by decide
theorem test_raw_0010_refused_on_8_bit : Instr.wellFormed d8 .initializeRaw0010 = false := by decide
theorem test_w4x2_refused_on_8_bit : Instr.wellFormed d8 (.transmitW4x2 true 0x41) = false := by decide
theorem test_w8_refused_on_4_bit : Instr.wellFormed d4 (.transmitW8 true 0x41) = false := by decide
theorem test_function_set_dl_refused : Instr.wellFormed d4 (.initializeFunctionSet true true false) = false := by decide
theorem test_function_set_n_refused : Instr.wellFormed d4 (.initializeFunctionSet false false false) = false := by decide
theorem test_function_set_f_refused : Instr.wellFormed d4 (.initializeFunctionSet false true true) = false := by decide
theorem test_function_set_accepted : Instr.wellFormed d4 (.initializeFunctionSet false true false) = true := by decide

/-! ### Decoding: words written out bit by bit from the `encoding` strings, RS first -/

theorem test_decode_raw_0011 : decode ⟨.initializeCall, 5, 0b00011⟩ = .ok .initializeRaw0011 := by decide
theorem test_decode_raw_0010 : decode ⟨.initializeCall, 5, 0b00010⟩ = .ok .initializeRaw0010 := by decide
/-- `0001LNF00` with L = 0, N = 1, F = 0: the byte 0x28 of section 2.3. -/
theorem test_decode_function_set :
    decode ⟨.initializeCall, 9, 0b000101000⟩ = .ok (.initializeFunctionSet false true false) := by decide
theorem test_decode_display_default :
    decode ⟨.initializeCall, 9, 0b000001100⟩ = .ok .initializeDisplayDefault := by decide
theorem test_decode_entry_default : decode ⟨.initializeCall, 9, 0b000000110⟩ = .ok .initializeEntryDefault := by decide
theorem test_decode_clear : decode ⟨.clear, 9, 0b000000001⟩ = .ok .clear := by decide
theorem test_decode_home : decode ⟨.home, 9, 0b000000010⟩ = .ok .home := by decide
/-- `000001DCB` with D = 0, C = 1, B = 0: 0x0A of section 2.4. -/
theorem test_decode_set_display_mode :
    decode ⟨.setDisplayMode, 9, 0b000001010⟩ = .ok (.setDisplayMode false true false) := by decide
theorem test_decode_scroll_left : decode ⟨.scrollLeft, 9, 0b000011000⟩ = .ok .scrollLeft := by decide
theorem test_decode_scroll_right : decode ⟨.scrollRight, 9, 0b000011100⟩ = .ok .scrollRight := by decide
/-- `0000001IS` with I = 0, S = 1: 0x05 of section 2.4. -/
theorem test_decode_set_text_direction :
    decode ⟨.setTextDirection, 9, 0b000000101⟩ = .ok (.setTextDirection false true) := by decide
/-- `001sss000` with s = 6: 0x70 of section 2.5. -/
theorem test_decode_cgram_address :
    decode ⟨.createCustomChar, 9, 0b001110000⟩ = .ok (.createCustomCharCgramAddress 6) := by decide
theorem test_decode_glyph_row :
    decode ⟨.createCustomChar, 9, 0b111100000⟩ = .ok (.createCustomCharGlyphRow 0xE0) := by decide
/-- `01aaaaaaa` with a = 0x44: 0xC4 of scenario S7. -/
theorem test_decode_set_cursor : decode ⟨.setCursor, 9, 0b011000100⟩ = .ok (.setCursor 0x44) := by decide
theorem test_decode_write_char : decode ⟨.writeChar, 9, 0b101000001⟩ = .ok (.writeChar 0x41) := by decide
theorem test_decode_print : decode ⟨.print, 9, 0b101001000⟩ = .ok (.print 0x48) := by decide
theorem test_decode_w8 : decode ⟨.transmit, 9, 0b110100101⟩ = .ok (.transmitW8 true 0xA5) := by decide
/-- `rhhhh rllll`: TX(1, 0x5A), the first strobe in the low five bits. -/
theorem test_decode_w4x2 : decode ⟨.transmit, 10, 0b1101010101⟩ = .ok (.transmitW4x2 true 0x5A) := by decide

/-- Rule R100: 0x03 is never emitted. -/
theorem test_decode_home_bit_0_refused : decode ⟨.home, 9, 0b000000011⟩ = .error .neverEmitted := by decide
/-- Rule R100: a CGRAM byte with bits 2..0 set is never emitted. -/
theorem test_decode_cgram_low_bits_refused :
    decode ⟨.createCustomChar, 9, 0b001110001⟩ = .error .neverEmitted := by decide
/-- Rule R84: both strobes of a frame carry the same RS. -/
theorem test_decode_w4x2_two_rs_refused : decode ⟨.transmit, 10, 0b0101010101⟩ = .error .neverEmitted := by decide
theorem test_decode_width_refused : decode ⟨.clear, 5, 0b00001⟩ = .error .noSuchFormat := by decide
theorem test_decode_tenth_bit_refused : decode ⟨.clear, 9, 0b1000000001⟩ = .error .bitsAboveWidth := by decide

theorem test_table_word_raw : decodeTableWord 8 0x02 = some .initializeRaw0010 := by decide
theorem test_table_word_set_cursor : decodeTableWord 16 0x0C4 = some (.setCursor 0x44) := by decide
theorem test_table_word_frame : decodeTableWord 16 0x355 = some (.transmitW4x2 true 0x5A) := by decide

/-! ### One step each, on small states -/

/-- All lines low. -/
def low : Lines :=
  ⟨some false, some false, some false, some false, some false, some false, some false, some false, some false,
    some false, some false⟩

/-- A device between calls whose next `n` capability calls succeed, the lines low, the receiver at a byte's start. -/
def device (d : Descriptor) (p : Phase) (n : Nat) : State :=
  { State.reset with
    cfg := d
    phase := p
    answers := List.replicate n .ok
    far := { lines := low, strobes := [], mode := if d.bus8 then .m8 else .m4h, delivered := [] } }

/-- A property of the next state. -/
def next (o : Host.Outcome State Fault Refusal) (p : State → Bool) : Bool :=
  match o with
  | .next s => p s
  | .fault _ => false
  | .refused _ => false

/-- The capability calls of an instruction, after the one step that makes the first: it, and those left in the
sequencer. -/
def issued (i : Instr) (s : State) : List Event :=
  match exec i s with
  | .next t => t.trace.map Prod.fst ++ plan t.cfg t.seq
  | _ => []

/-- The far end after the first `n` of an instruction's calls. -/
def seen (n : Nat) (i : Instr) (s : State) : FarEnd := observeAll s.pinNc s.cfg 0 ((issued i s).take n) s.far

/-- The strobes an instruction adds. -/
def strobes (i : Instr) (s : State) (ws : List BusWord) : Bool := (seen (issued i s).length i s).strobes == ws

/-- The calls and milliseconds an instruction adds. -/
def cost (i : Instr) (s : State) (calls ms : Nat) : Bool :=
  (issued i s).length == calls && traceMs (succeeded (issued i s)) == ms

set_option maxRecDepth 4000

/-- Section 2.2, the corner-case bytes 0xA5 and 0x5A. -/
theorem test_w8_a5 : strobes (.transmitW8 true 0xA5) (device d8 .ready 16) [.w8 true false 0xA5] = true := by decide
theorem test_w4x2_5a :
    strobes (.transmitW4x2 true 0x5A) (device d4 .ready 22) [.w4 true false 0x5, .w4 true false 0xA] = true := by decide
/-- Section 2.2: 16 events and 4 ms, 22 events and 7 ms. -/
theorem test_w8_cost : cost (.transmitW8 false 0x00) (device d8 .ready 16) 16 4 = true := by decide
theorem test_w4x2_cost : cost (.transmitW4x2 false 0xFF) (device d4 .ready 22) 22 7 = true := by decide

/-- Section 2.3, the raw nibbles: 10 events, RS not written. -/
theorem test_raw_0011 : strobes .initializeRaw0011 (device d4 .uninit 10) [.w4 false false 0x3] = true := by decide
theorem test_raw_0010 : strobes .initializeRaw0010 (device d4 .uninit 10) [.w4 false false 0x2] = true := by decide
theorem test_raw_0011_cost : cost .initializeRaw0011 (device d4 .uninit 10) 10 3 = true := by decide
/-- Section 2.3, the handshake from `M4H`: the first raw nibble is taken as a high nibble. -/
theorem test_raw_0011_held_by_m4h :
    (seen 10 .initializeRaw0011 (device d4 .uninit 10)).mode = .m4l 0x3 := by decide

/-- Section 2.3: 0x28 in two halves, 0x38 in one strobe. -/
theorem test_function_set_4_bit :
    strobes (.initializeFunctionSet false true false) (device d4 .uninit 22) [.w4 false false 0x2, .w4 false false 0x8] =
      true := by decide
theorem test_function_set_8_bit :
    strobes (.initializeFunctionSet true true false) (device d8 .uninit 16) [.w8 false false 0x38] = true := by decide
theorem test_display_default :
    strobes .initializeDisplayDefault (device d8 .uninit 16) [.w8 false false 0x0C] = true := by decide
theorem test_entry_default : strobes .initializeEntryDefault (device d8 .uninit 16) [.w8 false false 0x06] = true := by
  decide
/-- Rule R150: the settle wait of `entry_default`, its last call, makes the phase `READY`. -/
theorem test_entry_default_makes_ready :
    next (exec .initializeEntryDefault (device d4 .desync 22))
      (fun t => t.seq.getLast? == some (.callThenReady (.delay 1)) && t.phase == .desync) = true ∧
    next (step { device d4 .desync 1 with seq := [.callThenReady (.delay 1)] })
      (fun t => t.phase == .ready && t.outcomes == [.ok]) = true := by decide

/-- Section 2.4. -/
theorem test_clear : strobes .clear (device d4 .ready 23) [.w4 false false 0x0, .w4 false false 0x1] = true := by decide
theorem test_clear_cost : cost .clear (device d4 .ready 23) 23 57 = true := by decide
theorem test_home : strobes .home (device d8 .ready 17) [.w8 false false 0x02] = true := by decide
theorem test_home_cost : cost .home (device d8 .ready 17) 17 54 = true := by decide
theorem test_set_display_mode :
    strobes (.setDisplayMode true false true) (device d4 .ready 22) [.w4 false false 0x0, .w4 false false 0xD] = true := by
  decide
theorem test_scroll_left : strobes .scrollLeft (device d8 .ready 16) [.w8 false false 0x18] = true := by decide
theorem test_scroll_right :
    strobes .scrollRight (device d4 .ready 22) [.w4 false false 0x1, .w4 false false 0xC] = true := by decide
theorem test_set_text_direction :
    strobes (.setTextDirection false true) (device d8 .ready 16) [.w8 false false 0x05] = true := by decide
/-- Section 2.5, slot 7. -/
theorem test_cgram_address :
    strobes (.createCustomCharCgramAddress 7) (device d4 .ready 22) [.w4 false false 0x7, .w4 false false 0x8] = true := by
  decide
theorem test_glyph_row :
    strobes (.createCustomCharGlyphRow 0xE0) (device d4 .ready 22) [.w4 true false 0xE, .w4 true false 0x0] = true := by
  decide
/-- Scenario S7. -/
theorem test_set_cursor :
    strobes (.setCursor 0x44) (device d4 .ready 22) [.w4 false false 0xC, .w4 false false 0x4] = true := by decide
theorem test_write_char : strobes (.writeChar 0x41) (device d4 .ready 22) [.w4 true false 0x4, .w4 true false 0x1] = true := by
  decide
theorem test_print : strobes (.print 0x0A) (device d8 .ready 16) [.w8 true false 0x0A] = true := by decide

/-- Section 2.7: a call refused in `DESYNC` makes no capability call. -/
theorem test_write_char_in_desync :
    next (exec (.writeChar 0x41) (device d4 .desync 22)) (fun t => t.refused && t.trace.isEmpty && t.phase == .desync) =
      true := by decide
/-- Section 2.7: event 11 of `write_char(0x41)` fails: one strobe before it, and the receiver holds the high nibble. -/
theorem test_write_char_before_11 :
    (seen 10 (.writeChar 0x41) (device d4 .ready 22)).strobes = [.w4 true false 0x4] ∧
      (seen 10 (.writeChar 0x41) (device d4 .ready 22)).mode = .m4l 0x4 ∧
      (issued (.writeChar 0x41) (device d4 .ready 22))[10]? = some (.delay 1) := by decide
theorem test_failed_call :
    next (step { device d4 .ready 0 with answers := [.fail], seq := [.call (.delay 1), .call (.delay 1)] })
      (fun t => t.trace == [(.delay 1, .fail)] && t.phase == .desync && t.seq.isEmpty && t.outcomes == [.ioError]) =
      true := by decide
/-- Rules R4 and R20: a step of `clear` makes one call, and leaves 22 for the steps after it. -/
theorem test_one_call_one_step :
    next (exec .clear (device d4 .ready 23)) (fun t => t.trace == [(.setLevel 1 false, .ok)] && t.seq.length == 22) =
      true := by decide

/-! ### Host calls -/

/-- The state between calls with one call asked. -/
def asking (c : HostCall) (s : State) : State := { s with requests := [⟨false, c⟩] }

/-- Section 2.6: the mapped address of a column and row, `(line_count, col, row)`. -/
def mapped (lineCount : Int) (col row : Byte) : Byte := ddramAddress { d4 with lineCount := lineCount } col row

theorem test_mapper_clamps :
    mapped 2 4 1 = 0x44 ∧ mapped 4 3 7 = 0x57 ∧ mapped 2 5 5 = 0x45 ∧ mapped 1 2 3 = 0x02 ∧ mapped 3 0 3 = 0x14 ∧
      mapped 3 1 255 = 0x15 := by decide
theorem test_mapper_wraps :
    mapped 4 0x2C 3 = 0x80 ∧ mapped 2 0xC0 1 = 0x00 ∧ mapped 2 0xFF 1 = 0x3F ∧ mapped 4 0xAD 3 = 0x01 := by decide

/-- Section 2.5: slot 7 passes, 8 fails, and outside `READY` the call is refused even for 8. -/
theorem test_slot_7 :
    next (step (asking (.createCustomChar 7 ⟨0x1F, 0x11, 0x11, 0x11, 0x11, 0x11, 0x1F, 0xE0⟩) (device d4 .ready 0)))
      (fun t => t.seq.head? == some (.word (.createCustomCharCgramAddress 7)) && t.seq.length == 9) = true := by decide
theorem test_slot_8 :
    next (step (asking (.createCustomChar 8 ⟨0, 0, 0, 0, 0, 0, 0, 0⟩) (device d4 .ready 0)))
      (fun t => t.outcomes == [.invalidArgument] && t.phase == .ready && !t.refused) = true := by decide
theorem test_slot_8_uninit :
    next (step (asking (.createCustomChar 8 ⟨0, 0, 0, 0, 0, 0, 0, 0⟩) (device d4 .uninit 0)))
      (fun t => t.outcomes == [.refused] && t.refused) = true := by decide

/-- Section 2.3, the validation and refusal corner cases. -/
theorem test_config_errors :
    next (step (asking .initializeCall (device { d4 with rsPin := 0 } .uninit 0))) (·.outcomes == [.configError]) = true ∧
    next (step (asking .initializeCall (device { d4 with lineCount := 0 } .uninit 0))) (·.outcomes == [.configError]) =
      true ∧
    next (step (asking .initializeCall (device { d4 with lineCount := 5 } .uninit 0))) (·.outcomes == [.configError]) =
      true := by decide
theorem test_unusable_pins :
    next (step (asking .initializeCall (device { d4 with dataPins := { d4.dataPins with d1 := 6 } } .uninit 0)))
      (·.outcomes == [.refused]) = true ∧
    next (step (asking .initializeCall (device { d8 with dataPins := { d8.dataPins with d7 := 0 } } .uninit 0)))
      (·.outcomes == [.refused]) = true ∧
    next (step (asking .initializeCall (device { d4 with dataPins := { d4.dataPins with d7 := 0 } } .uninit 0)))
      (fun t => t.seq.length == 14 + 10) = true := by decide
/-- Section 2.4: `print([])` makes no call and succeeds. -/
theorem test_print_nothing :
    next (step (asking (.print []) (device d4 .ready 0))) (fun t => t.outcomes == [.ok] && t.trace.isEmpty) = true := by
  decide

/-! ### Witnesses: a state and operands that meet the hypotheses of each statement -/

/-- The device with one sequencer step at hand. -/
def at_ (it : Item) (s : State) : State := { s with seq := [it] }

theorem allOk_device (d : Descriptor) (p : Phase) (n : Nat) : AllOk (device d p n) n := by
  intro k hk
  simp [answerAt, device, State.reset, hk]

theorem allOk_asking (c : HostCall) (d : Descriptor) (p : Phase) (n : Nat) : AllOk (asking c (device d p n)) n :=
  allOk_device d p n

theorem usable_d4 : pinsUsable 0 d4 := by unfold pinsUsable; decide
theorem usable_d8 : pinsUsable 0 d8 := by unfold pinsUsable; decide
theorem quiet_d4 (p : Phase) (n : Nat) : linesQuiet (device d4 p n) := ⟨rfl, .inr rfl⟩
theorem quiet_d8 (p : Phase) (n : Nat) : linesQuiet (device d8 p n) := ⟨rfl, .inl rfl⟩

theorem witness_EncodeOfDecodeIsTheWord : decode ⟨.transmit, 10, 0x3FF⟩ = .ok (.transmitW4x2 true 0xFF) := by decide

theorem early_device (d : Descriptor) (p : Phase) (n : Nat) : noEarlyRequest (device d p n) := by
  simp [noEarlyRequest, device, State.reset]

theorem witness_StepRunsTheSequencedWord :
    (at_ (.word .clear) (device d4 .ready 23)).seq = [.word .clear] ∧
      noEarlyRequest (at_ (.word .clear) (device d4 .ready 23)) := ⟨rfl, early_device d4 .ready 23⟩

theorem witness_StepRunsThePlacedTableWord :
    decodeTableWord 8 0x03 = some .initializeRaw0011 ∧ decodeTableWord 16 0x1FF = some (.writeChar 0xFF) ∧
      decodeTableWord 16 0x3E0 = none ∧ decodeTableWord 16 0x210 = some (.transmitW4x2 true 0x00) := by decide

theorem witness_IdleBlockWaits : State.reset.Idle := ⟨rfl, rfl⟩

theorem witness_OverlappingCallIsRefused :
    ∃ s : State, s.seq ≠ [] ∧ s.requests = [⟨true, .clear⟩] :=
  ⟨{ at_ (.word .home) (device d4 .ready 23) with requests := [⟨true, .clear⟩] }, by simp [at_], rfl⟩

theorem witness_DisplayWordsComplete :
    (device d4 .ready 23).phase = .ready ∧ noEarlyRequest (device d4 .ready 23) ∧
      AllOk (device d4 .ready 23) (txCount d4 + 1) ∧ AllOk (device d8 .ready 17) (txCount d8 + 1) :=
  ⟨rfl, early_device _ _ _, allOk_device d4 .ready 23, allOk_device d8 .ready 17⟩

theorem witness_AddressAndDataWordsComplete :
    (device d8 .ready 16).phase = .ready ∧ noEarlyRequest (device d8 .ready 16) ∧
      AllOk (device d8 .ready 16) (txCount d8) ∧ AllOk (device d4 .ready 22) (txCount d4) :=
  ⟨rfl, early_device _ _ _, allOk_device d8 .ready 16, allOk_device d4 .ready 22⟩

theorem witness_InitializeTransmitsComplete :
    noEarlyRequest (device d4 .uninit 22) ∧ AllOk (device d4 .uninit 22) (txCount d4) :=
  ⟨early_device _ _ _, allOk_device d4 .uninit 22⟩

theorem witness_RawNibblesComplete :
    (device d4 .uninit 10).cfg.bus8 = false ∧ noEarlyRequest (device d4 .uninit 10) ∧ AllOk (device d4 .uninit 10) 10 :=
  ⟨rfl, early_device _ _ _, allOk_device d4 .uninit 10⟩

theorem witness_TransmitFramesComplete :
    ((device d8 .ready 16).cfg.bus8 = true ∧ noEarlyRequest (device d8 .ready 16) ∧ AllOk (device d8 .ready 16) 16) ∧
      (device d4 .ready 22).cfg.bus8 = false ∧ noEarlyRequest (device d4 .ready 22) ∧ AllOk (device d4 .ready 22) 22 :=
  ⟨⟨rfl, early_device _ _ _, allOk_device d8 .ready 16⟩, rfl, early_device _ _ _, allOk_device d4 .ready 22⟩

theorem witness_WordsOfTheOtherBusWidthAreRefused : d8.bus8 = true ∧ d4.bus8 = false := by decide

theorem witness_SteadyWordOutsideReadyIsRefused :
    steadyWord (.print 0x41) = true ∧ (device d4 .uninit 0).phase ≠ .ready ∧ (device d4 .desync 0).phase ≠ .ready := by
  decide

/-- The 11th call of `write_char(0x41)` on a 4-bit bus fails, as in section 2.7. -/
def failing (n : Nat) (s : State) : State := { s with answers := List.replicate n .ok ++ [.fail] }

theorem allOk_failing (d : Descriptor) (p : Phase) (m n : Nat) : AllOk (failing n (device d p m)) n := by
  intro k hk
  simp [answerAt, failing, device, State.reset, List.getElem?_append, hk]

theorem witness_FirstFailureEndsTheWord :
    canRun (.writeChar 0x41) (failing 10 (device d4 .ready 0)) ∧ noEarlyRequest (failing 10 (device d4 .ready 0)) ∧
      wordRef d4 (.writeChar 0x41) =
        (wordRef d4 (.writeChar 0x41)).take 10 ++ .delay 1 :: (wordRef d4 (.writeChar 0x41)).drop 11 ∧
      AllOk (failing 10 (device d4 .ready 0)) 10 ∧ answerAt (failing 10 (device d4 .ready 0)) 10 = .fail :=
  ⟨⟨by simp [busWidthOf], fun _ => rfl⟩, early_device d4 .ready 0, by decide, allOk_failing d4 .ready 0 10, rfl⟩

theorem witness_EightBitTransmitIsOneStrobe :
    (device d8 .ready 16).cfg.bus8 = true ∧ pinsUsable 0 d8 ∧ linesQuiet (device d8 .ready 16) ∧
      noEarlyRequest (device d8 .ready 16) ∧ AllOk (device d8 .ready 16) 16 :=
  ⟨rfl, usable_d8, quiet_d8 _ _, early_device _ _ _, allOk_device d8 .ready 16⟩

theorem witness_FourBitTransmitIsTwoStrobesHighFirst :
    (device d4 .ready 22).cfg.bus8 = false ∧ pinsUsable 0 d4 ∧ linesQuiet (device d4 .ready 22) ∧
      noEarlyRequest (device d4 .ready 22) ∧ AllOk (device d4 .ready 22) 22 :=
  ⟨rfl, usable_d4, quiet_d4 _ _, early_device _ _ _, allOk_device d4 .ready 22⟩

theorem witness_RawNibbleIsOneStrobe :
    (device d4 .uninit 10).cfg.bus8 = false ∧ pinsUsable 0 d4 ∧ linesQuiet (device d4 .uninit 10) ∧
      (device d4 .uninit 10).far.lines.rs = some false ∧ noEarlyRequest (device d4 .uninit 10) ∧
      AllOk (device d4 .uninit 10) 10 :=
  ⟨rfl, usable_d4, quiet_d4 _ _, rfl, early_device _ _ _, allOk_device d4 .uninit 10⟩

theorem witness_AlignedReceiverGetsTheTableWord :
    steadyWord .clear = true ∧ (device d4 .ready 23).phase = .ready ∧ pinsUsable 0 d4 ∧
      linesQuiet (device d4 .ready 23) ∧ aligned (device d4 .ready 23) ∧ noEarlyRequest (device d4 .ready 23) ∧
      AllOk (device d4 .ready 23) (wordRef d4 .clear).length ∧ aligned (device d8 .ready 17) :=
  ⟨rfl, rfl, usable_d4, quiet_d4 _ _, rfl, early_device _ _ _, allOk_device d4 .ready 23, rfl⟩

/-- A device before step 2 with E at the given level. -/
def beforeSetup (en : Option Level) : State :=
  { device d4 .desync 14 with
    seq := (setupRef 0 d4).map .call ++ [.call (.delay 50)]
    far := { lines := { low with en := en }, strobes := [], mode := .m4h, delivered := [] } }

/-- E low, E high and E unknown: the three cases. -/
theorem witness_SetupStrobesOnlyIfEnableWasHigh (en : Option Level) :
    (beforeSetup en).seq = (setupRef (beforeSetup en).pinNc (beforeSetup en).cfg).map .call ++ [.call (.delay 50)] ∧
      noEarlyRequest (beforeSetup en) ∧ pinsUsable (beforeSetup en).pinNc (beforeSetup en).cfg ∧
      AllOk (beforeSetup en) (setupRef 0 d4).length ∧ (beforeSetup en).far.lines.en = en :=
  ⟨rfl, early_device d4 .desync 14, usable_d4, allOk_device d4 .desync 14, rfl⟩

/-- Each cause of a configuration error at its boundary, and the boundary values that pass. -/
theorem witness_InvalidDescriptorIsAConfigError :
    descriptorInvalid 0 { d4 with rsPin := 0 } = true ∧ descriptorInvalid 0 { d4 with enPin := 0 } = true ∧
      descriptorInvalid 0 { d4 with lineCount := 0 } = true ∧ descriptorInvalid 0 { d4 with lineCount := 5 } = true ∧
      descriptorInvalid 0 { d4 with lineCount := 1 } = false ∧ descriptorInvalid 0 { d4 with lineCount := 4 } = false ∧
      (asking .initializeCall (device d4 .uninit 0)).seq = [] ∧
      (asking .initializeCall (device d4 .uninit 0)).requests = [⟨false, .initializeCall⟩] := by decide

theorem witness_InitializeStartsUnlessPinsAreUnusable :
    ¬(d4.rsPin = 0 ∨ d4.enPin = 0 ∨ d4.lineCount < 1 ∨ 4 < d4.lineCount) ∧
      (setupPinsRef 0 d4).Nodup ∧ 0 ∉ usedDataPins d4 ∧ ¬(setupPinsRef 0 { d4 with enPin := 1 }).Nodup ∧
      0 ∈ usedDataPins { d8 with dataPins := { d8.dataPins with d7 := 0 } } ∧
      0 ∉ usedDataPins { d4 with dataPins := { d4.dataPins with d7 := 0 } } := by decide

theorem witness_SetupAndWaitsComplete :
    noEarlyRequest (beforeSetup none) ∧
      (beforeSetup none).seq = (setupRef 0 d4).map .call ++ [.call (.delay 50)] ∧
      AllOk (beforeSetup none) (setupRef 0 d4).length ∧
      (at_ (.call (.delay 50)) (device d4 .uninit 1)).seq = [.call (.delay 50)] ∧
      AllOk (at_ (.call (.delay 50)) (device d4 .uninit 1)) 1 :=
  ⟨early_device d4 .desync 14, rfl, allOk_device d4 .desync 14, rfl, allOk_device d4 .uninit 1⟩

theorem witness_FourBitInitializeLocksTheBus :
    asked .initializeCall [] (asking .initializeCall (device d4 .uninit 123)) ∧ pinsUsable 0 d4 ∧ d4.bus8 = false ∧
      AllOk (asking .initializeCall (device d4 .uninit 123)) (initializeRef 0 d4).length :=
  ⟨⟨rfl, ⟨false, rfl⟩, by simp⟩, usable_d4, rfl, allOk_asking _ d4 .uninit 123⟩

theorem witness_EightBitInitializeLocksTheBus :
    asked .initializeCall [] (asking .initializeCall (device d8 .desync 119)) ∧ pinsUsable 0 d8 ∧ d8.bus8 = true ∧
      AllOk (asking .initializeCall (device d8 .desync 119)) (initializeRef 0 d8).length :=
  ⟨⟨rfl, ⟨false, rfl⟩, by simp⟩, usable_d8, rfl, allOk_asking _ d8 .desync 119⟩

theorem witness_AcceptedCallIssuesItsReferenceTrace :
    asked (.print [0x48, 0x69]) [] (asking (.print [0x48, 0x69]) (device d4 .ready 44)) ∧
      accepted (.print [0x48, 0x69]) (device d4 .ready 44) ∧
      accepted (.createCustomChar 7 ⟨0, 0, 0, 0, 0, 0, 0, 0⟩) (device d4 .ready 198) ∧
      accepted .initializeCall (device d4 .uninit 123) ∧
      AllOk (asking (.print [0x48, 0x69]) (device d4 .ready 44)) (callRef 0 d4 (.print [0x48, 0x69])).length :=
  ⟨⟨rfl, ⟨false, rfl⟩, by simp⟩, rfl, ⟨rfl, by decide⟩, usable_d4, allOk_asking _ d4 .ready 44⟩

/-- Program P3: the 30th call of `print([0x41, 0x42])` fails. -/
theorem witness_AcceptedCallStopsAtItsFirstFailure :
    ∃ before after e, callRef 0 d4 (.print [0x41, 0x42]) = before ++ e :: after ∧ before.length = 29 ∧
      asked (.print [0x41, 0x42]) [] (failing 29 (asking (.print [0x41, 0x42]) (device d4 .ready 0))) ∧
      accepted (.print [0x41, 0x42]) (failing 29 (device d4 .ready 0)) ∧
      AllOk (failing 29 (asking (.print [0x41, 0x42]) (device d4 .ready 0))) before.length ∧
      answerAt (failing 29 (device d4 .ready 0)) 29 = .fail :=
  ⟨(callRef 0 d4 (.print [0x41, 0x42])).take 29, (callRef 0 d4 (.print [0x41, 0x42])).drop 30, .setLevel 3 true,
    by decide, by decide, ⟨rfl, ⟨false, rfl⟩, by simp⟩, rfl, allOk_failing d4 .ready 0 29, rfl⟩

/-- The glyph slot at both sides of its bound: accepted, and not. -/
theorem witness_ReferenceTraceCountsAndTimes :
    asked (.createCustomChar 7 ⟨0, 0, 0, 0, 0, 0, 0, 0⟩) []
        (asking (.createCustomChar 7 ⟨0, 0, 0, 0, 0, 0, 0, 0⟩) (device d4 .ready 198)) ∧
      accepted (.createCustomChar 7 ⟨0, 0, 0, 0, 0, 0, 0, 0⟩) (device d4 .ready 198) ∧
      AllOk (asking (.createCustomChar 7 ⟨0, 0, 0, 0, 0, 0, 0, 0⟩) (device d4 .ready 198)) 198 ∧
      asked (.createCustomChar 8 ⟨0, 0, 0, 0, 0, 0, 0, 0⟩) []
        (asking (.createCustomChar 8 ⟨0, 0, 0, 0, 0, 0, 0, 0⟩) (device d4 .ready 0)) ∧
      ¬accepted (.createCustomChar 8 ⟨0, 0, 0, 0, 0, 0, 0, 0⟩) (device d4 .ready 0) :=
  ⟨⟨rfl, ⟨false, rfl⟩, by simp⟩, ⟨rfl, by decide⟩, allOk_asking _ d4 .ready 198, ⟨rfl, ⟨false, rfl⟩, by simp⟩,
    fun h => absurd h.2 (by decide)⟩

theorem witness_SteadyCallOutsideReadyIsRefused :
    (asking (.setCursor 0 0) (device d4 .desync 0)).seq = [] ∧
      (asking (.setCursor 0 0) (device d4 .desync 0)).requests = [⟨false, .setCursor 0 0⟩] ∧
      HostCall.setCursor 0 0 ≠ .initializeCall ∧ (device d4 .desync 0).phase ≠ .ready := by decide

theorem witness_BadSlotIsAnInvalidArgument :
    (device d4 .ready 0).phase = .ready ∧ 7 < (8 : Byte).toNat ∧ 7 < (255 : Byte).toNat ∧ (7 : Byte).toNat ≤ 7 ∧
      (asking (.createCustomChar 8 ⟨0, 0, 0, 0, 0, 0, 0, 0⟩) (device d4 .ready 0)).seq = [] := by decide

theorem witness_RowClampIsTheMinimum :
    (1 : Int) ≤ 1 ∧ (1 : Int) ≤ 4 ∧ (4 : Int) ≤ 4 ∧ clampRow 1 255 = 0 ∧ clampRow 4 3 = 3 ∧ clampRow 4 4 = 3 ∧
      clampRow 2 5 = 1 ∧ (asking (.setCursor 0 255) (device d4 .ready 0)).seq = [] ∧ 1 ≤ d4.lineCount ∧
      d4.lineCount ≤ 4 := by decide

theorem witness_SetCursorSendsTheMappedAddress :
    asked (.setCursor 0xC0 1) [] (asking (.setCursor 0xC0 1) (device d4 .ready 22)) ∧
      (device d4 .ready 22).phase = .ready ∧ 1 ≤ d4.lineCount ∧ d4.lineCount ≤ 4 ∧
      AllOk (asking (.setCursor 0xC0 1) (device d4 .ready 22)) (txCount d4) :=
  ⟨⟨rfl, ⟨false, rfl⟩, by simp⟩, rfl, by decide, by decide, allOk_asking _ d4 .ready 22⟩

theorem witness_PrintIsWriteCharOfEachByte :
    (device d4 .ready 44).seq = [] ∧ (device d4 .ready 44).phase = .ready ∧
      AllOk (device d4 .ready 44) ([0x41, 0x42].length * txCount d4) := ⟨rfl, rfl, allOk_device d4 .ready 44⟩

/-- A step that makes a call, for `StepKeepsTheDescriptor`, `StepAppendsAnsweredCalls`, `EveryCallEndsExactlyOnce` and
`FarEndIsNeverRead`. -/
theorem witness_of_a_step :
    ∃ t, step (at_ (.word .clear) (device d4 .ready 23)) = .next t ∧ t.trace.length = 1 := ⟨_, rfl, by decide⟩

/-- A refused call with the mark clear, one with the mark set already, and a word that is refused. -/
theorem witness_RefusalMarkIsSticky :
    (∃ t, step (asking .clear (device d4 .uninit 0)) = .next t ∧ (asking .clear (device d4 .uninit 0)).refused = false ∧
      t.refused = true ∧ t.outcomes = [.refused]) ∧
    (∃ t, step (asking .clear { device d4 .uninit 0 with refused := true }) = .next t ∧ t.outcomes = [.refused]) ∧
    ∃ t, step (at_ (.word .clear) (device d4 .desync 0)) = .next t ∧ t.outcomes = [.refused] :=
  ⟨⟨_, rfl, rfl, rfl, rfl⟩, ⟨_, rfl, rfl⟩, _, rfl, rfl⟩

/-- The phase changes by the last call of `initialize`, and by a failed call. -/
theorem witness_PhaseChangesOnlyAsListed :
    (∃ t, step (at_ (.callThenReady (.delay 1)) (device d4 .uninit 1)) = .next t ∧ t.phase = .ready) ∧
      (∃ t, step (failing 0 (at_ (.word .clear) (device d4 .ready 0))) = .next t ∧ t.phase = .desync) ∧
      ∃ t, step (at_ (.word .initializeEntryDefault) (device d4 .uninit 22)) = .next t ∧
        .callThenReady (.delay 1) ∈ t.seq :=
  ⟨⟨_, rfl, by decide⟩, ⟨_, rfl, by decide⟩, _, rfl, by decide⟩

theorem witness_SoundSequencerNeverStops : SequencerSound (at_ (.word .clear) (device d4 .ready 23)) := by
  simp [SequencerSound, at_, device, steadyWord, Instr.wellFormed]

theorem inFrames_d4 : InFrames (at_ (.word .clear) (device d4 .ready 23)) :=
  ⟨usable_d4, .inr rfl, false, rfl, by
    show keepsFrames d4 false (plan d4 [.word .clear])
    simp [plan, itemRef, wordRef, txRef, nibbleRef, pulseRef, keepsFrames, d4, descriptorAtReset]
    decide⟩

theorem inSetup_d4 : InSetup (beforeSetup (some true)) :=
  ⟨usable_d4, setupRef 0 d4, [.call (.delay 50)], by decide, rfl, List.suffix_refl _, .inr (by decide), .inr (.inl rfl), rfl⟩

/-- The three cases of `BusQuiet`, for `StepKeepsTheBusQuiet`, `StepTouchesOnlyItsPins` and `NoReadWordOccurs`. -/
theorem witness_StepKeepsTheBusQuiet :
    BusQuiet (at_ (.word .clear) (device d4 .ready 23)) ∧ BusQuiet (beforeSetup (some true)) ∧
      BusQuiet (asking .initializeCall (device d4 .uninit 0)) ∧
      (∃ t, step (at_ (.word .clear) (device d4 .ready 23)) = .next t ∧ t.trace = [(.setLevel 1 false, .ok)]) ∧
      ∃ t, step (beforeSetup (some true)) = .next t ∧ t.trace = [(.setDir 1, .ok)] :=
  ⟨.inr (.inr inFrames_d4), .inr (.inl inSetup_d4), .inl ⟨rfl, by decide⟩, ⟨_, rfl, rfl⟩, _, rfl, rfl⟩

/-- RW is connected, and a step strobes: the first call that drives E low, from high. -/
theorem witness_NoReadWordOccurs :
    ∃ s : State, BusQuiet s ∧ s.cfg.rwPin ≠ s.pinNc ∧ ∃ t, step s = .next t ∧ t.far.strobes ≠ [] :=
  ⟨{ beforeSetup (some true) with seq := [.call (.setLevel 3 false)] },
    .inr (.inr ⟨usable_d4, .inr rfl, true, rfl, by
      show keepsFrames d4 true [.setLevel 3 false]
      simp [keepsFrames, d4, descriptorAtReset]⟩), by decide, _, rfl, by decide⟩

/-- The device in step 2 of `initialize`: one pin driven low, the other lines unknown. -/
def inSetup : State :=
  { device d4 .uninit 3 with
    trace := [(.setDir 1, .ok), (.setLevel 1 false, .ok)]
    seq := [.call (.setDir 2)]
    far := { State.reset.far with lines := { State.reset.far.lines with rs := some false } } }

theorem witness_StepKeepsLinesAgreeing : LinesAgree inSetup ∧ ∃ t, step inSetup = .next t ∧ t.trace.length = 3 := by
  refine ⟨⟨?_, ?_, ?_, ?_, ?_, ?_, ?_, ?_, ?_, ?_, ?_⟩, _, rfl, by decide⟩ <;> (intro v hv; cases hv <;> decide)

theorem witness_RunningCallComesToItsEnd : SequencerSound (at_ (.word (.print 0x41)) (device d8 .ready 16)) := by
  simp [SequencerSound, at_, device, steadyWord, Instr.wellFormed]

/-- A trace of `print([0x41])` whose first wait is longer conforms; and the call is asked, accepted and not failed. -/
theorem witness_ConformingTraceIsNoFaster :
    asked (.print [0x41]) [] (asking (.print [0x41]) (device d8 .ready 16)) ∧
      accepted (.print [0x41]) (device d8 .ready 16) ∧
      AllOk (asking (.print [0x41]) (device d8 .ready 16)) (callRef 0 d8 (.print [0x41])).length ∧
      traceConforms (((callRef 0 d8 (.print [0x41])).set 10 (.delay 7)).map fun e => (e, .ok))
        (succeeded (callRef 0 d8 (.print [0x41]))) :=
  ⟨⟨rfl, ⟨false, rfl⟩, by simp⟩, rfl, allOk_asking _ d8 .ready 16, by
    simp [traceConforms, eventConforms, callRef, txRef, d8, byteRef, pulseRef, succeeded]⟩

/-- A call answered `ok`, a delay and a call on E answered `fail`. -/
theorem witness_OneCallIsOneStep :
    (at_ (.call (.setDir 1)) (device d4 .uninit 1)).seq = [.call (.setDir 1)] ∧
      answerAt (at_ (.call (.setDir 1)) (device d4 .uninit 1)) 0 = .ok ∧
      noEarlyRequest (at_ (.call (.setDir 1)) (device d4 .uninit 1)) ∧
      answerAt (failing 0 (at_ (.call (.delay 1)) (device d4 .uninit 0))) 0 = .fail ∧
      answerAt (failing 0 (at_ (.call (.setLevel 3 false)) (device d4 .uninit 0))) 0 = .fail :=
  ⟨rfl, rfl, early_device d4 .uninit 1, rfl, rfl⟩

/-- A transmit with a wait after it and one with none. -/
theorem witness_TransmitWordsStrobeTheirByte :
    canRun .clear (device d4 .ready 23) ∧ wordRef d4 .clear = txRef d4 false 0x01 ++ [.delay 50] ∧
      wordRef d8 (.transmitW8 true 0xA5) = txRef d8 true 0xA5 ++ [] ∧
      canRun (.transmitW8 true 0xA5) (device d8 .uninit 16) ∧ noEarlyRequest (device d4 .ready 23) ∧
      pinsUsable 0 d4 ∧ linesQuiet (device d4 .ready 23) ∧ AllOk (device d4 .ready 23) (wordRef d4 .clear).length :=
  ⟨⟨by simp [busWidthOf], fun _ => rfl⟩, rfl, by decide, ⟨by simp [busWidthOf, device, d8], by simp [steadyWord]⟩,
    early_device d4 .ready 23, usable_d4, quiet_d4 _ _, allOk_device d4 .ready 23⟩

/-- The transmit splits at every place of the frame, and with it at each boundary the statement names. -/
theorem witness_FailurePlaceFixesTheStrobes :
    (∀ n < 22, txRef d4 true 0x41 = (txRef d4 true 0x41).take n ++
      (txRef d4 true 0x41).getD n (.delay 0) :: (txRef d4 true 0x41).drop (n + 1) ∧
      answerAt (failing n (device d4 .ready 0)) n = .fail) ∧
    (∀ n < 16, txRef d8 true 0x41 = (txRef d8 true 0x41).take n ++
      (txRef d8 true 0x41).getD n (.delay 0) :: (txRef d8 true 0x41).drop (n + 1) ∧
      answerAt (failing n (device d8 .ready 0)) n = .fail) ∧
    canRun (.writeChar 0x41) (failing 10 (device d4 .ready 0)) ∧ AllOk (failing 10 (device d4 .ready 0)) 10 ∧
    pinsUsable 0 d4 ∧ linesQuiet (failing 10 (device d4 .ready 0)) ∧ (device d4 .ready 0).far.mode = .m4h :=
  ⟨by decide, by decide, ⟨by simp [busWidthOf], fun _ => rfl⟩, allOk_failing d4 .ready 0 10, usable_d4,
    quiet_d4 .ready 0,
    rfl⟩

/-- E is high, and the calls left begin with a wait. -/
theorem witness_OnlyEnableIsWrittenWhileItIsHigh :
    ∃ s : State, InFrames s ∧ s.far.lines.en = some true ∧ ∃ t, step s = .next t ∧ t.trace = [(.delay 1, .ok)] :=
  ⟨{ beforeSetup (some true) with seq := [.call (.delay 1), .call (.setLevel 3 false)] },
    ⟨usable_d4, .inr rfl, true, rfl, by
      show keepsFrames d4 true [.delay 1, .setLevel 3 false]
      simp [keepsFrames, d4, descriptorAtReset]⟩, rfl, _, rfl, rfl⟩

end Sys2Proof.Tests
end

section
/-! SUPPORT. What reaches the bus: the proofs of the statements of 30_encoding.md about transmits and read words. -/

namespace Sys2Proof.Machine

/-! ### A transmit from a quiet bus -/

/-- A word that is one transmit, run from E and RW low with every call answered `ok`: its strobes, and lines that still
carry its byte with E and RW low. -/
theorem exec_transmit_strobes {i : Instr} {s : State} {rs : Level} {v : Byte} (hi : wordRef s.cfg i = txRef s.cfg rs v)
    (hc : canRun i s) (hp : pinsUsable s.pinNc s.cfg) (hq : linesQuiet s) (he : noEarlyRequest s)
    (ha : AllOk s (txCount s.cfg)) :
    ∃ u t, exec i s = .next u ∧ run (txCount s.cfg - 1) u = .next t ∧
      t.far.strobes = s.far.strobes ++ txWords s.cfg rs v ∧ linesQuiet t ∧
      Carries s.pinNc s.cfg rs v t.far.lines := by
  have hlen : (wordRef s.cfg i).length = txCount s.cfg := by rw [hi, txRef_length]
  obtain ⟨u, hu, hrun⟩ := exec_run hc he (by rwa [hlen])
  rw [hlen] at hrun
  obtain ⟨hen, hrw⟩ := hq
  obtain ⟨l, hl, hcarries, hlow⟩ :=
    observeAll_tx (k := s.trace.length) (v := v) (rs := rs) (framePins_of_usable hp) hrw hen
  refine ⟨u, _, hu, hrun, ?_⟩
  simp only [ranItem, itemRef, hi, hl, linesQuiet]
  exact ⟨trivial, ⟨hlow, hcarries.rw⟩, hcarries⟩

/-- Settles O18: the transmit of `exec_transmit_strobes` on an 8-bit bus, whose lines carry the byte bit by bit. -/
theorem eightBitTransmitIsOneStrobe : Obligations.EightBitTransmitIsOneStrobe := by
  intro s rs v hb hp hq he ha
  have hcount : txCount s.cfg = 16 := by simp [txCount, hb]
  have hc : canRun (.transmitW8 rs v) s := by simp [canRun, busWidthOf, steadyWord, hb]
  obtain ⟨u, t, hu, hrun, hstrobes, hquiet, hcarries⟩ :=
    exec_transmit_strobes (rs := rs) (v := v) rfl hc hp hq he (by rwa [hcount])
  obtain ⟨h0, h1, h2, h3⟩ := hcarries.low
  rw [hcount] at hrun
  rw [txWords, if_pos hb] at hstrobes
  exact ⟨u, t, hu, hrun, hstrobes, hquiet, h0, h1, h2, h3, hcarries.high hb⟩

/-- Settles O19: the transmit of `exec_transmit_strobes` on a 4-bit bus. -/
theorem fourBitTransmitIsTwoStrobesHighFirst : Obligations.FourBitTransmitIsTwoStrobesHighFirst := by
  intro s rs v hb hp hq he ha
  have hcount : txCount s.cfg = 22 := by simp [txCount, hb]
  have hc : canRun (.transmitW4x2 rs v) s := by simp [canRun, busWidthOf, steadyWord, hb]
  obtain ⟨u, t, hu, hrun, hstrobes, hquiet, _⟩ :=
    exec_transmit_strobes (rs := rs) (v := v) rfl hc hp hq he (by rwa [hcount])
  rw [hcount] at hrun
  rw [txWords, if_neg (by simp [hb])] at hstrobes
  exact ⟨u, t, hu, hrun, hstrobes, hquiet⟩

/-! ### One capability call of the sequencer -/

@[simp] theorem afterCall_trace (ready : Bool) (e : Event) (q : List Item) (s : State) :
    (afterCall ready e q s).trace = s.trace ++ [(e, answerAt s s.trace.length)] := by
  unfold afterCall; split <;> simp [*]

@[simp] theorem afterCall_far (ready : Bool) (e : Event) (q : List Item) (s : State) :
    (afterCall ready e q s).far = s.far.observe s.pinNc s.cfg s.trace.length e (answerAt s s.trace.length) := by
  unfold afterCall; split <;> simp [*]

/-- A step that answers a next state leaves the trace and the far end alone, or makes the first of the calls left. -/
theorem step_silent_or_first_of_plan {s t : State} (h : step s = .next t) :
    Silent s t ∨ ∃ e es, plan s.cfg s.seq = e :: es ∧ t.trace = s.trace ++ [(e, answerAt s s.trace.length)] ∧
      t.far = s.far.observe s.pinNc s.cfg s.trace.length e (answerAt s s.trace.length) := by
  rcases step_next_cases h with hs | ⟨it, rest, x, q, e, ready, hs, _, _, hx, hxe, rfl⟩
  · exact .inl hs
  · exact .inr ⟨e, plan s.cfg q, plan_after hs hx hxe, by simp, by simp⟩

/-! ### No call of a quiet bus makes a read word -/

/-- A call that makes no read word: it does not drive a connected RW high, and RW is low if it touches E (rule R99). -/
def MakesNoRead (nc : PinId) (d : Descriptor) (f : FarEnd) (e : Event) : Prop :=
  (d.rwPin ≠ nc → e ≠ .setLevel d.rwPin true) ∧ (eventPin e = some d.enPin → RwLow nc d f)

/-- Every strobe of a call that makes no read word carries RW low. -/
theorem MakesNoRead.strobes_rw {nc : PinId} {d : Descriptor} {f : FarEnd} {e : Event} (h : MakesNoRead nc d f e)
    (k : Nat) (a : Answer) :
    ∃ ws, (f.observe nc d k e a).strobes = f.strobes ++ ws ∧ ∀ w ∈ ws, w.rw = false := by
  rcases observe_strobes nc d k e a f with hs | ⟨hen, hs⟩
  · exact ⟨[], by simp [hs], by simp⟩
  · exact ⟨_, hs, by simp [busWord_rw (h.2 hen)]⟩

/-- A connected RW is on no used data pin. -/
theorem FramePins.rw_not_data {nc : PinId} {d : Descriptor} (hp : FramePins nc d) (hnc : d.rwPin ≠ nc) :
    d.rwPin ∉ usedDataPins d := by
  intro hmem
  obtain ⟨j, hj, hjp⟩ := List.mem_map.1 hmem
  exact (hp.rw hnc).2.2 j (by simpa using hj) hjp

/-- The first of calls that keep rule R132 makes no read word: it writes E, RS or a data line, while RW is low. -/
theorem makesNoRead_of_keepsFrames {nc : PinId} {d : Descriptor} {f : FarEnd} {en : Level} {e : Event} {es : List Event}
    (hp : FramePins nc d) (hrw : RwLow nc d f) (hk : keepsFrames d en (e :: es)) : MakesNoRead nc d f e := by
  refine ⟨fun hnc => ?_, fun _ => hrw⟩
  obtain ⟨hrs, hen, _⟩ := hp.rw hnc
  rintro rfl
  simp only [keepsFrames, if_neg hen] at hk
  obtain ⟨_, hpin | hpin, _⟩ := hk
  · exact hrs hpin
  · exact hp.rw_not_data hnc hpin

/-- The pin setup touches only its pins and drives none high (rule R143). -/
theorem mem_setup_pins {ps : List PinId} {e : Event} (h : e ∈ ps.flatMap fun p => [.setDir p, .setLevel p false]) :
    (∃ p ∈ ps, eventPin e = some p) ∧ ∀ q, e ≠ .setLevel q true := by
  obtain ⟨p, hp, hep⟩ := List.mem_flatMap.1 h
  simp only [List.mem_cons, List.not_mem_nil, or_false] at hep
  rcases hep with rfl | rfl
  · exact ⟨⟨p, hp, rfl⟩, by simp⟩
  · exact ⟨⟨p, hp, rfl⟩, by simp⟩

theorem enPin_not_mem_pinsBeforeEnable {nc : PinId} {d : Descriptor} (hp : FramePins nc d) :
    d.enPin ∉ pinsBeforeEnable nc d := by
  by_cases hnc : d.rwPin = nc
  · simp [pinsBeforeEnable, hnc, hp.rs_en.symm]
  · simp [pinsBeforeEnable, hnc, hp.rs_en.symm, (hp.rw hnc).2.1.symm]

/-- Once the pin setup has come to E, the calls left of it touch only E and the data pins, which stand after RS and RW
(rule R143). -/
theorem setup_at_enable_subset {nc : PinId} {d : Descriptor} {e : Event} {es : List Event} (hp : FramePins nc d)
    (hsuf : e :: es <:+ setupRef nc d) (he : eventPin e = some d.enPin) :
    e :: es ⊆ (d.enPin :: usedDataPins d).flatMap fun p => [.setDir p, .setLevel p false] := by
  obtain ⟨done, hdone⟩ := hsuf
  rw [setupRef, setupPinsRef_eq, List.flatMap_append] at hdone
  rcases List.append_eq_append_iff.1 hdone with ⟨before, hbefore, hleft⟩ | ⟨after, _, hleft⟩
  · rcases before with _ | ⟨b, before⟩
    · simp [hleft]
    · obtain ⟨rfl, _⟩ := List.cons.inj hleft
      obtain ⟨⟨p, hpin, hep⟩, _⟩ :=
        mem_setup_pins (ps := pinsBeforeEnable nc d) (e := e) (by rw [hbefore]; simp)
      obtain rfl : d.enPin = p := Option.some.inj (he.symm.trans hep)
      exact absurd hpin (enPin_not_mem_pinsBeforeEnable hp)
  · rw [hleft]
    exact List.subset_append_right _ _

/-- Once the pin setup has come to E, a connected RW has been driven low. -/
theorem rw_done_of_setup_at_enable {nc : PinId} {d : Descriptor} {e : Event} {es : List Event} (hp : FramePins nc d)
    (hsuf : e :: es <:+ setupRef nc d) (he : eventPin e = some d.enPin) (hnc : d.rwPin ≠ nc) :
    .setLevel d.rwPin false ∉ e :: es := by
  intro hmem
  obtain ⟨⟨p, hpin, hrw⟩, _⟩ := mem_setup_pins (setup_at_enable_subset hp hsuf he hmem)
  obtain rfl : d.rwPin = p := Option.some.inj hrw
  rcases List.mem_cons.1 hpin with hen | hdata
  · exact (hp.rw hnc).2.1 hen
  · exact hp.rw_not_data hnc hdata

/-- The first call left of the pin setup makes no read word: it drives nothing high, and RW is low at E. -/
theorem makesNoRead_of_setup {nc : PinId} {d : Descriptor} {f : FarEnd} {e : Event} {es : List Event}
    (hp : FramePins nc d) (hsuf : e :: es <:+ setupRef nc d)
    (hrw : d.rwPin = nc ∨ f.lines.rw = some false ∨ .setLevel d.rwPin false ∈ e :: es) :
    MakesNoRead nc d f e := by
  refine ⟨fun _ => ?_, fun he => ?_⟩
  · exact (mem_setup_pins (hsuf.subset List.mem_cons_self)).2 _
  · by_cases hnc : d.rwPin = nc
    · exact .inl hnc
    · exact .inr ((hrw.resolve_left hnc).resolve_right (rw_done_of_setup_at_enable hp hsuf he hnc))

/-- The first call left on a quiet bus makes no read word, in the pin setup and after it. -/
theorem makesNoRead_of_busQuiet {s : State} {e : Event} {es : List Event} (h : BusQuiet s)
    (hplan : plan s.cfg s.seq = e :: es) : MakesNoRead s.pinNc s.cfg s.far e := by
  rcases h with ⟨hseq, _⟩ | ⟨hp, left, rest, hne, hseq, hsuf, _, hrw, _⟩ | ⟨hp, hrw, en, _, hk⟩
  · simp [hseq] at hplan
  · obtain ⟨e', left, rfl⟩ := List.exists_cons_of_ne_nil hne
    rw [hseq, plan_append, plan_calls, List.cons_append] at hplan
    obtain ⟨rfl, _⟩ := List.cons.inj hplan
    exact makesNoRead_of_setup (framePins_of_usable hp) hsuf hrw
  · rw [hplan] at hk
    exact makesNoRead_of_keepsFrames (framePins_of_usable hp) hrw hk

/-- Settles O46: a step is silent or makes the first of the calls left, which makes no read word. -/
theorem noReadWordOccurs : Obligations.NoReadWordOccurs := by
  intro s t hq hstep
  rcases step_silent_or_first_of_plan hstep with ⟨htrace, hfar, _⟩ | ⟨e, es, hplan, htrace, hfar⟩
  · exact ⟨⟨[], by simp [htrace], by simp⟩, [], by simp [hfar], by simp⟩
  · have hread := makesNoRead_of_busQuiet hq hplan
    refine ⟨⟨_, htrace, ?_⟩, ?_⟩
    · simpa using hread.1
    · rw [hfar]
      exact hread.strobes_rw _ _

end Sys2Proof.Machine
end

section
/-! SUPPORT. Step 1 of `initialize`: the proof of the statement of 41_init_sequencer.md about an invalid descriptor. -/

namespace Sys2Proof.Machine

theorem descriptorInvalid_iff (nc : PinId) (d : Descriptor) :
    descriptorInvalid nc d = true ↔ d.rsPin = nc ∨ d.enPin = nc ∨ d.lineCount < 1 ∨ 4 < d.lineCount := by
  simp [descriptorInvalid, or_assoc]

theorem startCall_initialize_of_descriptorInvalid {s : State} (h : descriptorInvalid s.pinNc s.cfg = true) :
    startCall .initializeCall s = raiseConfigError s := by
  simp [startCall, callInitialize, h]

/-- A call that begins has not ended, or has returned `Ok` (rule R176). -/
theorem beginCall_not_configError (items : List Item) (s : State) :
    (beginCall items s).outcomes ≠ s.outcomes ++ [.configError] := by
  by_cases h : items = [] <;> simp [beginCall, h]

/-- A call ends in `ConfigError` when it starts only as `initialize` on an invalid descriptor (rules R141, R201). -/
theorem startCall_configError_iff (c : HostCall) (s : State) :
    (startCall c s).outcomes = s.outcomes ++ [.configError] ↔
      c = .initializeCall ∧ descriptorInvalid s.pinNc s.cfg = true := by
  constructor
  · intro h
    rcases startCall_cases c s with ⟨_, _, hrefused⟩ | ⟨hc, hd, _⟩ | ⟨_, _, _, hrefused⟩ | ⟨_, _, hbegun⟩ |
      ⟨_, _, _, _, _, hinvalid⟩ | ⟨_, _, _, _, hbegun⟩
    · simp [hrefused] at h
    · exact ⟨hc, hd⟩
    · simp [hrefused] at h
    · exact absurd (hbegun ▸ h) (beginCall_not_configError _ s)
    · simp [hinvalid] at h
    · exact absurd (hbegun ▸ h) (beginCall_not_configError _ s)
  · rintro ⟨rfl, hd⟩
    simp [startCall_initialize_of_descriptorInvalid hd]

/-- Settles O23: the step starts the call, and starting it ends in `ConfigError` only by `startCall_configError_iff`. -/
theorem invalidDescriptorIsAConfigError : Obligations.InvalidDescriptorIsAConfigError := by
  intro s early c rs hs hr
  rw [step_start hs hr, ← descriptorInvalid_iff]
  refine ⟨?_, ?_⟩
  · rintro rfl hd
    exact congrArg _ (startCall_initialize_of_descriptorInvalid (s := { s with requests := rs }) hd)
  · rintro hvalid t ht hout
    cases ht
    obtain ⟨hc, hd⟩ := (startCall_configError_iff c { s with requests := rs }).1 hout
    exact hvalid.elim (· hc) (· hd)

end Sys2Proof.Machine
end

section
/-! SUPPORT. Outcomes when a call starts: the proof of the statement of 60_exceptions.md about a bad glyph slot. -/

namespace Sys2Proof.Machine

/-- In `READY` a slot above 7 is a bad argument (rule R202). -/
theorem startCall_createCustomChar_of_bad_slot {s : State} {slot : Byte} (hp : s.phase = .ready) (h7 : 7 < slot.toNat)
    (g : Glyph) : startCall (.createCustomChar slot g) s = raiseInvalidArgument s := by
  simp [startCall, callCreateCustomChar, whenReady, hp, h7]

/-- In `READY` a slot of 0 to 7 starts the call's words (rules R171, R172). -/
theorem startCall_createCustomChar_of_good_slot {s : State} {slot : Byte} (hp : s.phase = .ready)
    (h7 : slot.toNat ≤ 7) (g : Glyph) :
    startCall (.createCustomChar slot g) s = beginCall (customCharItems slot g) s :=
  startCall_of_accepted (c := .createCustomChar slot g) ⟨hp, h7⟩

/-- The CGRAM address and the eight glyph rows, each a word whole in the sequencer (rule R172, log entry 16). -/
theorem customCharItems_length (slot : Byte) (g : Glyph) : (customCharItems slot g).length = 9 := rfl

/-- A call that begins ends, if at all, in `Ok` (rule R176). -/
theorem beginCall_outcomes_ne {r : CallResult} (hr : r ≠ .ok) (items : List Item) (s : State) :
    (beginCall items s).outcomes ≠ s.outcomes ++ [r] := by
  by_cases h : items = [] <;> simp [beginCall, h, hr.symm]

/-- A call ends in `InvalidArgument` when it starts only as `create_custom_char`, in `READY` and with a slot above 7
(rules R170, R202, R206). -/
theorem startCall_invalidArgument_iff (c : HostCall) (s : State) :
    (startCall c s).outcomes = s.outcomes ++ [.invalidArgument] ↔
      ∃ slot g, c = .createCustomChar slot g ∧ s.phase = .ready ∧ 7 < slot.toNat := by
  constructor
  · intro h
    rcases startCall_cases c s with ⟨_, _, hrefused⟩ | ⟨_, _, hconfig⟩ | ⟨_, _, _, hrefused⟩ | ⟨_, _, hbegun⟩ |
      ⟨slot, g, hc, hp, h7, _⟩ | ⟨_, _, _, _, hbegun⟩
    · simp [hrefused] at h
    · simp [hconfig] at h
    · simp [hrefused] at h
    · exact absurd (hbegun ▸ h) (beginCall_outcomes_ne (by simp) _ s)
    · exact ⟨slot, g, hc, hp, h7⟩
    · exact absurd (hbegun ▸ h) (beginCall_outcomes_ne (by simp) _ s)
  · rintro ⟨slot, g, rfl, hp, h7⟩
    simp [startCall_createCustomChar_of_bad_slot hp h7]

/-- Settles O32: the step starts the call; in `READY` the slot decides how `create_custom_char` starts, and no other
call ends in `InvalidArgument` by `startCall_invalidArgument_iff`. -/
theorem badSlotIsAnInvalidArgument : Obligations.BadSlotIsAnInvalidArgument := by
  intro s early c rs hs hr
  rw [step_start hs hr]
  refine ⟨?_, ?_⟩
  · rintro hp slot g rfl
    refine ⟨fun hbad => ?_, fun hgood t ht => ?_⟩
    · exact congrArg _ (startCall_createCustomChar_of_bad_slot (s := { s with requests := rs }) hp hbad g)
    · cases ht
      have hbegun := startCall_createCustomChar_of_good_slot (s := { s with requests := rs }) hp hgood g
      have hlen := customCharItems_length slot g
      have hne : customCharItems slot g ≠ [] := List.cons_ne_nil _ _
      simp [hbegun, beginCall, hne, hlen]
  · rintro hother t ht hout
    cases ht
    obtain ⟨slot, g, hc, -, -⟩ := (startCall_invalidArgument_iff c { s with requests := rs }).1 hout
    exact hother slot g hc

end Sys2Proof.Machine
end

section
/-! SUPPORT. The opcode table: the proofs of the statements of 30_encoding.md about decoding and encoding. -/

namespace Sys2Proof

/-! ### A word of the right width -/

theorem decode_of_width_nine {e : Emitter} {bits : Nat} (h : bits < 2 ^ 9) : decode ⟨e, 9, bits⟩ = decode9 e bits := by
  simp only [decode, if_neg (Nat.not_le.2 h), reduceIte]

theorem decode_of_width_ten {bits : Nat} (h : bits < 2 ^ 10) : decode ⟨.transmit, 10, bits⟩ = decodeW4x2 bits := by
  simp only [decode, if_neg (Nat.not_le.2 h), reduceIte, Nat.reduceEqDiff, false_and, and_self]

/-- A word that decodes fits its width, which is 9, or 5 for a raw nibble, or 10 for a two-strobe frame. -/
theorem decode_ok_cases {w : TableWord} {i : Instr} (h : decode w = .ok i) :
    (∃ e bits, w = ⟨e, 9, bits⟩ ∧ bits < 2 ^ 9 ∧ decode9 e bits = .ok i) ∨
    (∃ bits, w = ⟨.initializeCall, 5, bits⟩ ∧ bits < 2 ^ 5 ∧ decodeInitialize5 bits = .ok i) ∨
    (∃ bits, w = ⟨.transmit, 10, bits⟩ ∧ bits < 2 ^ 10 ∧ decodeW4x2 bits = .ok i) := by
  obtain ⟨e, width, bits⟩ := w
  simp only [decode] at h
  split at h
  · cases h
  rename_i hfits
  rw [Nat.not_le] at hfits
  split at h
  · rename_i hnine
    subst hnine
    exact .inl ⟨e, bits, rfl, hfits, h⟩
  split at h
  · rename_i hfive
    obtain ⟨rfl, rfl⟩ := hfive
    exact .inr (.inl ⟨bits, rfl, hfits, h⟩)
  split at h
  · rename_i hten
    obtain ⟨rfl, rfl⟩ := hten
    exact .inr (.inr ⟨bits, rfl, hfits, h⟩)
  · cases h

/-- `only` answers its instruction, and only under its condition. -/
theorem only_eq_ok {ok : Bool} {i j : Instr} : only ok i = .ok j ↔ ok = true ∧ i = j := by
  unfold only
  split <;> simp [*]

/-! ### Words of a register select and a byte -/

theorem ofNat_word9 (rs : Bool) (v : Byte) : BitVec.ofNat 8 (word9 rs v) = v := by
  apply BitVec.eq_of_toNat_eq
  rw [BitVec.toNat_ofNat, word9]
  omega

/-- A bit read as the remainder of a quotient. -/
theorem testBit_eq_of_div_mod {n i : Nat} {b : Bool} (h : n / 2 ^ i % 2 = b.toNat) : n.testBit i = b := by
  rw [Nat.testBit_eq_decide_div_mod_eq, h]
  cases b <;> rfl

theorem testBit_word9 (rs : Bool) (v : Byte) : (word9 rs v).testBit 8 = rs := by
  have hr := Bool.toNat_le rs
  apply testBit_eq_of_div_mod
  rw [word9]
  omega

/-- A 9-bit word is its register select and its byte. -/
theorem word9_of_bits {bits : Nat} (h : bits < 2 ^ 9) : word9 (bits.testBit 8) (BitVec.ofNat 8 bits) = bits := by
  rw [word9, Nat.toNat_testBit, BitVec.toNat_ofNat]
  omega

/-! ### Decoding what was encoded -/

theorem decode_data_word {e : Emitter} {f : Byte → Instr} (v : Byte)
    (hrow : ∀ bits, bits &&& 0x100 = 0x100 → decode9 e bits = .ok (f (BitVec.ofNat 8 bits))) :
    decode ⟨e, 9, word9 true v⟩ = .ok (f v) := by
  obtain ⟨hfits, hmask⟩ := Laws.TableRow.data_word v
  rw [decode_of_width_nine hfits, hrow _ hmask, ofNat_word9]

theorem decode_encode_setCursor (a : BitVec 7) : decode (encode (.setCursor a)) = .ok (.setCursor a) := by
  obtain ⟨-, hfits, hmask⟩ := Laws.TableRow.setCursor a
  have ha : BitVec.ofNat 7 (0x080 + a.toNat) = a := by
    apply BitVec.eq_of_toNat_eq
    rw [BitVec.toNat_ofNat]
    omega
  simp only [encode, Laws.TableRow.row] at hfits hmask ⊢
  rw [decode_of_width_nine hfits, decode9, ha, only_eq_ok]
  exact ⟨decide_eq_true hmask, rfl⟩

theorem decode_encode_transmitW8 (rs : Bool) (v : Byte) :
    decode (encode (.transmitW8 rs v)) = .ok (.transmitW8 rs v) := by
  obtain ⟨-, hfits, -⟩ := Laws.TableRow.transmitW8 rs v
  simp only [encode, Laws.TableRow.row] at hfits ⊢
  rw [decode_of_width_nine hfits, decode9, ofNat_word9, testBit_word9]

/-- The byte of two nibbles, each the low four bits of a number. -/
theorem toNat_ofNat_append_ofNat (a b : Nat) :
    (BitVec.ofNat 4 a ++ BitVec.ofNat 4 b).toNat = a % 16 * 16 + b % 16 := by
  rw [BitVec.toNat_append, BitVec.toNat_ofNat, BitVec.toNat_ofNat,
    ← Nat.shiftLeft_add_eq_or_of_lt (Nat.mod_lt b (by decide)), Nat.shiftLeft_eq]

/-- Both strobes of a two-strobe frame carry RS, and their nibbles join to the byte (rule R84). -/
theorem decodeW4x2_frame (rs : Bool) (v : Byte) :
    decodeW4x2 (encode (.transmitW4x2 rs v)).bits = .ok (.transmitW4x2 rs v) := by
  have hv := v.isLt
  have hr := Bool.toNat_le rs
  simp only [encode]
  generalize hbits : rs.toNat * 0x10 + v.toNat / 16 + (rs.toNat * 0x10 + v.toNat % 16) * 0x20 = bits
  have hhigh : bits / 16 = 33 * rs.toNat + 2 * (v.toNat % 16) := by omega
  have hmid : bits / 32 = 16 * rs.toNat + v.toNat % 16 := by omega
  have hlast : bits / 512 = rs.toNat := by omega
  have h4 : bits.testBit 4 = rs := testBit_eq_of_div_mod (by simp only [Nat.reducePow]; omega)
  have h9 : bits.testBit 9 = rs := testBit_eq_of_div_mod (by simp only [Nat.reducePow]; omega)
  have hbyte : BitVec.ofNat 4 bits ++ BitVec.ofNat 4 (bits >>> 5) = v := by
    apply BitVec.eq_of_toNat_eq
    simp only [toNat_ofNat_append_ofNat, Nat.shiftRight_eq_div_pow, Nat.reducePow]
    omega
  rw [decodeW4x2, h4, h9, if_pos rfl, hbyte]

/-- Settles O1: the words with few operand values by looking at each, the data, address and frame words by the lemmas on
their bits. -/
theorem decodeOfEncodeIsTheInstruction : Obligations.DecodeOfEncodeIsTheInstruction := by
  intro i
  cases i with
  | initializeFunctionSet dl n f => revert dl n f; decide
  | setDisplayMode on cursor blink => revert on cursor blink; decide
  | setTextDirection ltr autoscroll => revert ltr autoscroll; decide
  | createCustomCharCgramAddress slot => revert slot; decide
  | createCustomCharGlyphRow g => exact decode_data_word g fun bits h => by simp [decode9, h]
  | setCursor a => exact decode_encode_setCursor a
  | writeChar b => exact decode_data_word b fun bits h => by simp [decode9, only, h]
  | print t => exact decode_data_word t fun bits h => by simp [decode9, only, h]
  | transmitW8 rs v => exact decode_encode_transmitW8 rs v
  | transmitW4x2 rs v =>
    obtain ⟨-, hfits, -⟩ := Laws.TableRow.transmitW4x2 rs v
    exact (decode_of_width_ten hfits).trans (decodeW4x2_frame rs v)
  | initializeRaw0011 | initializeRaw0010 | initializeDisplayDefault | initializeEntryDefault | clear | home |
    scrollLeft | scrollRight => decide

/-! ### Encoding what was decoded -/

/-- Under a mask of the `j` bits from bit `i` on, a word agrees with its row there. -/
theorem div_of_masked {n m x : Nat} (h : n &&& m = x) (i j : Nat) (hm : m / 2 ^ i = 2 ^ j - 1) (hn : n / 2 ^ i < 2 ^ j) :
    n / 2 ^ i = x / 2 ^ i := by
  rw [← h, Nat.and_div_two_pow, hm, Nat.and_two_pow_sub_one_of_lt_two_pow hn]

/-- Under a mask of the bits below bit `i`, a word agrees with its row there. -/
theorem mod_of_masked {n m x : Nat} (h : n &&& m = x) (i : Nat) (hm : m % 2 ^ i = 2 ^ i - 1) :
    n % 2 ^ i = x % 2 ^ i := by
  rw [← h, Nat.and_mod_two_pow, hm, Nat.and_two_pow_sub_one_eq_mod, Nat.mod_mod]

theorem encode_decodeInitialize9 {bits : Nat} {i : Instr} (hfits : bits < 2 ^ 9) (h : decodeInitialize9 bits = .ok i) :
    encode i = ⟨.initializeCall, 9, bits⟩ := by
  simp only [decodeInitialize9] at h
  split at h
  · rename_i hmask
    cases h
    have hhigh := div_of_masked hmask 5 4 rfl (by omega)
    have hlow := mod_of_masked hmask 2 rfl
    simp only [encode, Nat.toNat_testBit, TableWord.mk.injEq, true_and]
    omega
  split at h
  · rename_i hbits
    cases h
    rw [hbits, encode]
  · obtain ⟨hbits, rfl⟩ := only_eq_ok.1 h
    rw [of_decide_eq_true hbits, encode]

theorem encode_decode9 {e : Emitter} {bits : Nat} {i : Instr} (hfits : bits < 2 ^ 9) (h : decode9 e bits = .ok i) :
    encode i = ⟨e, 9, bits⟩ := by
  have data : bits &&& 0x100 = 0x100 → word9 true (BitVec.ofNat 8 bits) = bits := fun hmask => by
    have hrs := div_of_masked hmask 8 1 rfl (by omega)
    rw [word9, BitVec.toNat_ofNat, Bool.toNat_true]
    omega
  cases e <;> simp only [decode9, only_eq_ok, decide_eq_true_eq] at h
  case initializeCall => exact encode_decodeInitialize9 hfits h
  case setDisplayMode =>
    obtain ⟨hmask, rfl⟩ := h
    have hhigh := div_of_masked hmask 3 6 rfl (by omega)
    simp only [encode, Nat.toNat_testBit, TableWord.mk.injEq, true_and]
    omega
  case setTextDirection =>
    obtain ⟨hmask, rfl⟩ := h
    have hhigh := div_of_masked hmask 2 7 rfl (by omega)
    simp only [encode, Nat.toNat_testBit, TableWord.mk.injEq, true_and]
    omega
  case createCustomChar =>
    split at h
    · rename_i hmask
      cases h
      rw [encode, data hmask]
    · obtain ⟨hmask, rfl⟩ := only_eq_ok.1 h
      rw [decide_eq_true_eq] at hmask
      have hhigh := div_of_masked hmask 6 3 rfl (by omega)
      have hlow := mod_of_masked hmask 3 rfl
      simp only [encode, BitVec.toNat_ofNat, Nat.shiftRight_eq_div_pow, TableWord.mk.injEq, true_and]
      omega
  case setCursor =>
    obtain ⟨hmask, rfl⟩ := h
    have hhigh := div_of_masked hmask 7 2 rfl (by omega)
    simp only [encode, BitVec.toNat_ofNat, TableWord.mk.injEq, true_and]
    omega
  case writeChar | print =>
    obtain ⟨hmask, rfl⟩ := h
    rw [encode, data hmask]
  case transmit =>
    cases h
    rw [encode, word9_of_bits hfits]
  all_goals
    obtain ⟨hbits, rfl⟩ := h
    rw [hbits, encode]

theorem encode_decodeInitialize5 {bits : Nat} {i : Instr} (h : decodeInitialize5 bits = .ok i) :
    encode i = ⟨.initializeCall, 5, bits⟩ := by
  simp only [decodeInitialize5] at h
  split at h
  · rename_i hbits
    cases h
    rw [hbits, encode]
  · obtain ⟨hbits, rfl⟩ := only_eq_ok.1 h
    rw [of_decide_eq_true hbits, encode]

theorem encode_decodeW4x2 {bits : Nat} {i : Instr} (hfits : bits < 2 ^ 10) (h : decodeW4x2 bits = .ok i) :
    encode i = ⟨.transmit, 10, bits⟩ := by
  simp only [decodeW4x2] at h
  split at h
  · rename_i hrs
    cases h
    have hrs' := congrArg Bool.toNat hrs
    simp only [Nat.toNat_testBit, Nat.reducePow] at hrs'
    have hhigh : (bits % 16 * 16 + bits / 32 % 16) / 16 = bits % 16 := by omega
    have hlast : bits / 32 / 16 = bits / 512 := Nat.div_div_eq_div_mul bits 32 16
    simp only [encode, Nat.toNat_testBit, toNat_ofNat_append_ofNat, Nat.shiftRight_eq_div_pow, Nat.reducePow,
      TableWord.mk.injEq, true_and]
    omega
  · cases h

/-- Settles O2: format by format, the bits under a row's mask are the row's and the others are the operands'. -/
theorem encodeOfDecodeIsTheWord : Obligations.EncodeOfDecodeIsTheWord := by
  intro w i h
  rcases decode_ok_cases h with ⟨e, bits, rfl, hfits, h⟩ | ⟨bits, rfl, -, h⟩ | ⟨bits, rfl, hfits, h⟩
  · exact encode_decode9 hfits h
  · exact encode_decodeInitialize5 h
  · exact encode_decodeW4x2 hfits h

/-! ### Written-out words and bytes -/

/-- Settles O3: eight words, each decoded by evaluation. -/
theorem writtenOutWordsDecode : Obligations.WrittenOutWordsDecode := by
  unfold Obligations.WrittenOutWordsDecode
  decide

/-- Settles O4: the function-set byte is the sum of its fields, whatever `line_count` is. -/
theorem functionSetByteOfDescriptor : Obligations.FunctionSetByteOfDescriptor := by
  intro d
  have hbyte : ∀ dl n f : Bool, (Machine.functionByte dl n f).toNat =
      (if dl then 0x30 else 0x20) + (if n then 8 else 0) + (if f then 4 else 0) := by decide
  simpa [Machine.functionSet, Machine.twoLines] using hbyte d.bus8 (decide (2 ≤ d.lineCount)) d.largeFont

end Sys2Proof
end

section
/-! SUPPORT. Reset and single steps: the proofs of the statements about them, and every next state of a step said
once. -/

namespace Sys2Proof.Machine

/-! ### Reset -/

/-- Settles O5: every field of the reset state is as listed, and the pin shadow of an empty trace knows nothing. -/
theorem resetStateIsFresh : Obligations.ResetStateIsFresh :=
  ⟨rfl, rfl, rfl, rfl, rfl, rfl, rfl, fun _ => ⟨rfl, rfl⟩⟩

/-- Settles O43: at reset the sequencer holds no word. -/
theorem resetSequencerIsSound : Obligations.ResetSequencerIsSound :=
  fun _ hi => absurd hi List.not_mem_nil

/-- Settles O45: at reset nothing runs, in `UNINIT`. -/
theorem resetBusIsQuiet : Obligations.ResetBusIsQuiet := .inl ⟨rfl, by decide⟩

theorem lineAgrees_none (t : List (Event × Answer)) (p : PinId) : lineAgrees t p none := nofun

/-- Settles O48: at reset no line's level is known. -/
theorem resetLinesAgree : Obligations.ResetLinesAgree :=
  have h := lineAgrees_none []
  ⟨h _, h _, h _, h _, h _, h _, h _, h _, h _, h _, h _⟩

/-! ### The sequencer's position -/

/-- Settles O6: with no early call first, the next move is to run the word. -/
theorem stepRunsTheSequencedWord : Obligations.StepRunsTheSequencedWord := by
  intro s i rest hs he
  simp only [step, nextMove_run hs he]

theorem noEarlyRequest_placeInstr (i : Instr) (s : State) : noEarlyRequest (placeInstr i s) := by
  intro r rs hr
  have hhead := List.head?_dropWhile_not (fun r : Request => r.early) s.requests
  rw [show s.requests.dropWhile (fun r => r.early) = r :: rs from hr] at hhead
  simpa using hhead

/-- Settles O7: the word placed is all that is left of the call, and no early call stands before it. -/
theorem stepRunsThePlacedTableWord : Obligations.StepRunsThePlacedTableWord := by
  intro s nbits w i hw
  have hplace : s.withFetchWord nbits w = placeInstr i s := by simp only [State.withFetchWord, placeWord, hw]
  rw [hplace]
  exact stepRunsTheSequencedWord (placeInstr i s) i [] rfl (noEarlyRequest_placeInstr i s)

/-- Settles O8: the next move is to wait. -/
theorem idleBlockWaits : Obligations.IdleBlockWaits := by
  rintro s ⟨hs, hr⟩
  simp only [step, nextMove, hs, hr]

/-- Settles O9: the overlapping call is refused by `step_overlap`. -/
theorem overlappingCallIsRefused : Obligations.OverlappingCallIsRefused := by
  intro s r rs hs hr he
  obtain ⟨it, rest, hseq⟩ := List.exists_cons_of_ne_nil hs
  exact step_overlap hseq hr he

/-! ### Words without a meaning -/

/-- Settles O15: each of the four words belongs to the other bus width. -/
theorem wordsOfTheOtherBusWidthAreRefused : Obligations.WordsOfTheOtherBusWidthAreRefused := by
  intro s isData v
  refine ⟨fun hb => ⟨?_, ?_, ?_⟩, fun hb => ?_⟩
  · exact exec_of_wrong_width (w := false) rfl (by simp [hb])
  · exact exec_of_wrong_width (w := false) rfl (by simp [hb])
  · exact exec_of_wrong_width (w := false) rfl (by simp [hb])
  · exact exec_of_wrong_width (w := true) rfl (by simp [hb])

/-- Settles O16: the word's check of the phase refuses it. -/
theorem steadyWordOutsideReadyIsRefused : Obligations.SteadyWordOutsideReadyIsRefused :=
  fun _ _ hi hp => exec_steady_of_not_ready hi hp

/-! ### Every next state of a step -/

/-- What a step that answers a next state does: it waits, starts a call, refuses one that overlaps or a steady-state
word outside `READY`, or makes the first of the calls that the item at hand stands for. -/
inductive Moves (s : State) : State → Prop where
  | idle (h : s.Idle) : Moves s s
  | start {r : Request} {rs : List Request} (hs : s.seq = []) (hr : s.requests = r :: rs) :
    Moves s (startCall r.call { s with requests := rs })
  | overlap {r : Request} {rs : List Request} (hr : s.requests = r :: rs) : Moves s (refuse { s with requests := rs })
  | refusedWord {i : Instr} {rest : List Item} (hs : s.seq = .word i :: rest) (hi : steadyWord i = true)
    (hp : s.phase ≠ .ready) : Moves s (refuse { s with seq := [] })
  | call {it x : Item} {rest q : List Item} {e : Event} {ready : Bool} (hs : s.seq = it :: rest)
    (hx : expandItem s.cfg it ++ rest = x :: q) (he : x = (if ready then .callThenReady e else .call e)) :
    Moves s (afterCall ready e q s)

theorem moves_of_step {s t : State} (h : step s = .next t) : Moves s t := by
  have hitem : ∀ {it rest}, s.seq = it :: rest → noEarlyRequest s → itemRuns it s → Moves s t := by
    intro it rest hs he hr
    obtain ⟨x, q, e, hx, ⟨rfl, hstep⟩ | ⟨rfl, hstep⟩⟩ := step_item hs he hr
    · rw [hstep, issue_eq_afterCall] at h
      cases h
      exact .call (ready := false) hs hx rfl
    · rw [hstep, issueThenReady_eq_afterCall] at h
      cases h
      exact .call (ready := true) hs hx rfl
  rcases step_cases s with ⟨hidle, hstep⟩ | ⟨r, rs, hs, hr, hstep⟩ | ⟨_, _, r, rs, _, hr, _, hstep⟩ |
    ⟨e, rest, hs, he, _⟩ | ⟨e, rest, hs, he, _⟩ | ⟨i, rest, hs, he, hstep⟩
  · rw [hstep] at h; cases h; exact .idle hidle
  · rw [hstep] at h; cases h; exact .start hs hr
  · rw [hstep] at h; cases h; exact .overlap hr
  · exact hitem hs he fun _ hi => absurd hi Item.noConfusion
  · exact hitem hs he fun _ hi => absurd hi Item.noConfusion
  · rcases exec_cases i { s with seq := rest } with ⟨hc, _⟩ | ⟨hi, hp, hexec⟩ | ⟨_, _, _, hexec⟩
    · exact hitem hs he fun j hj => by cases hj; exact hc
    · rw [hstep, hexec] at h; cases h; exact .refusedWord hs hi hp
    · rw [hstep, hexec] at h; cases h

/-! ### One capability call, field by field -/

@[simp] theorem afterCall_pinNc (ready : Bool) (e : Event) (q : List Item) (s : State) :
    (afterCall ready e q s).pinNc = s.pinNc := by
  unfold afterCall; split <;> rfl

@[simp] theorem afterCall_cfg (ready : Bool) (e : Event) (q : List Item) (s : State) :
    (afterCall ready e q s).cfg = s.cfg := by
  unfold afterCall; split <;> rfl

@[simp] theorem afterCall_answers (ready : Bool) (e : Event) (q : List Item) (s : State) :
    (afterCall ready e q s).answers = s.answers := by
  unfold afterCall; split <;> rfl

@[simp] theorem afterCall_refused (ready : Bool) (e : Event) (q : List Item) (s : State) :
    (afterCall ready e q s).refused = s.refused := by
  unfold afterCall; split <;> rfl

@[simp] theorem afterCall_requests (ready : Bool) (e : Event) (q : List Item) (s : State) :
    (afterCall ready e q s).requests = s.requests := by
  unfold afterCall; split <;> rfl

/-- A call answered `ok`: what is left of the host call and how it may have ended. -/
theorem afterCall_of_ok {s : State} (h : answerAt s s.trace.length = .ok) (ready : Bool) (e : Event) (q : List Item) :
    (afterCall ready e q s).seq = q ∧
    (afterCall ready e q s).phase = (if ready then .ready else s.phase) ∧
    (afterCall ready e q s).outcomes = (if q = [] then s.outcomes ++ [.ok] else s.outcomes) := by
  simp [afterCall, h]

/-- A call answered `fail` ends the host call (rule R204). -/
theorem afterCall_of_fail {s : State} (h : answerAt s s.trace.length = .fail) (ready : Bool) (e : Event)
    (q : List Item) :
    (afterCall ready e q s).seq = [] ∧ (afterCall ready e q s).phase = .desync ∧
    (afterCall ready e q s).outcomes = s.outcomes ++ [.ioError] := by
  simp [afterCall, h]

theorem answer_cases (s : State) : answerAt s s.trace.length = .ok ∨ answerAt s s.trace.length = .fail := by
  cases answerAt s s.trace.length <;> simp

/-- What is left after a call is nothing but what stood behind it. -/
theorem mem_afterCall_seq {it : Item} {ready : Bool} {e : Event} {q : List Item} {s : State}
    (h : it ∈ (afterCall ready e q s).seq) : it ∈ q := by
  rcases answer_cases s with ha | ha
  · rwa [(afterCall_of_ok ha ready e q).1] at h
  · rw [(afterCall_of_fail ha ready e q).1] at h
    exact absurd h List.not_mem_nil

end Sys2Proof.Machine
end

section
/-! SUPPORT. What every step keeps: the proofs of the statements about the descriptor, the refusal mark, the trace, the
phase, the count of host calls and the soundness of the sequencer. -/

namespace Sys2Proof.Machine

/-! ### Starting a call -/

@[simp] theorem beginCall_seq (items : List Item) (s : State) : (beginCall items s).seq = items := by
  simp [beginCall]

@[simp] theorem beginCall_requests (items : List Item) (s : State) : (beginCall items s).requests = s.requests := by
  simp [beginCall]

@[simp] theorem beginCall_refused (items : List Item) (s : State) : (beginCall items s).refused = s.refused := by
  simp [beginCall]

/-- A call with something to do only loads it. -/
theorem beginCall_of_ne {items : List Item} (h : items ≠ []) (s : State) :
    beginCall items s = { s with seq := items } := by
  simp [beginCall, finishItem, h]

@[simp] theorem startCall_requests (c : HostCall) (s : State) : (startCall c s).requests = s.requests := by
  rcases startCall_cases c s with ⟨_, _, h⟩ | ⟨_, _, h⟩ | ⟨_, _, _, h⟩ | ⟨_, _, h⟩ | ⟨_, _, _, _, _, h⟩ |
    ⟨_, _, _, _, h⟩ <;>
    rw [h] <;> simp

/-- A steady-state call outside `READY` is refused (rule R160). -/
theorem startCall_of_not_ready {c : HostCall} {s : State} (hc : c ≠ .initializeCall) (hp : s.phase ≠ .ready) :
    startCall c s = refuse s := by
  rcases startCall_cases c s with ⟨_, _, h⟩ | ⟨h, _⟩ | ⟨h, _⟩ | ⟨h, _⟩ | ⟨_, _, _, h, _⟩ | ⟨_, _, h, _⟩
  · exact h
  · exact absurd h hc
  · exact absurd h hc
  · exact absurd h hc
  · exact absurd h hp
  · exact absurd h hp

/-- What starting a call leaves in the sequencer: what was there, or the steps of `initialize` under a usable
descriptor, or steady-state words in `READY`. -/
theorem startCall_seq_cases (c : HostCall) (s : State) :
    (startCall c s).seq = s.seq ∨
    (pinsUsable s.pinNc s.cfg ∧ (startCall c s).seq = initializeItems s.pinNc s.cfg) ∨
    (∃ ws : List Instr, s.phase = .ready ∧ (∀ w ∈ ws, steadyWord w = true) ∧ (startCall c s).seq = ws.map .word) := by
  rcases startCall_cases c s with ⟨_, _, h⟩ | ⟨_, _, h⟩ | ⟨_, _, _, h⟩ | ⟨_, hu, h⟩ | ⟨_, _, _, _, _, h⟩ |
    ⟨ws, _, hp, hws, h⟩
  · exact .inl (by simp [h])
  · exact .inl (by simp [h])
  · exact .inl (by simp [h])
  · exact .inr (.inl ⟨hu, by simp [h]⟩)
  · exact .inl (by simp [h])
  · exact .inr (.inr ⟨ws, hp, hws, by simp [h]⟩)

/-- Settles O31: the call is started and refused for the phase. -/
theorem steadyCallOutsideReadyIsRefused : Obligations.SteadyCallOutsideReadyIsRefused := by
  intro s r rs hs hr hc hp
  rw [step_start hs hr, startCall_of_not_ready hc (by exact hp)]
  rfl

/-! ### The descriptor -/

/-- Settles O36: a silent step keeps them, and a capability call does. -/
theorem stepKeepsTheDescriptor : Obligations.StepKeepsTheDescriptor := by
  intro s t h
  rcases step_next_cases h with ⟨_, _, _, hcfg, hnc, hans⟩ | ⟨_, _, _, _, _, _, _, _, _, _, _, rfl⟩
  · exact ⟨hcfg, hnc, hans⟩
  · simp

/-! ### The refusal mark -/

/-- Starting a call refuses it, or leaves the mark alone and does not end it as refused. -/
theorem startCall_refused_cases (c : HostCall) (s : State) :
    startCall c s = refuse s ∨
    ((startCall c s).refused = s.refused ∧ (startCall c s).outcomes ≠ s.outcomes ++ [.refused]) := by
  rcases startCall_cases c s with ⟨_, _, h⟩ | ⟨_, _, h⟩ | ⟨_, _, _, h⟩ | ⟨_, _, h⟩ | ⟨_, _, _, _, _, h⟩ |
    ⟨_, _, _, _, h⟩
  · exact .inl h
  · exact .inr (by simp [h])
  · exact .inl h
  · exact .inr (by simp [h, beginCall_outcomes_ne])
  · exact .inr (by simp [h])
  · exact .inr (by simp [h, beginCall_outcomes_ne])

theorem afterCall_outcomes_ne_refused (ready : Bool) (e : Event) (q : List Item) (s : State) :
    (afterCall ready e q s).outcomes ≠ s.outcomes ++ [.refused] := by
  rcases answer_cases s with ha | ha
  · rw [(afterCall_of_ok ha ready e q).2.2]
    split <;> simp
  · simp [(afterCall_of_fail ha ready e q).2.2]

/-- A step leaves the mark alone and ends no call as refused, or refuses the call asked next, or a word at hand. -/
theorem Moves.refused_cases {s t : State} (h : Moves s t) :
    (t.refused = s.refused ∧ t.outcomes ≠ s.outcomes ++ [.refused]) ∨
    (∃ r rs, s.requests = r :: rs ∧ t = refuse { s with requests := rs }) ∨
    (∃ i rest, s.seq = .word i :: rest ∧ steadyWord i = true ∧ s.phase ≠ .ready ∧ t = refuse { s with seq := [] }) := by
  cases h with
  | idle hidle => exact .inl (by simp)
  | @start r rs hs hr =>
    rcases startCall_refused_cases r.call { s with requests := rs } with h | h
    · exact .inr (.inl ⟨r, rs, hr, h⟩)
    · exact .inl h
  | overlap hr => exact .inr (.inl ⟨_, _, hr, rfl⟩)
  | refusedWord hs hi hp => exact .inr (.inr ⟨_, _, hs, hi, hp, rfl⟩)
  | call => exact .inl ⟨by simp, afterCall_outcomes_ne_refused _ _ _ _⟩

/-- Settles O37: by the three cases of `Moves.refused_cases`. -/
theorem refusalMarkIsSticky : Obligations.RefusalMarkIsSticky := by
  intro s t h
  rcases (moves_of_step h).refused_cases with ⟨hmark, hout⟩ | ⟨r, rs, hr, rfl⟩ | ⟨i, rest, hs, hi, hp, rfl⟩
  · refine ⟨fun hm => hmark.trans hm, fun hm ht => ?_, fun ho => absurd ho hout⟩
    rw [hmark, hm] at ht
    cases ht
  · exact ⟨fun _ => rfl, fun _ _ => rfl, fun _ => .inl ⟨r, hr, rfl⟩⟩
  · exact ⟨fun _ => rfl, fun _ _ => rfl, fun _ => .inr ⟨i, rest, hs, hi, hp, rfl⟩⟩

/-! ### The trace -/

/-- Settles O38: a silent step makes no call, and one that is not makes exactly one. -/
theorem stepAppendsAnsweredCalls : Obligations.StepAppendsAnsweredCalls := by
  intro s t h
  rcases step_next_cases h with ⟨htrace, hfar, _⟩ | ⟨_, _, _, q, e, ready, _, _, _, _, _, rfl⟩
  · exact .inl ⟨htrace, hfar⟩
  · refine .inr ⟨e, by simp, by simp, fun hfail => ?_⟩
    obtain ⟨hseq, hphase, hout⟩ := afterCall_of_fail hfail ready e q
    exact ⟨hphase, hseq, hout⟩

/-! ### The items at hand -/

theorem two_le_wordRef_length (d : Descriptor) (i : Instr) : 2 ≤ (wordRef d i).length := by
  have htx : 2 ≤ txCount d := by unfold txCount; split <;> omega
  cases i <;> simp [wordRef, txRef_length, nibbleRef, pulseRef] <;> omega

/-- A word's first item is a plain call, and something comes after it. -/
theorem wordItems_eq_cons (d : Descriptor) (i : Instr) :
    ∃ e es more, wordRef d i = e :: es ∧ wordItems d i = .call e :: more ∧ more ≠ [] := by
  have hlen := two_le_wordRef_length d i
  rcases hr : readies (.word i) with _ | _
  · have hitems : wordItems d i = (wordRef d i).map .call := expandItem_of_not_readies d hr
    rcases hw : wordRef d i with _ | ⟨e, es⟩
    · simp [hw] at hlen
    · refine ⟨e, es, es.map .call, rfl, by rw [hitems, hw, List.map_cons], ?_⟩
      rintro hes
      simp [hw, List.map_eq_nil_iff.1 hes] at hlen
  · obtain ⟨es, l, href, hitems⟩ := expandItem_of_readies d hr
    simp only [itemRef, expandItem] at href hitems
    rcases es with _ | ⟨e, es⟩
    · simp [href] at hlen
    · exact ⟨e, es ++ [l], es.map .call ++ [.callThenReady l], href, by simpa using hitems, by simp⟩

theorem word_not_mem_expandItem (d : Descriptor) (it : Item) (j : Instr) : .word j ∉ expandItem d it := by
  rcases hr : readies it with _ | _
  · simp [expandItem_of_not_readies d hr]
  · obtain ⟨es, l, -, hitems⟩ := expandItem_of_readies d hr
    simp [hitems]

/-- The item at hand whose first call makes the phase `READY` is that call. -/
theorem expandItem_callThenReady {d : Descriptor} {it : Item} {rest q : List Item} {e : Event}
    (h : expandItem d it ++ rest = .callThenReady e :: q) : it = .callThenReady e := by
  rcases it with e' | e' | i
  · simp [expandItem] at h
  · simp only [expandItem, List.cons_append, List.cons.injEq] at h
    exact h.1
  · obtain ⟨e', es, more, -, hitems, -⟩ := wordItems_eq_cons d i
    simp [expandItem, hitems] at h

/-- A call that will make the phase `READY` was in the sequencer, or comes with `entry_default`. -/
theorem mem_rest_of_callThenReady {d : Descriptor} {it x : Item} {rest q : List Item} {e : Event}
    (h : expandItem d it ++ rest = x :: q) (he : .callThenReady e ∈ q) :
    .callThenReady e ∈ it :: rest ∨ it = .word .initializeEntryDefault := by
  have hmem : .callThenReady e ∈ expandItem d it ++ rest := h ▸ List.mem_cons_of_mem x he
  rcases List.mem_append.1 hmem with hit | hrest
  · rcases hr : readies it with _ | _
    · simp [expandItem_of_not_readies d hr] at hit
    · rcases it with e' | e' | i
      · simp [readies] at hr
      · rw [expandItem, List.mem_singleton] at hit
        exact .inl (by simp [hit])
      · cases i <;> simp only [readies, Bool.false_eq_true] at hr
        exact .inr rfl
  · exact .inl (List.mem_cons_of_mem _ hrest)

/-- No word comes into the sequencer by a capability call. -/
theorem word_mem_rest {d : Descriptor} {it x : Item} {rest q : List Item} {j : Instr}
    (h : expandItem d it ++ rest = x :: q) (hj : .word j ∈ q) : .word j ∈ rest := by
  have hmem : .word j ∈ expandItem d it ++ rest := h ▸ List.mem_cons_of_mem x hj
  exact (List.mem_append.1 hmem).resolve_left (word_not_mem_expandItem d it j)

/-! ### The phase -/

theorem callThenReady_not_mem_initializeItems (nc : PinId) (d : Descriptor) (e : Event) :
    .callThenReady e ∉ initializeItems nc d := by
  cases hb : d.bus8 <;> simp [initializeItems, lockingItems, functionSetWord, hb]

/-- Starting a call brings in no call that makes the phase `READY`. -/
theorem callThenReady_not_mem_startCall {c : HostCall} {s : State} {e : Event} (hs : s.seq = []) :
    .callThenReady e ∉ (startCall c s).seq := by
  rcases startCall_seq_cases c s with h | ⟨_, h⟩ | ⟨ws, _, _, h⟩
  · simp [h, hs]
  · rw [h]
    exact callThenReady_not_mem_initializeItems _ _ e
  · simp [h]

/-- A capability call changes the phase if it fails, or if it is the last one of `initialize`. -/
theorem afterCall_phase_cases {ready : Bool} {e : Event} {q : List Item} {s : State}
    (h : (afterCall ready e q s).phase ≠ s.phase) :
    ((afterCall ready e q s).phase = .desync ∧ answerAt s s.trace.length = .fail) ∨
    ((afterCall ready e q s).phase = .ready ∧ answerAt s s.trace.length = .ok ∧ ready = true) := by
  rcases answer_cases s with ha | ha
  · have hphase := (afterCall_of_ok ha ready e q).2.1
    cases ready
    · exact absurd hphase h
    · exact .inr ⟨hphase, ha, rfl⟩
  · exact .inl ⟨(afterCall_of_fail ha ready e q).2.1, ha⟩

/-- Settles O40: only a capability call changes the phase, and only a word at hand brings such a call in. -/
theorem phaseChangesOnlyAsListed : Obligations.PhaseChangesOnlyAsListed := by
  intro s t h
  cases moves_of_step h with
  | idle hidle => exact ⟨fun hne => absurd rfl hne, fun e he => .inl he⟩
  | @start r rs hs hr =>
    obtain ⟨-, -, hphase, -⟩ := startCall_silent r.call { s with requests := rs }
    exact ⟨fun hne => absurd hphase hne, fun e he => absurd he (callThenReady_not_mem_startCall (by exact hs))⟩
  | overlap hr => exact ⟨fun hne => absurd rfl hne, fun e he => .inl he⟩
  | refusedWord hs hi hp => exact ⟨fun hne => absurd rfl hne, fun e he => absurd he List.not_mem_nil⟩
  | @call it x rest q e ready hs hx he =>
    refine ⟨fun hne => ?_, fun e' he' => ?_⟩
    · rcases afterCall_phase_cases hne with ⟨hphase, ha⟩ | ⟨hphase, ha, rfl⟩
      · exact .inl ⟨hphase, e, by rw [afterCall_trace, ha]⟩
      · subst he
        exact .inr ⟨hphase, e, by rw [hs, expandItem_callThenReady hx]; rfl, by rw [afterCall_trace, ha]⟩
    · rcases mem_rest_of_callThenReady hx (mem_afterCall_seq he') with hmem | rfl
      · exact .inl (hs ▸ hmem)
      · exact .inr (by rw [hs]; rfl)

/-! ### The count of host calls -/

theorem inProgress_of_ne {s : State} (h : s.seq ≠ []) : inProgress s = 1 := by simp [inProgress, h]

theorem inProgress_of_eq {s : State} (h : s.seq = []) : inProgress s = 0 := by simp [inProgress, h]

/-- A call that starts has ended or is in progress. -/
theorem startCall_ends_or_runs {c : HostCall} {s : State} (hs : s.seq = []) :
    (startCall c s).outcomes.length + inProgress (startCall c s) = s.outcomes.length + 1 := by
  have hbegun : ∀ items, (beginCall items s).outcomes.length + inProgress (beginCall items s) =
      s.outcomes.length + 1 := by
    intro items
    by_cases hi : items = [] <;> simp [inProgress, beginCall, hi]
  rcases startCall_cases c s with ⟨_, _, h⟩ | ⟨_, _, h⟩ | ⟨_, _, _, h⟩ | ⟨_, _, h⟩ | ⟨_, _, _, _, _, h⟩ |
    ⟨_, _, _, _, h⟩
  · simp [h, inProgress, hs]
  · simp [h, inProgress, hs]
  · simp [h, inProgress, hs]
  · rw [h]; exact hbegun _
  · simp [h, inProgress, hs]
  · rw [h]; exact hbegun _

/-- A running call has ended after a capability call, or is still in progress. -/
theorem afterCall_ends_or_runs (ready : Bool) (e : Event) (q : List Item) (s : State) :
    (afterCall ready e q s).outcomes.length + inProgress (afterCall ready e q s) = s.outcomes.length + 1 := by
  rcases answer_cases s with ha | ha
  · obtain ⟨hseq, -, hout⟩ := afterCall_of_ok ha ready e q
    rw [inProgress, hseq, hout]
    split <;> simp
  · obtain ⟨hseq, -, hout⟩ := afterCall_of_fail ha ready e q
    simp [inProgress, hseq, hout]

/-- Settles O41: a waiting call that starts leaves the queue, and a running one ends at most once. -/
theorem everyCallEndsExactlyOnce : Obligations.EveryCallEndsExactlyOnce := by
  intro s t h
  simp only [callCount]
  cases moves_of_step h with
  | idle hidle => rfl
  | @start r rs hs hr =>
    rw [startCall_ends_or_runs (by exact hs), inProgress_of_eq hs, startCall_requests, hr]
    dsimp only [List.length_cons]
    omega
  | @overlap r rs hr =>
    have hsame : inProgress (refuse { s with requests := rs }) = inProgress s := rfl
    simp [hsame, hr]
    omega
  | refusedWord hs hi hp => simp [inProgress, hs]
  | @call it x rest q e ready hs hx he =>
    rw [afterCall_ends_or_runs, inProgress_of_ne (by simp [hs]), afterCall_requests]

/-! ### The sequencer stays sound -/

/-- A word the descriptor's block can emit runs, in `READY` if it is a steady-state one. -/
theorem canRun_of_wellFormed {i : Instr} {s : State} (hw : i.wellFormed s.cfg = true)
    (hp : steadyWord i = true → s.phase = .ready) : canRun i s := by
  refine ⟨fun w hb => ?_, hp⟩
  cases i <;> simp_all [busWidthOf, Instr.wellFormed]

theorem wellFormed_of_steadyWord {i : Instr} (h : steadyWord i = true) (d : Descriptor) : i.wellFormed d = true := by
  cases i <;> simp only [steadyWord, Bool.false_eq_true] at h <;> rfl

/-- The words of `initialize` are the descriptor's own (rules R93, R145, R146), and no steady-state ones. -/
theorem initializeItems_wellFormed {nc : PinId} {d : Descriptor} {i : Instr} (h : .word i ∈ initializeItems nc d) :
    i.wellFormed d = true ∧ steadyWord i = false := by
  cases hb : d.bus8 <;> simp [initializeItems, lockingItems, hb, functionSetWord] at h <;>
    rcases h with rfl | rfl | rfl | rfl | rfl <;> simp [Instr.wellFormed, steadyWord, hb, twoLines]

theorem startCall_sound {c : HostCall} {s : State} (hs : s.seq = []) : SequencerSound (startCall c s) := by
  obtain ⟨_, _, hphase, hcfg, _, _⟩ := startCall_silent c s
  intro i hi
  rw [hcfg, hphase]
  rcases startCall_seq_cases c s with h | ⟨_, h⟩ | ⟨ws, hp, hws, h⟩
  · simp [h, hs] at hi
  · rw [h] at hi
    obtain ⟨hwf, hsteady⟩ := initializeItems_wellFormed hi
    exact ⟨hwf, by simp [hsteady]⟩
  · rw [h] at hi
    obtain ⟨w, hw, hwi⟩ := List.mem_map.1 hi
    cases hwi
    exact ⟨wellFormed_of_steadyWord (hws _ hw) _, fun _ => hp⟩

/-- A capability call keeps the sequencer sound: no word comes in, and a call that succeeds leaves no `READY`. -/
theorem afterCall_sound {s : State} {it x : Item} {rest q : List Item} (h : SequencerSound s) (hs : s.seq = it :: rest)
    (hx : expandItem s.cfg it ++ rest = x :: q) (ready : Bool) (e : Event) :
    SequencerSound (afterCall ready e q s) := by
  intro i hi
  obtain ⟨hwf, hp⟩ := h i (hs ▸ List.mem_cons_of_mem it (word_mem_rest hx (mem_afterCall_seq hi)))
  refine ⟨by rwa [afterCall_cfg], fun hsteady => ?_⟩
  rcases answer_cases s with ha | ha
  · rw [(afterCall_of_ok ha ready e q).2.1, hp hsteady, ite_self]
  · simp [(afterCall_of_fail ha ready e q).1] at hi

theorem SequencerSound.step_answers {s : State} (h : SequencerSound s) : ∃ t, step s = .next t := by
  rcases step_cases s with ⟨_, h1⟩ | ⟨_, _, _, _, h1⟩ | ⟨_, _, _, _, _, _, _, h1⟩ | ⟨_, _, _, _, h1⟩ |
    ⟨_, _, _, _, h1⟩ | ⟨i, rest, hs, he, _⟩
  · exact ⟨_, h1⟩
  · exact ⟨_, h1⟩
  · exact ⟨_, h1⟩
  · exact ⟨_, h1⟩
  · exact ⟨_, h1⟩
  · obtain ⟨hwf, hp⟩ := h i (by simp [hs])
    exact ⟨_, step_word_eq hs he (canRun_of_wellFormed hwf hp)⟩

theorem SequencerSound.of_step {s t : State} (h : SequencerSound s) (hst : step s = .next t) : SequencerSound t := by
  cases moves_of_step hst with
  | idle hidle => exact h
  | start hs hr => exact startCall_sound (by exact hs)
  | overlap hr => exact h
  | refusedWord hs hi hp => exact fun _ hj => absurd hj List.not_mem_nil
  | call hs hx he => exact afterCall_sound h hs hx _ _

/-- Settles O42: a step from a sound sequencer answers, and what it answers is sound. -/
theorem soundSequencerNeverStops : Obligations.SoundSequencerNeverStops := by
  intro s h
  obtain ⟨t, ht⟩ := h.step_answers
  exact ⟨t, ht, h.of_step ht⟩

/-! ### A running call comes to its end -/

/-- The capability calls left and the calls waiting: the steps a running call can still take. -/
def stepsLeft (s : State) : Nat := (plan s.cfg s.seq).length + s.requests.length

/-- A step with a call in progress ends it, or leaves fewer steps. -/
theorem Moves.ends_or_fewer {s t : State} (h : Moves s t) (hne : s.seq ≠ []) :
    t.seq = [] ∨ stepsLeft t + 1 ≤ stepsLeft s := by
  cases h with
  | idle hidle => exact absurd hidle.1 hne
  | start hs hr => exact absurd hs hne
  | overlap hr => exact .inr (by simp [stepsLeft, hr, Nat.add_assoc])
  | refusedWord hs hi hp => exact .inl rfl
  | @call it x rest q e ready hs hx he =>
    rcases answer_cases s with ha | ha
    · right
      rw [stepsLeft, stepsLeft, afterCall_cfg, afterCall_requests, (afterCall_of_ok ha ready e q).1,
        plan_after hs hx he, List.length_cons]
      omega
    · exact .inl (afterCall_of_fail ha ready e q).1

theorem one_le_stepsLeft {s : State} (h : s.seq ≠ []) : 1 ≤ stepsLeft s := by
  obtain ⟨it, rest, hs⟩ := List.exists_cons_of_ne_nil h
  have := List.length_pos_iff.2 (itemRef_ne_nil s.cfg it)
  rw [stepsLeft, hs, plan_cons, List.length_append]
  omega

/-- Settles O49: by induction on the steps left, each of which ends the call or leaves fewer. -/
theorem runningCallComesToItsEnd : Obligations.RunningCallComesToItsEnd := by
  intro s h
  change ∃ n t, n ≤ stepsLeft s ∧ run n s = .next t ∧ t.seq = []
  induction hk : stepsLeft s using Nat.strong_induction_on generalizing s with
  | _ k ih =>
    subst hk
    by_cases hne : s.seq = []
    · exact ⟨0, s, Nat.zero_le _, rfl, hne⟩
    obtain ⟨u, hu⟩ := h.step_answers
    rcases (moves_of_step hu).ends_or_fewer hne with hend | hfewer
    · exact ⟨1, u, one_le_stepsLeft hne, run_one hu, hend⟩
    · obtain ⟨n, t, hn, hrun, ht⟩ := ih (stepsLeft u) hfewer u (h.of_step hu) rfl
      exact ⟨n + 1, t, by omega, by rw [run_succ hu, hrun], ht⟩

/-! ### Nothing reads the far end -/

theorem startCall_far (c : HostCall) (s : State) (f : FarEnd) :
    startCall c { s with far := f } = { startCall c s with far := f } := by
  have hbegun : ∀ items, beginCall items { s with far := f } = { beginCall items s with far := f } := by
    intro items
    by_cases hi : items = []
    · simp [beginCall, finishItem, hi, endCall]
    · simp [beginCall, finishItem, hi]
  have hready : ∀ t u, t = { u with far := f } →
      whenReady { s with far := f } t = { whenReady s u with far := f } := by
    rintro t u rfl
    by_cases hp : s.phase = .ready
    · simp [whenReady, hp]
    · simp [whenReady, hp, refuse, endCall]
  cases c with
  | initializeCall =>
    simp only [startCall, callInitialize]
    split
    · rfl
    split
    · rfl
    · exact hbegun _
  | createCustomChar slot g =>
    refine hready _ _ ?_
    split
    · rfl
    · exact hbegun _
  | clear | home | setDisplayMode | scrollLeft | scrollRight | setTextDirection | setCursor | writeChar | print =>
    exact hready _ _ (hbegun _)

theorem afterCall_far_update (ready : Bool) (e : Event) (q : List Item) (s : State) (f : FarEnd) :
    ∃ g, afterCall ready e q { s with far := f } = { afterCall ready e q s with far := g } := by
  have hans : answerAt { s with far := f } s.trace.length = answerAt s s.trace.length := rfl
  unfold afterCall
  simp only [hans]
  split <;> exact ⟨_, rfl⟩

/-- Two outcomes that differ in the far end alone. -/
def SameButFar (o o' : Host.Outcome State Fault Refusal) : Prop :=
  (∃ t g, o = .next t ∧ o' = .next { t with far := g }) ∨ ∃ r, o = .refused r ∧ o' = .refused r

theorem sameButFar_afterCall (ready : Bool) (e : Event) (q : List Item) (s : State) (f : FarEnd) :
    SameButFar (.next (afterCall ready e q s)) (.next (afterCall ready e q { s with far := f })) := by
  obtain ⟨g, hg⟩ := afterCall_far_update ready e q s f
  exact .inl ⟨_, g, rfl, by rw [hg]⟩

theorem sameButFar_exec (i : Instr) (q : List Item) (s : State) (f : FarEnd) :
    SameButFar (exec i { s with seq := q }) (exec i { s with seq := q, far := f }) := by
  rcases exec_cases i { s with seq := q } with ⟨hc, h⟩ | ⟨hi, hp, h⟩ | ⟨w, hi, hw, h⟩
  · obtain ⟨e, es, more, -, hitems, -⟩ := wordItems_eq_cons s.cfg i
    have hfar : canRun i { s with seq := q, far := f } := hc
    rw [h, exec_of_canRun hfar]
    simp only [hitems, begin]
    have := sameButFar_afterCall false e (more ++ q) s f
    rwa [← issue_eq_afterCall, ← issue_eq_afterCall] at this
  · have hfar := exec_steady_of_not_ready (s := { s with seq := q, far := f }) hi hp
    exact .inl ⟨_, f, h, hfar⟩
  · exact .inr ⟨_, h, exec_of_wrong_width (s := { s with seq := q, far := f }) hi hw⟩

theorem sameButFar_step (s : State) (f : FarEnd) : SameButFar (step s) (step { s with far := f }) := by
  rcases step_cases s with ⟨hidle, h⟩ | ⟨r, rs, hs, hr, h⟩ | ⟨it, rest, r, rs, hs, hr, he, h⟩ | ⟨e, rest, hs, he, h⟩ |
    ⟨e, rest, hs, he, h⟩ | ⟨i, rest, hs, he, h⟩
  · exact .inl ⟨_, f, h, idleBlockWaits { s with far := f } hidle⟩
  · rw [h, step_start (s := { s with far := f }) hs hr]
    exact .inl ⟨_, f, rfl, congrArg _ (startCall_far r.call { s with requests := rs } f)⟩
  · exact .inl ⟨_, f, h, step_overlap (s := { s with far := f }) hs hr he⟩
  · rw [h, step_call (s := { s with far := f }) hs he, issue_eq_afterCall]
    exact issue_eq_afterCall e rest { s with far := f } ▸ sameButFar_afterCall false e rest s f
  · rw [h, step_callThenReady (s := { s with far := f }) hs he, issueThenReady_eq_afterCall]
    exact issueThenReady_eq_afterCall e rest { s with far := f } ▸ sameButFar_afterCall true e rest s f
  · rw [h, stepRunsTheSequencedWord { s with far := f } i rest hs he]
    exact sameButFar_exec i rest s f

/-- Settles O55: the two steps differ in the far end alone by `sameButFar_step`. -/
theorem farEndIsNeverRead : Obligations.FarEndIsNeverRead := by
  intro s f
  rcases sameButFar_step s f with ⟨t, g, h, h'⟩ | ⟨r, h, h'⟩
  · refine ⟨fun u hu => ?_, fun r hr => ?_⟩
    · rw [h] at hu
      cases hu
      exact ⟨g, h'⟩
    · rw [h] at hr
      cases hr
  · refine ⟨fun u hu => ?_, fun r' hr => ?_⟩
    · rw [h] at hu
      cases hu
    · rw [h] at hr
      cases hr
      exact h'

end Sys2Proof.Machine
end

section
/-! SUPPORT. The bus and the lines: the proofs of the statements about single capability calls and about the invariants
of rules R32 and R132. -/

namespace Sys2Proof.Machine

/-! ### What a capability call does to the lines -/

theorem writePin_lines (nc : PinId) (d : Descriptor) (k : Nat) (p : PinId) (v : Level) (a : Answer) (f : FarEnd) :
    (f.writePin nc d k p v a).lines = driveLines d p (levelAfter v a) f.lines := by
  simp only [FarEnd.writePin]
  split <;> rfl

theorem observe_setLevel (nc : PinId) (d : Descriptor) (k : Nat) (p : PinId) (v : Level) (a : Answer) (f : FarEnd) :
    f.observe nc d k (.setLevel p v) a = f.writePin nc d k p v a := by
  cases a <;> rfl

/-- The strobes and the receiver of two far ends are the same. -/
def SameReceived (f g : FarEnd) : Prop := g.strobes = f.strobes ∧ g.mode = f.mode ∧ g.delivered = f.delivered

theorem SameReceived.trans {f g h : FarEnd} (hfg : SameReceived f g) (hgh : SameReceived g h) : SameReceived f h := by
  obtain ⟨hs, hm, hd⟩ := hgh
  exact ⟨hs.trans hfg.1, hm.trans hfg.2.1, hd.trans hfg.2.2⟩

/-- A failed write leaves its pin's lines unknown, and may be a strobe if the pin is E's and E is not known to be
low. -/
theorem writePin_fail (nc : PinId) (d : Descriptor) (k : Nat) (p : PinId) (v : Level) (f : FarEnd) :
    (f.writePin nc d k p v .fail).lines = driveLines d p none f.lines ∧
    (SameReceived f (f.writePin nc d k p v .fail) ∨
      p = d.enPin ∧ f.lines.en ≠ some false ∧ ∃ w, (f.writePin nc d k p v .fail).strobes = f.strobes ++ [w]) := by
  refine ⟨writePin_lines nc d k p v .fail f, ?_⟩
  rcases hfalls : decide (p = d.enPin) && enableFalls k f.lines.en v .fail with _ | _
  · exact .inl (by simp [FarEnd.writePin, hfalls, SameReceived])
  · refine .inr ?_
    have hpin : p = d.enPin := of_decide_eq_true (Bool.and_eq_true_iff.1 hfalls).1
    have hstrobe := (Bool.and_eq_true_iff.1 hfalls).2
    refine ⟨hpin, fun hlow => ?_, busWord nc d k f.lines, by simp [FarEnd.writePin, hfalls, FarEnd.strobe]⟩
    simp [hlow, enableFalls] at hstrobe

/-- A failed call on a pin is a failed write of it. -/
theorem observe_fail_of_pin {e : Event} {p : PinId} (h : eventPin e = some p) (nc : PinId) (d : Descriptor) (k : Nat)
    (f : FarEnd) : ∃ v, f.observe nc d k e .fail = f.writePin nc d k p v .fail := by
  rcases e with q | ⟨q, v⟩ | ms
  · cases h; exact ⟨false, rfl⟩
  · cases h; exact ⟨v, rfl⟩
  · cases h

/-- Settles O51: the call is issued, and its answer decides; what a failed one does is `writePin_fail`. -/
theorem oneCallIsOneStep : Obligations.OneCallIsOneStep := by
  intro s e rest hs he
  refine ⟨fun hok => ⟨_, step_call hs he, ?_⟩, fun hfail => ⟨failedAt [] e s, ?_, failed_failedAt [] e s, ?_, ?_⟩⟩
  · rw [issue_of_ok (s := { s with seq := rest }) hok]
    exact emitted_finishItem_recordAll [e] { s with seq := rest }
  · rw [step_call hs he, issue, issueThen_of_fail (s := { s with seq := rest }) hfail, ← failedAt_seq [] e s rest]
    rfl
  · rintro ⟨ms, rfl⟩
    exact observe_delay s.pinNc s.cfg s.trace.length ms .fail s.far
  · intro p hp
    have hpin : eventPin e = some p := by rcases hp with rfl | ⟨v, rfl⟩ <;> rfl
    obtain ⟨v, hv⟩ := observe_fail_of_pin hpin s.pinNc s.cfg s.trace.length s.far
    have hfar : (failedAt [] e s).far = s.far.writePin s.pinNc s.cfg s.trace.length p v .fail := hv
    rw [hfar]
    exact writePin_fail s.pinNc s.cfg s.trace.length p v s.far

/-! ### Rule R32: the known lines are the pin shadow -/

theorem pinLevel_append_one (t : List (Event × Answer)) (x : Event × Answer) (p : PinId) :
    pinLevel (t ++ [x]) p =
      match x with
      | (.setLevel q v, .ok) => if q = p then some v else pinLevel t p
      | _ => pinLevel t p := by
  rw [pinLevel, List.foldl_append]
  rfl

/-- A write moves the pin shadow and the line together; after a failed one the line is unknown. -/
theorem lineAgrees_write {t : List (Event × Answer)} {pin : PinId} {old : Option Level} (h : lineAgrees t pin old)
    (p : PinId) (v : Level) (a : Answer) :
    lineAgrees (t ++ [(.setLevel p v, a)]) pin (lineAfter pin p (levelAfter v a) old) := by
  intro w hw
  rw [pinLevel_append_one]
  by_cases hp : p = pin
  · rw [lineAfter, if_pos hp] at hw
    cases a with
    | ok => simpa [hp, levelAfter] using hw
    | fail => cases hw
  · rw [lineAfter, if_neg hp] at hw
    cases a with
    | ok => simpa [hp] using h w hw
    | fail => exact h w hw

/-- A failed direction call leaves the pin shadow alone and its line unknown. -/
theorem lineAgrees_setDir_fail {t : List (Event × Answer)} {pin : PinId} {old : Option Level}
    (h : lineAgrees t pin old) (p : PinId) :
    lineAgrees (t ++ [(.setDir p, .fail)]) pin (lineAfter pin p none old) := by
  intro w hw
  rw [pinLevel_append_one]
  by_cases hp : p = pin
  · rw [lineAfter, if_pos hp] at hw
    cases hw
  · rw [lineAfter, if_neg hp] at hw
    exact h w hw

/-- The line invariant goes from the lines of `s` to lines got from them pin by pin. -/
theorem LinesAgree.map {s t : State} (h : LinesAgree s) (hcfg : t.cfg = s.cfg) {g : PinId → Option Level → Option Level}
    (hlines : t.far.lines =
      { rs := g s.cfg.rsPin s.far.lines.rs, rw := g s.cfg.rwPin s.far.lines.rw, en := g s.cfg.enPin s.far.lines.en
        d0 := g s.cfg.dataPins.d0 s.far.lines.d0, d1 := g s.cfg.dataPins.d1 s.far.lines.d1
        d2 := g s.cfg.dataPins.d2 s.far.lines.d2, d3 := g s.cfg.dataPins.d3 s.far.lines.d3
        d4 := g s.cfg.dataPins.d4 s.far.lines.d4, d5 := g s.cfg.dataPins.d5 s.far.lines.d5
        d6 := g s.cfg.dataPins.d6 s.far.lines.d6, d7 := g s.cfg.dataPins.d7 s.far.lines.d7 })
    (hg : ∀ pin old, lineAgrees s.trace pin old → lineAgrees t.trace pin (g pin old)) : LinesAgree t := by
  obtain ⟨hrs, hrw, hen, h0, h1, h2, h3, h4, h5, h6, h7⟩ := h
  rw [LinesAgree, hlines, hcfg]
  exact ⟨hg _ _ hrs, hg _ _ hrw, hg _ _ hen, hg _ _ h0, hg _ _ h1, hg _ _ h2, hg _ _ h3, hg _ _ h4, hg _ _ h5,
    hg _ _ h6, hg _ _ h7⟩

theorem LinesAgree.of_same_lines {s t : State} (h : LinesAgree s) (hcfg : t.cfg = s.cfg)
    (hlines : t.far.lines = s.far.lines) (hshadow : ∀ p, pinLevel t.trace p = pinLevel s.trace p) : LinesAgree t :=
  h.map hcfg (g := fun _ old => old) hlines fun p _ hp v hv => (hshadow p).trans (hp v hv)

/-- Settles O47: a silent step moves neither trace nor lines, and a capability call moves both alike. -/
theorem stepKeepsLinesAgreeing : Obligations.StepKeepsLinesAgreeing := by
  intro s t h hstep
  rcases step_next_cases hstep with ⟨htrace, hfar, _, hcfg, _⟩ | ⟨_, _, _, q, e, ready, _, _, _, _, _, rfl⟩
  · exact h.of_same_lines hcfg (by rw [hfar]) fun p => by rw [htrace]
  · rcases e with p | ⟨p, v⟩ | ms
    · rcases answer_cases s with ha | ha
      · exact h.of_same_lines (by simp) (by simp [ha]) fun p => by simp [ha, pinLevel_append_one]
      · refine h.map (g := fun pin old => lineAfter pin p none old) (by simp) ?_ fun pin old hp => ?_
        · rw [afterCall_far, ha]
          exact writePin_lines _ _ _ p false .fail s.far
        · rw [afterCall_trace, ha]
          exact lineAgrees_setDir_fail hp p
    · refine h.map (g := fun pin old => lineAfter pin p (levelAfter v (answerAt s s.trace.length)) old) (by simp) ?_
        fun pin old hp => ?_
      · rw [afterCall_far, observe_setLevel, writePin_lines]
        rfl
      · rw [afterCall_trace]
        exact lineAgrees_write hp p v _
    · exact h.of_same_lines (by simp) (by simp) fun p => by simp [pinLevel_append_one]

/-! ### Rule R132: the calls of words and waits keep the frames -/

theorem dataPin_mem_usedDataPins {d : Descriptor} {j : Nat} (h : j < ndata d) :
    dataPin d.dataPins j ∈ usedDataPins d :=
  List.mem_map.2 ⟨j, by simpa using h, rfl⟩

theorem four_le_ndata (d : Descriptor) : 4 ≤ ndata d := by unfold ndata; split <;> omega

/-- Calls that keep the frames and leave E low, then calls that keep them from E low. -/
theorem keepsFrames_append {d : Descriptor} {en : Level} {es es' : List Event} (h : keepsFrames d en es)
    (h' : keepsFrames d false es') : keepsFrames d en (es ++ es') := by
  induction es generalizing en with
  | nil =>
    obtain rfl : en = false := h
    exact h'
  | cons e es ih =>
    rcases e with p | ⟨p, v⟩ | ms
    · exact h
    · simp only [List.cons_append, keepsFrames] at h ⊢
      by_cases hp : p = d.enPin
      · rw [if_pos hp] at h ⊢
        exact ⟨h.1, ih h.2⟩
      · rw [if_neg hp] at h ⊢
        obtain ⟨hlow, hpin, hes⟩ := h
        exact ⟨hlow, hpin, ih hes⟩
    · exact ih (en := en) h

theorem keepsFrames_rs {nc : PinId} {d : Descriptor} (hp : FramePins nc d) (rs : Level) {es : List Event}
    (h : keepsFrames d false es) : keepsFrames d false (.setLevel d.rsPin rs :: es) := by
  simp [keepsFrames, hp.rs_en, h]

theorem keepsFrames_dataWrites {nc : PinId} {d : Descriptor} (hp : FramePins nc d) (g : Nat → Level) (js : List Nat)
    (hj : ∀ j ∈ js, j < ndata d) : keepsFrames d false (js.map fun j => .setLevel (dataPin d.dataPins j) (g j)) := by
  induction js with
  | nil => rfl
  | cons j js ih =>
    have hlt := hj j List.mem_cons_self
    simp only [List.map_cons, keepsFrames, if_neg (hp.data_en j hlt)]
    exact ⟨trivial, .inr (dataPin_mem_usedDataPins hlt), ih fun i hi => hj i (List.mem_cons_of_mem j hi)⟩

theorem keepsFrames_nibble {nc : PinId} {d : Descriptor} (hp : FramePins nc d) (n : Nibble) :
    keepsFrames d false (nibbleRef d n) :=
  keepsFrames_dataWrites hp n.getLsbD (List.range 4)
    fun _ hj => Nat.lt_of_lt_of_le (List.mem_range.1 hj) (four_le_ndata d)

theorem keepsFrames_byte {nc : PinId} {d : Descriptor} (hp : FramePins nc d) (hb : d.bus8 = true) (v : Byte) :
    keepsFrames d false (byteRef d v) :=
  keepsFrames_dataWrites hp v.getLsbD (List.range 8) fun _ hj => by simpa [ndata, hb] using hj

theorem keepsFrames_pulse (d : Descriptor) : keepsFrames d false (pulseRef d) := by
  simp [pulseRef, keepsFrames]

theorem keepsFrames_tx {nc : PinId} {d : Descriptor} (hp : FramePins nc d) (rs : Level) (v : Byte) :
    keepsFrames d false (txRef d rs v) := by
  have hwait : keepsFrames d false [.delay 1] := rfl
  rw [txRef]
  split
  · rename_i hb
    exact keepsFrames_rs hp rs
      (keepsFrames_append (keepsFrames_append (keepsFrames_byte hp hb v) (keepsFrames_pulse d)) hwait)
  · exact keepsFrames_rs hp rs (keepsFrames_append (keepsFrames_append (keepsFrames_append (keepsFrames_append
      (keepsFrames_nibble hp _) (keepsFrames_pulse d)) (keepsFrames_nibble hp _)) (keepsFrames_pulse d)) hwait)

theorem keepsFrames_wordRef {nc : PinId} {d : Descriptor} (hp : FramePins nc d) (i : Instr) :
    keepsFrames d false (wordRef d i) := by
  cases i with
  | initializeRaw0011 | initializeRaw0010 => exact keepsFrames_append (keepsFrames_nibble hp _) (keepsFrames_pulse d)
  | clear | home => exact keepsFrames_append (keepsFrames_tx hp _ _) rfl
  | initializeFunctionSet | initializeDisplayDefault | initializeEntryDefault | setDisplayMode | scrollLeft |
    scrollRight | setTextDirection | createCustomCharCgramAddress | createCustomCharGlyphRow | setCursor | writeChar |
    print | transmitW8 | transmitW4x2 => exact keepsFrames_tx hp _ _

/-- A word or a wait: the items of host calls but for step 2 of `initialize`. -/
def IsWordOrWait (it : Item) : Prop := (∃ i, it = .word i) ∨ ∃ ms, it = .call (.delay ms)

theorem keepsFrames_plan {nc : PinId} {d : Descriptor} (hp : FramePins nc d) {its : List Item}
    (h : ∀ it ∈ its, IsWordOrWait it) : keepsFrames d false (plan d its) := by
  induction its with
  | nil => rfl
  | cons it its ih =>
    have hrest := ih fun jt hj => h jt (List.mem_cons_of_mem it hj)
    rcases h it List.mem_cons_self with ⟨i, rfl⟩ | ⟨ms, rfl⟩
    · exact keepsFrames_append (keepsFrames_wordRef hp i) hrest
    · exact hrest

/-- Step 2 of `initialize`, and what comes after it. -/
theorem initializeItems_split (nc : PinId) (d : Descriptor) :
    ∃ rest, initializeItems nc d = (setupRef nc d).map .call ++ rest ∧ ∀ it ∈ rest, IsWordOrWait it := by
  refine ⟨[.call (.delay tPower)] ++ lockingItems d ++
    [functionSetWord d, .word .initializeDisplayDefault, .word .initializeEntryDefault], ?_, ?_⟩
  · simp only [initializeItems, setupPins_eq, List.append_assoc]
  · cases hb : d.bus8 <;> simp [lockingItems, hb, functionSetWord, IsWordOrWait]

/-! ### Rule R132 at rest and when a call starts -/

theorem BusQuiet.congr {s t : State} (h : BusQuiet s) (hseq : t.seq = s.seq) (hphase : t.phase = s.phase)
    (hcfg : t.cfg = s.cfg) (hnc : t.pinNc = s.pinNc) (hfar : t.far = s.far) : BusQuiet t := by
  simpa only [BusQuiet, InSetup, InFrames, hseq, hphase, hcfg, hnc, hfar] using h

/-- A quiet bus at rest in `READY`: E and RW are low. -/
theorem BusQuiet.at_rest {s : State} (h : BusQuiet s) (hs : s.seq = []) (hp : s.phase = .ready) :
    pinsUsable s.pinNc s.cfg ∧ linesQuiet s := by
  rcases h with ⟨_, hnot⟩ | ⟨_, left, rest, hne, hseq, _⟩ | ⟨hu, hrw, en, hen, hk⟩
  · exact absurd hp hnot
  · rw [hs] at hseq
    exact absurd (List.map_eq_nil_iff.1 (List.append_eq_nil_iff.1 hseq.symm).1) hne
  · rw [hs] at hk
    obtain rfl : en = false := hk
    exact ⟨hu, hen, hrw⟩

theorem mem_setupRef {nc : PinId} {d : Descriptor} {p : PinId} (h : p ∈ setupPinsRef nc d) :
    .setLevel p false ∈ setupRef nc d :=
  List.mem_flatMap.2 ⟨p, h, by simp⟩

/-- The steps of `initialize` begin with step 2, which drives E and a connected RW low. -/
theorem inSetup_of_initializeItems {s : State} (hu : pinsUsable s.pinNc s.cfg)
    (hs : s.seq = initializeItems s.pinNc s.cfg) : InSetup s := by
  obtain ⟨rest, hitems, hrest⟩ := initializeItems_split s.pinNc s.cfg
  refine ⟨hu, setupRef s.pinNc s.cfg, rest, ?_, hs.trans hitems, List.suffix_refl _, .inr ?_, ?_,
    keepsFrames_plan (framePins_of_usable hu) hrest⟩
  · exact List.ne_nil_of_mem (mem_setupRef (p := s.cfg.enPin) (by simp [setupPinsRef]))
  · exact mem_setupRef (by simp [setupPinsRef])
  · by_cases hnc : s.cfg.rwPin = s.pinNc
    · exact .inl hnc
    · exact .inr (.inr (mem_setupRef (by simp [setupPinsRef, hnc])))

theorem busQuiet_startCall {c : HostCall} {s : State} (h : BusQuiet s) (hs : s.seq = []) :
    BusQuiet (startCall c s) := by
  obtain ⟨_, hfar, hphase, hcfg, hnc, _⟩ := startCall_silent c s
  rcases startCall_seq_cases c s with hseq | ⟨hu, hseq⟩ | ⟨ws, hp, _, hseq⟩
  · exact h.congr hseq hphase hcfg hnc hfar
  · exact .inr (.inl (inSetup_of_initializeItems (by rwa [hnc, hcfg]) (by rw [hseq, hnc, hcfg])))
  · obtain ⟨hu, hen, hrw⟩ := h.at_rest hs hp
    refine .inr (.inr ⟨by rwa [hnc, hcfg], by rwa [hcfg, hnc, hfar], false, by rwa [hfar], ?_⟩)
    rw [hcfg, hseq]
    refine keepsFrames_plan (framePins_of_usable hu) fun it hit => ?_
    obtain ⟨w, _, rfl⟩ := List.mem_map.1 hit
    exact .inl ⟨w, rfl⟩

/-! ### Rule R132 over a capability call -/

/-- The first of calls that keep the frames is a wait, or writes E, or RS or a data line while E is low. -/
theorem keepsFrames_cons {d : Descriptor} {en : Level} {e : Event} {es : List Event} (h : keepsFrames d en (e :: es)) :
    (∃ ms, e = .delay ms ∧ keepsFrames d en es) ∨
    (∃ v, e = .setLevel d.enPin v ∧ (en = true → v = false) ∧ keepsFrames d v es) ∨
    (∃ p v, e = .setLevel p v ∧ p ≠ d.enPin ∧ en = false ∧ (p = d.rsPin ∨ p ∈ usedDataPins d) ∧
      keepsFrames d en es) := by
  rcases e with p | ⟨p, v⟩ | ms
  · exact h.elim
  · simp only [keepsFrames] at h
    split at h
    · rename_i hp
      exact .inr (.inl ⟨v, by rw [hp], h.1, h.2⟩)
    · rename_i hp
      exact .inr (.inr ⟨p, v, rfl, hp, h⟩)
  · exact .inl ⟨ms, rfl, h⟩

/-- Calls that keep the frames do not touch a connected RW. -/
theorem rwPin_untouched_of_keepsFrames {nc : PinId} {d : Descriptor} {en : Level} {e : Event} {es : List Event}
    (hp : FramePins nc d) (hnc : d.rwPin ≠ nc) (h : keepsFrames d en (e :: es)) : eventPin e ≠ some d.rwPin := by
  obtain ⟨hrs, hen, _⟩ := hp.rw hnc
  rcases keepsFrames_cons h with ⟨ms, rfl, _⟩ | ⟨v, rfl, _⟩ | ⟨p, v, rfl, _, _, hpin | hpin, _⟩
  · exact nofun
  · exact fun he => hen (Option.some.inj he).symm
  · exact fun he => hrs ((Option.some.inj he).symm.trans hpin)
  · exact fun he => hp.rw_not_data hnc (Option.some.inj he ▸ hpin)

/-- A successful call that keeps the frames leaves RW low and E at the level the others keep them from. -/
theorem observe_of_keepsFrames {nc : PinId} {d : Descriptor} {k : Nat} {en : Level} {e : Event} {es : List Event}
    {f : FarEnd} (hp : FramePins nc d) (hrw : RwLow nc d f) (hen : f.lines.en = some en)
    (h : keepsFrames d en (e :: es)) :
    RwLow nc d (f.observe nc d k e .ok) ∧
      ∃ en', (f.observe nc d k e .ok).lines.en = some en' ∧ keepsFrames d en' es := by
  constructor
  · by_cases hnc : d.rwPin = nc
    · exact .inl hnc
    · exact .inr ((observe_lines_of_ne.2 (rwPin_untouched_of_keepsFrames hp hnc h)).trans (hrw.resolve_left hnc))
  · rcases keepsFrames_cons h with ⟨ms, rfl, hk⟩ | ⟨v, rfl, _, hk⟩ | ⟨p, v, rfl, hne, _, _, hk⟩
    · exact ⟨en, hen, hk⟩
    · exact ⟨v, by rw [observe_setLevel_lines]; exact lineAfter_self _ _ _, hk⟩
    · have hpin : eventPin (.setLevel p v) ≠ some d.enPin := fun he => hne (Option.some.inj he)
      exact ⟨en, (observe_lines_of_ne.1 hpin).trans hen, hk⟩

/-- A successful call of the pin setup leaves a low line low, and drives its own line low. -/
theorem lineAfter_setup {d : Descriptor} {nc : PinId} {k : Nat} {e : Event} {f : FarEnd}
    (he : ∀ q, e ≠ .setLevel q true) {pin : PinId} {line : Lines → Option Level}
    (hline : ∀ p o l, line (driveLines d p o l) = lineAfter pin p o (line l))
    (h : line f.lines = some false ∨ e = .setLevel pin false) :
    line (f.observe nc d k e .ok).lines = some false := by
  rcases e with p | ⟨p, v⟩ | ms
  · exact h.resolve_right Event.noConfusion
  · obtain rfl : v = false := by
      cases v
      · rfl
      · exact absurd rfl (he p)
    rw [observe_setLevel_lines, hline]
    rcases h with h | h
    · rw [lineAfter, h, ite_self]
    · cases h
      exact lineAfter_self _ _ _
  · exact h.resolve_right Event.noConfusion

/-- A line that is low or still to be driven low by the pin setup is so after its next call. -/
theorem low_or_left_of_setup {d : Descriptor} {nc : PinId} {k : Nat} {e : Event} {left : List Event} {f : FarEnd}
    (he : ∀ q, e ≠ .setLevel q true) {pin : PinId} {line : Lines → Option Level}
    (hline : ∀ p o l, line (driveLines d p o l) = lineAfter pin p o (line l))
    (h : line f.lines = some false ∨ .setLevel pin false ∈ e :: left) :
    line (f.observe nc d k e .ok).lines = some false ∨ .setLevel pin false ∈ left := by
  rcases h with h | h
  · exact .inl (lineAfter_setup he hline (.inl h))
  · rcases List.mem_cons.1 h with rfl | hleft
    · exact .inl (lineAfter_setup he hline (.inr rfl))
    · exact .inr hleft

/-- The state after a successful capability call of a running host call. -/
theorem busQuiet_of_inFrames {s t : State} {e : Event} {es : List Event} (h : InFrames s)
    (hplan : plan s.cfg s.seq = e :: es) (hcfg : t.cfg = s.cfg) (hnc : t.pinNc = s.pinNc)
    (hfar : t.far = s.far.observe s.pinNc s.cfg s.trace.length e .ok) (ht : plan s.cfg t.seq = es) : BusQuiet t := by
  obtain ⟨hu, hrw, en, hen, hk⟩ := h
  rw [hplan] at hk
  obtain ⟨hrw', en', hen', hk'⟩ :=
    observe_of_keepsFrames (k := s.trace.length) (framePins_of_usable hu) hrw hen hk
  refine .inr (.inr ?_)
  rw [InFrames, hcfg, hnc, hfar, ht]
  exact ⟨hu, hrw', en', hen', hk'⟩

theorem busQuiet_of_inSetup {s t : State} {it x : Item} {rest q : List Item} {e : Event} {ready : Bool} (h : InSetup s)
    (hs : s.seq = it :: rest) (hx : expandItem s.cfg it ++ rest = x :: q)
    (he : x = (if ready then .callThenReady e else .call e)) (hcfg : t.cfg = s.cfg) (hnc : t.pinNc = s.pinNc)
    (hfar : t.far = s.far.observe s.pinNc s.cfg s.trace.length e .ok) (ht : t.seq = q) : BusQuiet t := by
  obtain ⟨hu, left, after, hne, hseq, hsuf, hen, hrw, hk⟩ := h
  obtain ⟨e', left, rfl⟩ := List.exists_cons_of_ne_nil hne
  rw [hs, List.map_cons, List.cons_append] at hseq
  obtain ⟨rfl, rfl⟩ := List.cons.inj hseq
  simp only [expandItem, List.cons_append, List.nil_append, List.cons.injEq] at hx
  obtain ⟨rfl, rfl⟩ := hx
  obtain rfl : e' = e := by cases ready <;> simp at he; exact he
  have hlow := (mem_setup_pins (hsuf.subset List.mem_cons_self)).2
  have hen' := low_or_left_of_setup (k := s.trace.length) (nc := s.pinNc) (line := Lines.en) hlow (fun _ _ _ => rfl) hen
  have hrw' : s.cfg.rwPin = s.pinNc ∨
      (s.far.observe s.pinNc s.cfg s.trace.length e' .ok).lines.rw = some false ∨
        .setLevel s.cfg.rwPin false ∈ left :=
    hrw.imp_right fun h => low_or_left_of_setup (line := Lines.rw) hlow (fun _ _ _ => rfl) h
  rcases left with _ | ⟨e₂, left⟩
  · refine .inr (.inr ?_)
    rw [InFrames, hcfg, hnc, hfar, ht]
    exact ⟨hu, by simpa using hrw', false, by simpa using hen', hk⟩
  · refine .inr (.inl ?_)
    rw [InSetup, hcfg, hnc, hfar]
    exact ⟨hu, e₂ :: left, after, List.cons_ne_nil _ _, ht, (List.suffix_cons e' _).trans hsuf, hen', hrw', hk⟩

theorem busQuiet_afterCall {s : State} {it x : Item} {rest q : List Item} {e : Event} {ready : Bool} (h : BusQuiet s)
    (hs : s.seq = it :: rest) (hx : expandItem s.cfg it ++ rest = x :: q)
    (he : x = (if ready then .callThenReady e else .call e)) : BusQuiet (afterCall ready e q s) := by
  rcases answer_cases s with ha | ha
  · have hseq := (afterCall_of_ok ha ready e q).1
    have hfar : (afterCall ready e q s).far = s.far.observe s.pinNc s.cfg s.trace.length e .ok := by
      rw [afterCall_far, ha]
    rcases h with ⟨hnil, _⟩ | hsetup | hframes
    · rw [hs] at hnil
      cases hnil
    · exact busQuiet_of_inSetup hsetup hs hx he (afterCall_cfg _ _ _ _) (afterCall_pinNc _ _ _ _) hfar hseq
    · exact busQuiet_of_inFrames hframes (plan_after hs hx he) (afterCall_cfg _ _ _ _) (afterCall_pinNc _ _ _ _) hfar
        (by rw [hseq])
  · obtain ⟨hseq, hphase, -⟩ := afterCall_of_fail ha ready e q
    exact .inl ⟨hseq, by rw [hphase]; decide⟩

/-- Settles O44: each kind of step keeps the bus quiet, and a quiet bus at rest in `READY` has E and RW low. -/
theorem stepKeepsTheBusQuiet : Obligations.StepKeepsTheBusQuiet := by
  intro s t h hstep
  have hquiet : BusQuiet t := by
    cases moves_of_step hstep with
    | idle _ => exact h
    | start hs hr => exact busQuiet_startCall (h.congr rfl rfl rfl rfl rfl) (by exact hs)
    | overlap hr => exact h.congr rfl rfl rfl rfl rfl
    | refusedWord hs hi hp => exact .inl ⟨rfl, hp⟩
    | call hs hx he => exact busQuiet_afterCall h hs hx he
  exact ⟨hquiet, hquiet.at_rest⟩

/-! ### The pins a step touches -/

theorem mem_setupRef_cases {nc : PinId} {d : Descriptor} {e : Event} (h : e ∈ setupRef nc d) :
    ∃ p ∈ setupPinsRef nc d, e = .setDir p ∨ e = .setLevel p false := by
  obtain ⟨p, hp, hep⟩ := List.mem_flatMap.1 h
  exact ⟨p, hp, by simpa using hep⟩

/-- The first call left on a quiet bus is one of step 2, or a wait, or writes RS, E or a data line. -/
theorem BusQuiet.first_call_cases {s : State} {e : Event} {es : List Event} (h : BusQuiet s)
    (hplan : plan s.cfg s.seq = e :: es) :
    (InSetup s ∧ ∃ p ∈ setupPinsRef s.pinNc s.cfg, e = .setDir p ∨ e = .setLevel p false) ∨
    (∃ ms, e = .delay ms) ∨
    (∃ p v, e = .setLevel p v ∧ (p = s.cfg.rsPin ∨ p = s.cfg.enPin ∨ p ∈ usedDataPins s.cfg)) := by
  rcases h with ⟨hnil, _⟩ | hsetup | ⟨_, _, en, _, hk⟩
  · simp [hnil] at hplan
  · refine .inl ⟨hsetup, ?_⟩
    obtain ⟨_, left, rest, hne, hseq, hsuf, _⟩ := hsetup
    obtain ⟨e', left, rfl⟩ := List.exists_cons_of_ne_nil hne
    rw [hseq, plan_append, plan_calls, List.cons_append] at hplan
    obtain ⟨rfl, _⟩ := List.cons.inj hplan
    exact mem_setupRef_cases (hsuf.subset List.mem_cons_self)
  · rw [hplan] at hk
    rcases keepsFrames_cons hk with ⟨ms, rfl, _⟩ | ⟨v, rfl, _⟩ | ⟨p, v, rfl, _, _, hpin, _⟩
    · exact .inr (.inl ⟨ms, rfl⟩)
    · exact .inr (.inr ⟨_, v, rfl, .inr (.inl rfl)⟩)
    · exact .inr (.inr ⟨p, v, rfl, hpin.imp_right .inr⟩)

/-- Settles O39: a step is silent or makes the first of the calls left, by `BusQuiet.first_call_cases`. -/
theorem stepTouchesOnlyItsPins : Obligations.StepTouchesOnlyItsPins := by
  intro s t h hstep
  rcases step_silent_or_first_of_plan hstep with ⟨htrace, _⟩ | ⟨e, es, hplan, htrace, _⟩
  · exact ⟨[], by simp [htrace], by simp⟩
  · refine ⟨_, htrace, fun x hx => ?_⟩
    rw [List.mem_singleton] at hx
    subst hx
    rcases h.first_call_cases hplan with ⟨hsetup, p, hp, rfl | rfl⟩ | ⟨ms, rfl⟩ | ⟨p, v, rfl, hpin⟩
    · exact ⟨hsetup, hp⟩
    · exact .inl ⟨hsetup, hp, rfl⟩
    · trivial
    · exact .inr hpin

/-- Settles O54: with E high, the first of calls that keep the frames is a wait or drives E low. -/
theorem onlyEnableIsWrittenWhileItIsHigh : Obligations.OnlyEnableIsWrittenWhileItIsHigh := by
  rintro s t ⟨_, _, en, hen, hk⟩ hhigh hstep e a htrace
  obtain rfl : true = en := Option.some.inj (hhigh.symm.trans hen)
  rcases step_silent_or_first_of_plan hstep with ⟨hsame, _⟩ | ⟨e', es, hplan, htrace', _⟩
  · rw [hsame] at htrace
    simp at htrace
  · rw [htrace', List.append_cancel_left_eq, List.cons.injEq, Prod.mk.injEq] at htrace
    obtain ⟨⟨rfl, -⟩, -⟩ := htrace
    rw [hplan] at hk
    rcases keepsFrames_cons hk with ⟨ms, rfl, _⟩ | ⟨v, rfl, hv, _⟩ | ⟨_, _, _, _, hlow, _⟩
    · exact .inr ⟨ms, rfl⟩
    · exact .inl (by rw [hv rfl])
    · cases hlow

end Sys2Proof.Machine
end

section
/-! SUPPORT. Words and host calls as runs: the proofs of the statements about what each word and each host call issues,
and where it stops. -/

namespace Sys2Proof.Machine

/-! ### A word completes -/

/-- The meaning of a word that runs makes its first call and leaves the others in the sequencer. -/
theorem exec_first_call {i : Instr} {s : State} (hc : canRun i s) (ha : answerAt s s.trace.length = .ok) :
    ∃ e es q, wordRef s.cfg i = e :: es ∧ exec i s = .next { record e .ok s with seq := q } := by
  obtain ⟨e, es, more, href, hitems, hmore⟩ := wordItems_eq_cons s.cfg i
  refine ⟨e, es, more ++ s.seq, href, ?_⟩
  have hok : answerAt { s with seq := more ++ s.seq } s.trace.length = .ok := ha
  rw [exec_of_canRun hc, hitems, begin, issue_of_ok hok, finishItem_of_ne (by simp [hmore])]
  rfl

/-- A word that runs and meets no failure completes with its reference events, in `READY` if it makes the phase so. -/
theorem completesWith_wordRef {i : Instr} {s : State} (hc : canRun i s) (he : noEarlyRequest s)
    (ha : AllOk s (wordRef s.cfg i).length) :
    CompletesWith i (wordRef s.cfg i) (if readies (.word i) then .ready else s.phase) s := by
  obtain ⟨n, hn⟩ : ∃ n, (wordRef s.cfg i).length = n + 1 :=
    Nat.exists_eq_succ_of_ne_zero (by simpa using wordRef_ne_nil s.cfg i)
  obtain ⟨e, es, q, href, hexec⟩ := exec_first_call hc (AllOk.head (n := n) (hn ▸ ha))
  obtain ⟨u, hu, hrun⟩ := exec_run hc he ha
  rw [hexec] at hu
  cases hu
  refine ⟨_, _, hexec, ?_, hrun, ?_⟩
  · rw [href]
    rfl
  · rfl

/-- The steady-state words run in `READY`. -/
theorem completesWith_of_steadyWord {i : Instr} {s : State} (hi : steadyWord i = true) (hp : s.phase = .ready)
    (he : noEarlyRequest s) (ha : AllOk s (wordRef s.cfg i).length) : CompletesWith i (wordRef s.cfg i) .ready s := by
  have hw : busWidthOf i = none := by
    cases i <;> simp only [steadyWord, Bool.false_eq_true] at hi <;> rfl
  have hc : canRun i s := ⟨fun w hb => (by simp [hw] at hb), fun _ => hp⟩
  have hr : readies (.word i) = false := by
    cases i <;> simp only [steadyWord, Bool.false_eq_true] at hi <;> rfl
  have := completesWith_wordRef hc he ha
  rwa [hr, if_neg Bool.false_ne_true, hp] at this

/-- Settles O10: each word completes with its reference events. -/
theorem displayWordsComplete : Obligations.DisplayWordsComplete := by
  intro s hp he
  refine ⟨fun ha => ?_, fun ha => ?_⟩
  · have hlen : ∀ v, (txRef s.cfg false v ++ [Event.delay 50]).length = txCount s.cfg + 1 := by simp [txRef_length]
    exact ⟨completesWith_of_steadyWord (i := .clear) rfl hp he (by rwa [wordRef, hlen]),
      completesWith_of_steadyWord (i := .home) rfl hp he (by rwa [wordRef, hlen])⟩
  · have hlen : ∀ v, (txRef s.cfg false v).length = txCount s.cfg := fun v => txRef_length _ _ v
    exact ⟨fun on cursor blink => completesWith_of_steadyWord (i := .setDisplayMode on cursor blink) rfl hp he
        (by rwa [wordRef, hlen]),
      completesWith_of_steadyWord (i := .scrollLeft) rfl hp he (by rwa [wordRef, hlen]),
      completesWith_of_steadyWord (i := .scrollRight) rfl hp he (by rwa [wordRef, hlen]),
      fun ltr autoscroll => completesWith_of_steadyWord (i := .setTextDirection ltr autoscroll) rfl hp he
        (by rwa [wordRef, hlen])⟩

theorem cgramWord_byte (slot : BitVec 3) : BitVec.ofNat 8 (0x40 + 8 * slot.toNat) = 0x40 + 8 * slot.setWidth 8 := by
  revert slot; decide

theorem ddramWord_byte (a : BitVec 7) : BitVec.ofNat 8 (0x80 + a.toNat) = 0x80 + a.setWidth 8 := by
  revert a; decide

/-- Settles O11: each word completes with its reference events. -/
theorem addressAndDataWordsComplete : Obligations.AddressAndDataWordsComplete := by
  intro s hp he ha
  have hlen : ∀ rs v, (txRef s.cfg rs v).length = txCount s.cfg := txRef_length s.cfg
  refine ⟨fun slot => ?_, fun g => ?_, fun a => ?_, fun b => ?_, fun b => ?_⟩
  · rw [cgramWord_byte]
    exact completesWith_of_steadyWord (i := .createCustomCharCgramAddress slot) rfl hp he (by rwa [wordRef, hlen])
  · exact completesWith_of_steadyWord (i := .createCustomCharGlyphRow g) rfl hp he (by rwa [wordRef, hlen])
  · rw [ddramWord_byte]
    exact completesWith_of_steadyWord (i := .setCursor a) rfl hp he (by rwa [wordRef, hlen])
  · exact completesWith_of_steadyWord (i := .writeChar b) rfl hp he (by rwa [wordRef, hlen])
  · exact completesWith_of_steadyWord (i := .print b) rfl hp he (by rwa [wordRef, hlen])

/-- Settles O12: the three words run in any phase, and only `entry_default` makes it `READY`. -/
theorem initializeTransmitsComplete : Obligations.InitializeTransmitsComplete := by
  intro s he ha
  have hlen : ∀ v, AllOk s (txRef s.cfg false v).length := fun v => by rwa [txRef_length]
  have hc : ∀ i, busWidthOf i = none → steadyWord i = false → canRun i s := fun i hw hs => by simp [canRun, hw, hs]
  exact ⟨fun dl n f => completesWith_wordRef (hc (.initializeFunctionSet dl n f) rfl rfl) he (hlen _),
    completesWith_wordRef (hc .initializeDisplayDefault rfl rfl) he (hlen _),
    completesWith_wordRef (hc .initializeEntryDefault rfl rfl) he (hlen _)⟩

theorem canRun_of_busWidth {i : Instr} {s : State} (hw : busWidthOf i = some s.cfg.bus8) (hi : steadyWord i = false) :
    canRun i s := by
  simp [canRun, hw, hi]

/-- Settles O13: the raw nibbles run on a 4-bit bus. -/
theorem rawNibblesComplete : Obligations.RawNibblesComplete := by
  intro s hb he ha
  exact ⟨completesWith_wordRef (canRun_of_busWidth (i := .initializeRaw0011) (by rw [hb]; rfl) rfl) he ha,
    completesWith_wordRef (canRun_of_busWidth (i := .initializeRaw0010) (by rw [hb]; rfl) rfl) he ha⟩

/-- Settles O14: each frame runs on its own bus width. -/
theorem transmitFramesComplete : Obligations.TransmitFramesComplete := by
  intro s isData v he
  refine ⟨fun hb ha => ?_, fun hb ha => ?_⟩
  · have href : wordRef s.cfg (.transmitW8 isData v) =
        .setLevel s.cfg.rsPin isData :: byteRef s.cfg v ++ pulseRef s.cfg ++ [.delay 1] := by
      rw [wordRef, txRef, if_pos hb]
    exact href ▸ completesWith_wordRef (canRun_of_busWidth (by rw [hb]; rfl) rfl) he (href ▸ ha)
  · have href : wordRef s.cfg (.transmitW4x2 isData v) =
        .setLevel s.cfg.rsPin isData :: nibbleRef s.cfg (v.extractLsb' 4 4) ++ pulseRef s.cfg ++
          nibbleRef s.cfg (v.extractLsb' 0 4) ++ pulseRef s.cfg ++ [.delay 1] := by
      rw [wordRef, txRef, if_neg (by simp [hb])]
    exact href ▸ completesWith_wordRef (canRun_of_busWidth (by rw [hb]; rfl) rfl) he (href ▸ ha)

/-- Settles O17: the run stops in `failedAt`, which is the state `Failed` describes. -/
theorem firstFailureEndsTheWord : Obligations.FirstFailureEndsTheWord := by
  intro s i before after e hc he href ha hf
  obtain ⟨u, hu, hrun⟩ := exec_run_fail hc he href ha hf
  exact ⟨u, _, hu, hrun, failed_failedAt before e s⟩

/-! ### Step 2 of `initialize`, and its waits -/

theorem recordAll_seq (es : List Event) (s : State) (q : List Item) :
    recordAll es { s with seq := q } = { recordAll es s with seq := q } := by
  rw [recordAll_eq, recordAll_eq]

/-- Calls at hand, all answered `ok`, leave the state that the reference calls `Emitted`. -/
theorem run_calls_emitted {s : State} {es : List Event} {rest : List Item} (hs : s.seq = es.map .call ++ rest)
    (hne : es ≠ []) (he : noEarlyRequest s) (ha : AllOk s es.length) :
    ∃ t, run es.length s = .next t ∧ Emitted es { s with seq := rest } t := by
  refine ⟨_, run_calls_finish hs hne he ha, ?_⟩
  rw [← recordAll_seq]
  exact emitted_finishItem_recordAll es { s with seq := rest }

theorem setupRef_ne_nil (nc : PinId) (d : Descriptor) : setupRef nc d ≠ [] :=
  List.ne_nil_of_mem (mem_setupRef (p := d.rsPin) (by simp [setupPinsRef]))

/-- Settles O25: both are calls at hand. -/
theorem setupAndWaitsComplete : Obligations.SetupAndWaitsComplete := by
  intro s rest he
  refine ⟨fun hs ha => run_calls_emitted hs (setupRef_ne_nil _ _) he ha, fun ms hs ha => ?_⟩
  obtain ⟨hstep, _⟩ := oneCallIsOneStep s (.delay ms) rest hs he
  exact hstep (AllOk.head ha)

/-! ### A host call starts -/

theorem unusablePinSet_iff (nc : PinId) (d : Descriptor) :
    unusablePinSet nc d = true ↔ ¬(setupPinsRef nc d).Nodup ∨ nc ∈ usedDataPins d := by
  simp only [unusablePinSet, usedPins_eq, Bool.or_eq_true, Bool.not_eq_true', ← Bool.not_eq_true,
    allDistinct_iff_nodup, List.contains_iff_mem]

theorem initializeItems_ne_nil (nc : PinId) (d : Descriptor) : initializeItems nc d ≠ [] := by
  simp [initializeItems]

/-- Settles O24: once step 1 has passed, the pin set decides. -/
theorem initializeStartsUnlessPinsAreUnusable : Obligations.InitializeStartsUnlessPinsAreUnusable := by
  intro s early rs hs hr hvalid
  rw [← descriptorInvalid_iff, Bool.not_eq_true] at hvalid
  rw [step_start hs hr]
  refine ⟨fun hbad => ?_, fun hnodup hdata => ?_⟩
  · simp only [startCall, callInitialize, hvalid, (unusablePinSet_iff s.pinNc s.cfg).2 hbad]
    rfl
  · have husable : unusablePinSet s.pinNc s.cfg = false := by
      rw [← Bool.not_eq_true, unusablePinSet_iff]
      exact fun h => h.elim (· hnodup) hdata
    simp only [startCall, callInitialize, hvalid, husable]
    exact congrArg _ (beginCall_of_ne (initializeItems_ne_nil _ _) _)

/-- A call that does not pass its checks ends at once, in neither `Ok` nor `IoError`. -/
theorem startCall_of_not_accepted {c : HostCall} {s : State} (h : ¬accepted c s) :
    ∃ r, r ≠ .ok ∧ r ≠ .ioError ∧ (startCall c s).outcomes = s.outcomes ++ [r] ∧ (startCall c s).seq = s.seq := by
  rcases startCall_cases c s with ⟨_, _, h1⟩ | ⟨_, _, h1⟩ | ⟨_, _, _, h1⟩ | ⟨rfl, hu, _⟩ | ⟨_, _, _, _, _, h1⟩ |
    ⟨_, hc, hp, _, _⟩
  · exact ⟨.refused, by simp [h1]⟩
  · exact ⟨.configError, by simp [h1]⟩
  · exact ⟨.refused, by simp [h1]⟩
  · exact absurd hu h
  · exact ⟨.invalidArgument, by simp [h1]⟩
  · cases c with
    | initializeCall => exact absurd rfl hc
    | createCustomChar slot g =>
      have h7 : 7 < slot.toNat := Nat.not_le.1 fun h7 => h ⟨hp, h7⟩
      exact ⟨.invalidArgument, by simp [startCall_createCustomChar_of_bad_slot hp h7 g]⟩
    | clear | home | setDisplayMode | scrollLeft | scrollRight | setTextDirection | setCursor | writeChar | print =>
      exact absurd hp h

/-! ### A host call runs -/

/-- An accepted call is `initialize`, which makes the phase `READY`, or starts in `READY`. -/
theorem accepted_phase {c : HostCall} {s : State} (h : accepted c s) :
    (callItems s.pinNc s.cfg c).any readies = true ∨ s.phase = .ready := by
  cases c with
  | initializeCall => exact .inl (by simp [callItems, initializeItems, readies])
  | createCustomChar => exact .inr h.1
  | clear | home | setDisplayMode | scrollLeft | scrollRight | setTextDirection | setCursor | writeChar | print =>
    exact .inr h

/-- The step that starts an accepted call loads its items. -/
theorem step_of_asked {c : HostCall} {rs : List Request} {s : State} (hq : asked c rs s) (h : accepted c s) :
    step s = .next (beginCall (callItems s.pinNc s.cfg c) { s with requests := rs }) := by
  obtain ⟨hs, ⟨early, hr⟩, _⟩ := hq
  rw [step_start hs hr]
  have haccepted : accepted c { s with requests := rs } := by cases c <;> exact h
  exact congrArg _ (startCall_of_accepted haccepted)

/-- Settles O28: the call starts, and its items run to the end with its reference trace. -/
theorem acceptedCallIssuesItsReferenceTrace : Obligations.AcceptedCallIssuesItsReferenceTrace := by
  intro s c rs hq h ha
  have hstep := step_of_asked hq h
  have href := callItems_ref h
  have hphase := accepted_phase h
  have hruns := callItems_run h
  obtain ⟨hs, -, he⟩ := hq
  by_cases hne : callItems s.pinNc s.cfg c = []
  · rw [hne] at hstep href hphase
    have hready : s.phase = .ready := hphase.resolve_left (by simp)
    rw [← href]
    refine ⟨_, run_one hstep, ?_⟩
    simp [Emitted, beginCall, finishItem, endCall, succeeded, observeAll, hs, hready]
  · rw [beginCall_of_ne hne] at hstep
    have hrun := run_items (s := { s with requests := rs, seq := callItems s.pinNc s.cfg c }) hne rfl he hruns
      (by rwa [href])
    rw [href] at hrun
    refine ⟨_, (run_succ hstep).trans hrun, ?_⟩
    have hlast : (if (callItems s.pinNc s.cfg c).any readies then .ready else s.phase) = Phase.ready := by
      split
      · rfl
      · rename_i hnot
        exact hphase.resolve_left hnot
    simp only [Emitted, ranItems, href, hs, if_true, hlast]

/-- Settles O29: the call starts, and its items run to the first capability call that fails. -/
theorem acceptedCallStopsAtItsFirstFailure : Obligations.AcceptedCallStopsAtItsFirstFailure := by
  intro s c rs before after e hq h hsplit ha hf
  have hstep := step_of_asked hq h
  have href := callItems_ref h
  have hruns := callItems_run h
  obtain ⟨hs, -, he⟩ := hq
  have hne : callItems s.pinNc s.cfg c ≠ [] := by
    intro hnil
    rw [hnil, hsplit] at href
    simp at href
  rw [beginCall_of_ne hne] at hstep
  refine ⟨failedAt before e { s with requests := rs }, ?_, failed_failedAt _ _ _⟩
  have hrun := run_items_fail (s := { s with requests := rs, seq := callItems s.pinNc s.cfg c }) rfl he hruns
    (href.trans hsplit) ha hf
  rw [run_succ hstep, hrun]
  exact congrArg _ (failedAt_seq before e { s with requests := rs } _)

/-- Settles O30: an accepted call issues its reference trace, whose calls and times are those of `callRef_cost`; one
that is not ends when it starts. -/
theorem referenceTraceCountsAndTimes : Obligations.ReferenceTraceCountsAndTimes := by
  intro s c rs hq
  obtain ⟨hcount, hms⟩ := callRef_cost s.pinNc s.cfg c
  refine ⟨fun h ha => ?_, fun h => ?_⟩
  · rw [← hcount] at ha ⊢
    obtain ⟨t, hrun, rfl⟩ := acceptedCallIssuesItsReferenceTrace s c rs hq h ha
    refine ⟨_, succeeded (callRef s.pinNc s.cfg c), hrun, hq.1, if_pos hq.1, rfl, ?_, hms⟩
    rw [succeeded, List.length_map]
  · obtain ⟨hs, ⟨early, hr⟩, -⟩ := hq
    have hnot : ¬accepted c { s with requests := rs } := fun h' => h (by cases c <;> exact h')
    obtain ⟨r, hok, hio, hout, hseq⟩ := startCall_of_not_accepted hnot
    exact ⟨_, r, step_start hs hr, hseq.trans hs, hout, hok, hio, (startCall_silent c _).1⟩

/-! ### The address mapper -/

/-- Settles O33: the two clamps in order are the minimum, and `set_cursor` starts with the clamped row's offset. -/
theorem rowClampIsTheMinimum : Obligations.RowClampIsTheMinimum := by
  refine ⟨fun lineCount row h1 h4 => ?_, fun s early col row rs hs hr hp _ _ => ?_⟩
  · unfold clampRow clampToThree
    split <;> split <;> omega
  · have hstart : startCall (.setCursor col row) { s with requests := rs } = _ :=
      startCall_of_accepted (c := .setCursor col row) (s := { s with requests := rs }) hp
    rw [step_start hs hr, hstart, callItems, beginCall_of_ne (by simp), ddramAddress, clampRow_eq_rowRef]

theorem ddramByte_bits (a : Byte) :
    (0x80 ||| a : Byte).getLsbD 7 = true ∧ (0x80 ||| a : Byte).toNat % 128 = a.toNat % 128 := by
  revert a; decide

/-- Settles O34: the reference trace of `set_cursor` transmits the command byte of the mapped address. -/
theorem setCursorSendsTheMappedAddress : Obligations.SetCursorSendsTheMappedAddress := by
  intro s col row rs hq hp _ _ ha
  have hlen : (callRef s.pinNc s.cfg (.setCursor col row)).length = txCount s.cfg := txRef_length _ _ _
  obtain ⟨t, hrun, rfl⟩ := acceptedCallIssuesItsReferenceTrace s (.setCursor col row) rs hq hp (by rwa [hlen])
  rw [hlen] at hrun
  obtain ⟨hcommand, hlow⟩ := ddramByte_bits (rowOffset s.cfg.rowOffsets (rowRef s.cfg row) + col)
  exact ⟨_, _, _, BitVec.toNat_add _ _, hcommand, hlow, hrun, rfl, rfl, if_pos hq.1⟩

/-! ### `print` and `write_char` -/

/-- `write_char` of each byte of a text, one call after the other. -/
theorem run_writeChars (text : List Byte) (s : State) (hs : s.seq = []) (hp : s.phase = .ready)
    (hr : s.requests = text.map fun b => ⟨false, .writeChar b⟩) (ha : AllOk s (text.length * txCount s.cfg)) :
    run (text.length * (txCount s.cfg + 1)) s = .next { s with
      requests := []
      trace := s.trace ++ succeeded (callRef s.pinNc s.cfg (.print text))
      far := observeAll s.pinNc s.cfg s.trace.length (callRef s.pinNc s.cfg (.print text)) s.far
      outcomes := s.outcomes ++ List.replicate text.length .ok } := by
  induction text generalizing s with
  | nil =>
    obtain ⟨⟩ := s
    simp_all [callRef, succeeded, observeAll]
  | cons b text ih =>
    rw [List.length_cons, Nat.succ_mul, Nat.add_comm] at ha
    have hq : asked (.writeChar b) (text.map fun b => ⟨false, .writeChar b⟩) s := by
      refine ⟨hs, ⟨false, hr⟩, fun r rs' hrs => ?_⟩
      cases text with
      | nil => cases hrs
      | cons b' text => cases hrs; rfl
    have hlen : (callRef s.pinNc s.cfg (.writeChar b)).length = txCount s.cfg := txRef_length _ _ _
    obtain ⟨t, hrun, ht⟩ := acceptedCallIssuesItsReferenceTrace s (.writeChar b) _ hq hp
      (by rw [hlen]; exact AllOk.mono ha (Nat.le_add_right _ _))
    rw [hlen] at hrun
    have htail := ih t (by rw [ht]; exact hs) (by rw [ht]) (by rw [ht])
      (by rw [ht]; exact AllOk.drop (s := s) ha rfl (by simp [succeeded, hlen]))
    rw [List.length_cons, Nat.succ_mul, Nat.add_comm, run_add hrun]
    have hcfg : t.cfg = s.cfg := by rw [ht]
    rw [hcfg] at htail
    rw [htail, ht]
    simp [callRef, hs, hp, succeeded, observeAll_append, List.replicate_succ]

/-- Settles O35: both leave the reference trace of `print`, of one call or of one call for each byte. -/
theorem printIsWriteCharOfEachByte : Obligations.PrintIsWriteCharOfEachByte := by
  intro s text hs hp ha
  have hlen : (callRef s.pinNc s.cfg (.print text)).length = text.length * txCount s.cfg :=
    (callRef_cost s.pinNc s.cfg (.print text)).1
  obtain ⟨t, hrun, rfl⟩ := acceptedCallIssuesItsReferenceTrace { s with requests := [⟨false, .print text⟩] }
    (.print text) [] ⟨hs, ⟨false, rfl⟩, nofun⟩ hp (by rw [hlen]; exact ha)
  rw [hlen] at hrun
  have hwrites := run_writeChars text { s with requests := text.map fun b => ⟨false, .writeChar b⟩ } hs hp rfl ha
  exact ⟨_, _, hrun, hwrites, rfl, rfl, hp.symm, rfl, if_pos hs, rfl⟩

/-! ### Conformance -/

theorem eventConforms_refl (e : Event) : eventConforms e e := by
  cases e with
  | delay ms => exact Nat.le_refl ms
  | setDir | setLevel => rfl

theorem traceConforms_refl (t : List (Event × Answer)) : traceConforms t t := by
  induction t with
  | nil => trivial
  | cons x t ih => exact ⟨eventConforms_refl x.1, rfl, ih⟩

/-- A conforming event takes at least the time of the reference event. -/
theorem callMsOf_le_of_conforms {e' e : Event} (h : eventConforms e' e) : callMsOf (e, .ok) ≤ callMsOf (e', .ok) := by
  cases e with
  | setDir | setLevel => exact Nat.zero_le _
  | delay ms =>
    cases e' with
    | delay ms' => exact h
    | setDir | setLevel => cases h

/-- A trace that conforms to calls that succeeded: as many, all succeeded, and no faster. -/
theorem traceConforms_succeeded {t : List (Event × Answer)} {es : List Event} (h : traceConforms t (succeeded es)) :
    t.length = es.length ∧ (∀ x ∈ t, x.2 = .ok) ∧ okMs es ≤ traceMs t := by
  induction es generalizing t with
  | nil =>
    cases t with
    | nil => simp [traceMs]
    | cons x t => exact h.elim
  | cons e es ih =>
    cases t with
    | nil => exact h.elim
    | cons x t =>
      obtain ⟨e', a'⟩ := x
      obtain ⟨he, rfl, ht⟩ : eventConforms e' e ∧ a' = .ok ∧ traceConforms t (succeeded es) := h
      obtain ⟨hlen, hok, hms⟩ := ih ht
      have hfirst := callMsOf_le_of_conforms he
      refine ⟨by simp [hlen], by simpa using hok, ?_⟩
      simp only [okMs, traceMs, succeeded, List.map_cons, List.sum_cons] at hms ⊢
      omega

/-- Settles O50: conformance keeps the number of calls and the least time, and the machine's own trace is the reference
trace. -/
theorem conformingTraceIsNoFaster : Obligations.ConformingTraceIsNoFaster := by
  intro s c rs hq h ha
  obtain ⟨hcount, hms⟩ := callRef_cost s.pinNc s.cfg c
  refine ⟨fun t' ht' => ?_, ?_⟩
  · obtain ⟨hlen, hok, htime⟩ := traceConforms_succeeded ht'
    exact ⟨hlen.trans hcount, hok, hms ▸ htime⟩
  · obtain ⟨t, hrun, rfl⟩ := acceptedCallIssuesItsReferenceTrace s c rs hq h ha
    rw [hcount] at hrun
    exact ⟨_, _, hrun, rfl, traceConforms_refl _⟩

end Sys2Proof.Machine
end

section
/-! SUPPORT. What reaches the controller: the proofs of the statements about the strobes of words, of step 2 of
`initialize`, of the handshake and of a transmit that fails, and about what the receiver makes of them. -/

namespace Sys2Proof.Machine

/-! ### What the far end got of a list of calls -/

/-- From `f` to `g` the far end was given the bus words `ws`, each at its event, and the receiver took them. -/
def Sees (f g : FarEnd) (ws : List (Nat × BusWord)) : Prop :=
  g.strobes = f.strobes ++ ws.map Prod.snd ∧ g.mode = (receiveAll f.mode ws).1 ∧
    g.delivered = f.delivered ++ (receiveAll f.mode ws).2

theorem receiveAll_append (m : RxMode) (ws ws' : List (Nat × BusWord)) :
    receiveAll m (ws ++ ws') =
      ((receiveAll (receiveAll m ws).1 ws').1, (receiveAll m ws).2 ++ (receiveAll (receiveAll m ws).1 ws').2) := by
  induction ws generalizing m with
  | nil => rfl
  | cons w ws ih => simp only [List.cons_append, receiveAll, ih, List.append_assoc]

theorem Sees.refl (f : FarEnd) : Sees f f [] := by simp [Sees, receiveAll]

theorem Sees.trans {f g h : FarEnd} {ws ws' : List (Nat × BusWord)} (hfg : Sees f g ws) (hgh : Sees g h ws') :
    Sees f h (ws ++ ws') := by
  obtain ⟨hs, hm, hd⟩ := hfg
  obtain ⟨hs', hm', hd'⟩ := hgh
  rw [hm] at hm' hd'
  rw [Sees, receiveAll_append, hs', hs, hm', hd', hd, List.map_append]
  exact ⟨List.append_assoc _ _ _, rfl, List.append_assoc _ _ _⟩

theorem observeAll_delays {nc : PinId} {d : Descriptor} {es : List Event} (h : ∀ e ∈ es, ∃ ms, e = .delay ms) (k : Nat)
    (f : FarEnd) : observeAll nc d k es f = f := by
  induction es generalizing k with
  | nil => rfl
  | cons e es ih =>
    obtain ⟨ms, rfl⟩ := h e List.mem_cons_self
    rw [observeAll, observe_delay, ih fun e' he' => h e' (List.mem_cons_of_mem _ he')]

/-- Waits after a list of calls change nothing at the far end. -/
theorem observeAll_append_delays {nc : PinId} {d : Descriptor} {k : Nat} {f : FarEnd} (es : List Event)
    {tail : List Event} (h : ∀ e ∈ tail, ∃ ms, e = .delay ms) :
    observeAll nc d k (es ++ tail) f = observeAll nc d k es f := by
  rw [observeAll_append, observeAll_delays h]

/-- A transmit from E and RW low: its strobes, and lines that still carry its byte with E and RW low. -/
theorem sees_tx {nc : PinId} {d : Descriptor} (hp : FramePins nc d) (k : Nat) (rs : Level) (v : Byte) {f : FarEnd}
    (hrw : RwLow nc d f) (hen : f.lines.en = some false) :
    Sees f (observeAll nc d k (txRef d rs v) f) (txStrobes d k rs v) ∧
      Carries nc d rs v (observeAll nc d k (txRef d rs v) f).lines ∧
      (observeAll nc d k (txRef d rs v) f).lines.en = some false := by
  obtain ⟨l, hl, hc, hlow⟩ := observeAll_tx (k := k) (rs := rs) (v := v) hp hrw hen
  rw [hl]
  exact ⟨⟨by rw [txStrobes_words], rfl, rfl⟩, hc, hlow⟩

/-! ### Words that are a transmit, with or without a wait after it -/

/-- Such a word, run from E and RW low with every call answered `ok`. -/
theorem exec_transmit_sees {i : Instr} {s : State} {rs : Level} {v : Byte} {tail : List Event}
    (hi : wordRef s.cfg i = txRef s.cfg rs v ++ tail) (htail : ∀ e ∈ tail, ∃ ms, e = .delay ms) (hc : canRun i s)
    (hp : pinsUsable s.pinNc s.cfg) (hq : linesQuiet s) (he : noEarlyRequest s)
    (ha : AllOk s (wordRef s.cfg i).length) :
    ∃ u t, exec i s = .next u ∧ run ((wordRef s.cfg i).length - 1) u = .next t ∧ t.cfg = s.cfg ∧
      Sees s.far t.far (txStrobes s.cfg s.trace.length rs v) ∧ linesQuiet t ∧ t.far.lines.rs = some rs := by
  obtain ⟨u, hu, hrun⟩ := exec_run hc he ha
  obtain ⟨hen, hrw⟩ := hq
  obtain ⟨hsees, hcarries, hlow⟩ := sees_tx (framePins_of_usable hp) s.trace.length rs v hrw hen
  have hfar : (ranItem (.word i) s.seq { s with seq := .word i :: s.seq }).far =
      observeAll s.pinNc s.cfg s.trace.length (txRef s.cfg rs v) s.far := by
    rw [← observeAll_append_delays _ htail, ← hi]
    rfl
  refine ⟨u, _, hu, hrun, rfl, ?_⟩
  rw [linesQuiet, hfar]
  exact ⟨hsees, ⟨hlow, hcarries.rw⟩, hcarries.rs⟩

/-- Settles O52: the strobes of `exec_transmit_sees`. -/
theorem transmitWordsStrobeTheirByte : Obligations.TransmitWordsStrobeTheirByte := by
  intro s i rs v tail hc he hi htail hp hq ha
  obtain ⟨u, t, hu, hrun, _, ⟨hstrobes, _⟩, hquiet, hrs⟩ := exec_transmit_sees hi htail hc hp hq he ha
  exact ⟨u, t, hu, hrun, by rw [hstrobes, txStrobes_words], hrs, hquiet⟩

/-! ### A receiver at the start of a byte -/

/-- The mode of a receiver at the start of a byte of the descriptor's bus width (rule R151). -/
def alignedMode (d : Descriptor) : RxMode := if d.bus8 then .m8 else .m4h

/-- A receiver at the start of a byte takes the byte of a transmit. -/
theorem receiveAll_tx {d : Descriptor} {rs : Level} {v : Byte} {ws : List (Nat × BusWord)}
    (h : ws.map Prod.snd = txWords d rs v) :
    receiveAll (alignedMode d) ws = (modeAfterByte (alignedMode d) rs v, [(rs, v)]) := by
  unfold txWords at h
  unfold alignedMode
  split at h
  · obtain ⟨⟨k, w⟩, rfl, rfl⟩ := List.map_eq_singleton_iff.1 h
    rw [if_pos ‹_›]
    rfl
  · obtain ⟨⟨k, w⟩, ws', rfl, rfl, h'⟩ := List.map_eq_cons_iff.1 h
    obtain ⟨⟨k', w'⟩, rfl, rfl⟩ := List.map_eq_singleton_iff.1 h'
    rw [if_neg ‹_›]
    simp [receiveAll, receive, BusWord.high, BusWord.rs, byte_of_nibbles]

/-- A byte that is no function set keeps the receiver's mode. -/
theorem modeAfterByte_of_not_functionSet {rs : Level} {v : Byte} (h : rs = true ∨ isFunctionSet v = false)
    (m : RxMode) : modeAfterByte m rs v = m := by
  rcases h with rfl | h
  · rfl
  · rw [modeAfterByte, h, Bool.and_false]
    rfl

/-- Every steady-state word is a transmit of its table word, no function set, with at most a wait after it. -/
theorem steadyWord_ref {i : Instr} (h : steadyWord i = true) (d : Descriptor) :
    ∃ rs v tail, (encode i).bits.testBit 8 = rs ∧ BitVec.ofNat 8 (encode i).bits = v ∧
      wordRef d i = txRef d rs v ++ tail ∧ (∀ e ∈ tail, ∃ ms, e = .delay ms) ∧
      (rs = true ∨ isFunctionSet v = false) := by
  have data : ∀ v, (word9 true v).testBit 8 = true ∧ BitVec.ofNat 8 (word9 true v) = v :=
    fun v => ⟨testBit_word9 true v, ofNat_word9 true v⟩
  cases i with
  | clear => exact ⟨false, 0x01, [.delay 50], by decide, by decide, rfl, by simp, by decide⟩
  | home => exact ⟨false, 0x02, [.delay 50], by decide, by decide, rfl, by simp, by decide⟩
  | setDisplayMode on cursor blink =>
    exact ⟨false, _, [], by revert on cursor blink; decide, by revert on cursor blink; decide,
      (List.append_nil _).symm, nofun, by revert on cursor blink; decide⟩
  | scrollLeft => exact ⟨false, 0x18, [], by decide, by decide, (List.append_nil _).symm, nofun, by decide⟩
  | scrollRight => exact ⟨false, 0x1C, [], by decide, by decide, (List.append_nil _).symm, nofun, by decide⟩
  | setTextDirection ltr autoscroll =>
    exact ⟨false, _, [], by revert ltr autoscroll; decide, by revert ltr autoscroll; decide,
      (List.append_nil _).symm, nofun, by revert ltr autoscroll; decide⟩
  | createCustomCharCgramAddress slot =>
    exact ⟨false, _, [], by revert slot; decide, by revert slot; decide, (List.append_nil _).symm, nofun,
      by revert slot; decide⟩
  | setCursor a =>
    exact ⟨false, _, [], by revert a; decide, ddramWord_byte a, (List.append_nil _).symm, nofun,
      by revert a; decide⟩
  | createCustomCharGlyphRow v | writeChar v | print v =>
    exact ⟨true, v, [], (data v).1, (data v).2, (List.append_nil _).symm, nofun, .inl rfl⟩
  | initializeRaw0011 | initializeRaw0010 | initializeFunctionSet | initializeDisplayDefault |
    initializeEntryDefault | transmitW8 | transmitW4x2 => exact absurd h Bool.false_ne_true

/-- Settles O21: a steady-state word is a transmit of its table word, which an aligned receiver takes. -/
theorem alignedReceiverGetsTheTableWord : Obligations.AlignedReceiverGetsTheTableWord := by
  intro s i hi hp hu hq hal he ha
  obtain ⟨rs, v, tail, hbit, hbyte, href, htail, hnot⟩ := steadyWord_ref hi s.cfg
  have hc := canRun_of_wellFormed (wellFormed_of_steadyWord hi s.cfg) fun _ => hp
  obtain ⟨u, t, hu', hrun, hcfg, ⟨-, hmode, hdel⟩, hquiet, -⟩ := exec_transmit_sees href htail hc hu hq he ha
  have hal' : s.far.mode = alignedMode s.cfg := hal
  rw [hal', receiveAll_tx (txStrobes_words _ _ _ _), modeAfterByte_of_not_functionSet hnot] at hmode
  rw [hal', receiveAll_tx (txStrobes_words _ _ _ _)] at hdel
  refine ⟨u, t, hu', hrun, ?_, hquiet, by rw [hdel, hbit, hbyte]⟩
  rw [aligned, hmode, hcfg, alignedMode]

/-! ### RS, RW and E low -/

/-- RS, RW and E are low, as step 2 of `initialize` leaves them. -/
def ControlLow (nc : PinId) (d : Descriptor) (f : FarEnd) : Prop :=
  f.lines.rs = some false ∧ RwLow nc d f ∧ f.lines.en = some false

/-- From RS, RW and E low the calls strobe exactly the bus words given, and leave RS, RW and E low. -/
def Shows (nc : PinId) (d : Descriptor) (es : List Event) (words : List BusWord) : Prop :=
  ∀ k f, ControlLow nc d f →
    ControlLow nc d (observeAll nc d k es f) ∧
      ∃ ws : List (Nat × BusWord), ws.map Prod.snd = words ∧ Sees f (observeAll nc d k es f) ws

theorem Shows.append {nc : PinId} {d : Descriptor} {es es' : List Event} {words words' : List BusWord}
    (h : Shows nc d es words) (h' : Shows nc d es' words') : Shows nc d (es ++ es') (words ++ words') := by
  intro k f hf
  obtain ⟨hlow, ws, rfl, hsees⟩ := h k f hf
  obtain ⟨hlow', ws', rfl, hsees'⟩ := h' (k + es.length) _ hlow
  rw [observeAll_append]
  exact ⟨hlow', ws ++ ws', List.map_append, hsees.trans hsees'⟩

theorem shows_delay (nc : PinId) (d : Descriptor) (ms : Nat) : Shows nc d [.delay ms] [] := by
  intro k f hf
  rw [observeAll_delays (by simp)]
  exact ⟨hf, [], rfl, Sees.refl f⟩

theorem shows_tx {nc : PinId} {d : Descriptor} (hp : FramePins nc d) (v : Byte) :
    Shows nc d (txRef d false v) (txWords d false v) := by
  rintro k f ⟨-, hrw, hen⟩
  obtain ⟨hsees, hc, hlow⟩ := sees_tx hp k false v hrw hen
  exact ⟨⟨hc.rs, hc.rw, hlow⟩, _, txStrobes_words d k false v, hsees⟩

theorem shows_raw {nc : PinId} {d : Descriptor} (hp : FramePins nc d) (hb : d.bus8 = false) (n : Nibble) :
    Shows nc d (rawRef d n) [.w4 false false n] := by
  rintro k f ⟨hrs, hrw, hen⟩
  obtain ⟨l, hl, hrs', hrw', hen'⟩ := observeAll_raw (k := k) (n := n) hp hb hrs hrw hen
  rw [hl]
  exact ⟨⟨hrs', hrw', hen'⟩, [(k + 8, .w4 false false n)], rfl, by simp [Sees, receiveAll]⟩

/-- A raw nibble word, run from RS, E and RW low. -/
theorem exec_raw_strobe {i : Instr} {n : Nibble} {s : State} (href : wordRef s.cfg i = rawRef s.cfg n)
    (hc : canRun i s) (hb : s.cfg.bus8 = false) (hp : pinsUsable s.pinNc s.cfg) (hq : linesQuiet s)
    (hrs : s.far.lines.rs = some false) (he : noEarlyRequest s) (ha : AllOk s 10) :
    ∃ u t, exec i s = .next u ∧ run 9 u = .next t ∧ t.far.strobes = s.far.strobes ++ [.w4 false false n] ∧
      linesQuiet t ∧ t.far.lines.rs = some false := by
  have hlen : (wordRef s.cfg i).length = 10 := by rw [href]; rfl
  obtain ⟨u, hu, hrun⟩ := exec_run hc he (by rwa [hlen])
  rw [hlen] at hrun
  obtain ⟨hen, hrw⟩ := hq
  obtain ⟨⟨hrs', hrw', hen'⟩, ws, hws, hstrobes, -⟩ :=
    shows_raw (framePins_of_usable hp) hb n s.trace.length s.far ⟨hrs, hrw, hen⟩
  rw [hws, ← href] at hstrobes
  rw [← href] at hrs' hrw' hen'
  exact ⟨u, _, hu, hrun, hstrobes, ⟨hen', hrw'⟩, hrs'⟩

/-- Settles O20: both raw words by `exec_raw_strobe`. -/
theorem rawNibbleIsOneStrobe : Obligations.RawNibbleIsOneStrobe := by
  intro s hb hp hq hrs he ha
  exact ⟨exec_raw_strobe (i := .initializeRaw0011) rfl (canRun_of_busWidth (by rw [hb]; rfl) rfl) hb hp hq hrs he ha,
    exec_raw_strobe (i := .initializeRaw0010) rfl (canRun_of_busWidth (by rw [hb]; rfl) rfl) hb hp hq hrs he ha⟩

/-! ### Step 2 of `initialize` -/

theorem busWord_rs {d : Descriptor} {l : Lines} {rs : Level} (h : l.rs = some rs) (nc : PinId) (k : Nat) :
    (busWord nc d k l).rs = rs := by
  unfold busWord
  split <;> simp [BusWord.rs, readLine, h]

/-- Step 2 leaves RS, RW and E low, after at most one stray strobe with RS and RW low: none from E low, one from E
high (rule R242). -/
theorem observeAll_setup_stray {nc : PinId} {d : Descriptor} (hp : FramePins nc d) (k : Nat) (f : FarEnd) :
    ControlLow nc d (observeAll nc d k (setupRef nc d) f) ∧
    ∃ stray, (observeAll nc d k (setupRef nc d) f).strobes = f.strobes ++ stray ∧ stray.length ≤ 1 ∧
      (∀ w ∈ stray, BusWord.rs w = false ∧ BusWord.rw w = false) ∧
      (f.lines.en = some false → stray = []) ∧ (f.lines.en = some true → stray.length = 1) := by
  obtain ⟨l₁, l₂, k', hobs, ⟨hrs₁, hrw₁⟩, hrs₂, hrw₂, hen₂⟩ := observeAll_setup (k := k) (f := f) hp
  rw [hobs]
  refine ⟨⟨hrs₂, hrw₂, hen₂⟩, ?_⟩
  rcases hfalls : enableFalls k' f.lines.en false .ok with _ | _
  · refine ⟨[], by simp [strobeIf], by simp, nofun, fun _ => rfl, fun hhigh => ?_⟩
    rw [hhigh] at hfalls
    cases hfalls
  · refine ⟨[busWord nc d k' l₁], rfl, Nat.le_refl 1, fun w hw => ?_, fun hlow => ?_, fun _ => rfl⟩
    · rw [List.mem_singleton] at hw
      rw [hw]
      exact ⟨busWord_rs hrs₁ nc k', busWord_rw (f := { f with lines := l₁ }) hrw₁⟩
    · rw [hlow] at hfalls
      cases hfalls

/-- Settles O22: step 2 is calls at hand, whose stray strobe is that of `observeAll_setup_stray`. -/
theorem setupStrobesOnlyIfEnableWasHigh : Obligations.SetupStrobesOnlyIfEnableWasHigh := by
  intro s rest hs he hp ha
  obtain ⟨t, hrun, rfl⟩ := run_calls_emitted hs (setupRef_ne_nil _ _) he ha
  obtain ⟨⟨hrs, hrw, hen⟩, stray, hstray⟩ :=
    observeAll_setup_stray (framePins_of_usable hp) s.trace.length s.far
  obtain ⟨hstrobes, hlen, hlow, hnone, hone⟩ := hstray
  exact ⟨_, stray, hrun, rfl, ⟨hen, hrw⟩, hrs, hstrobes, hlen, hlow, hnone, hone⟩

/-! ### The handshake at the receiver -/

/-- Three function sets that choose the 8-bit interface, sent whole or as high nibbles, bring a receiver into its 8-bit
mode whatever mode it was in (rules R114, R151). -/
theorem receiveAll_three {w : BusWord} (hrs : w.rs = false) (hhigh : w.high = 0x3)
    (hfull : ∀ k, modeAfterByte .m8 false (w.full k) = .m8) {ws : List (Nat × BusWord)}
    (h : ws.map Prod.snd = [w, w, w]) (m : RxMode) : (receiveAll m ws).1 = .m8 := by
  obtain ⟨⟨k₁, w₁⟩, ws₁, rfl, rfl, h₁⟩ := List.map_eq_cons_iff.1 h
  obtain ⟨⟨k₂, w₂⟩, ws₂, rfl, rfl, h₂⟩ := List.map_eq_cons_iff.1 h₁
  obtain ⟨⟨k₃, w₃⟩, rfl, rfl⟩ := List.map_eq_singleton_iff.1 h₂
  have stay : ∀ k, (receive k .m8 w₃).1 = .m8 := fun k => by rw [receive, hrs, hfull]
  have hold : ∀ k, (receive k .m4h w₃).1 = .m4l 0x3 := fun k => by rw [receive, hhigh]
  have join : ∀ k, (receive k (.m4l 0x3) w₃).1 = .m8 := fun k => by rw [receive, hrs, hhigh]; rfl
  have odd : ∀ k h, (receive k (.m4l h) w₃).1 = .m8 ∨ (receive k (.m4l h) w₃).1 = .m4h := fun k h => by
    rw [receive, hrs, hhigh]
    revert h
    decide
  simp only [receiveAll]
  cases m with
  | m8 => rw [stay, stay, stay]
  | m4h => rw [hold, join, stay]
  | m4l h =>
    rcases odd k₁ h with h₁ | h₁
    · rw [h₁, stay, stay]
    · rw [h₁, hold, join]

theorem modeAfterByte_raw (k : Nat) :
    modeAfterByte .m8 false ((BusWord.w4 false false 0x3).full k) = .m8 ∧
    modeAfterByte .m8 false ((BusWord.w4 false false 0x2).full k) = .m4h := by
  simp only [BusWord.full]
  generalize Config.undrivenLowNibble k = n
  revert n
  decide

/-- The four raw nibbles leave any receiver at the start of a byte in its 4-bit mode (rules R146, R151). -/
theorem receiveAll_rawNibbles {ws : List (Nat × BusWord)}
    (h : ws.map Prod.snd =
      [.w4 false false 0x3, .w4 false false 0x3, .w4 false false 0x3] ++ [.w4 false false 0x2]) (m : RxMode) :
    (receiveAll m ws).1 = .m4h := by
  obtain ⟨ws₁, ws₂, rfl, h₁, h₂⟩ := List.map_eq_append_iff.1 h
  obtain ⟨⟨k, w⟩, rfl, rfl⟩ := List.map_eq_singleton_iff.1 h₂
  rw [receiveAll_append, receiveAll_three rfl rfl (fun k => (modeAfterByte_raw k).1) h₁ m]
  exact (modeAfterByte_raw k).2

/-- The descriptor's function set chooses its own bus width. -/
theorem modeAfterByte_fsRef (m : RxMode) (d : Descriptor) : modeAfterByte m false (fsRef d) = alignedMode d := by
  have h : ∀ dl n f : Bool,
      isFunctionSet (functionByte dl n f) = true ∧ (functionByte dl n f).getLsbD 4 = dl := by decide
  obtain ⟨hset, hdl⟩ := h d.bus8 (twoLines d) d.largeFont
  rw [functionByte_eq, functionSet_eq_fsRef] at hset hdl
  rw [modeAfterByte, hset, hdl, alignedMode]
  rfl

/-- The last three transmits of `initialize`, at a receiver at the start of a byte: it takes their bytes and is at the
start of a byte again. -/
theorem receiveAll_last_three {d : Descriptor} {ws : List (Nat × BusWord)}
    (h : ws.map Prod.snd = txWords d false (fsRef d) ++ (txWords d false 0x0C ++ txWords d false 0x06)) :
    receiveAll (alignedMode d) ws =
      (alignedMode d, [(false, fsRef d), (false, 0x0C), (false, 0x06)]) := by
  obtain ⟨ws₁, ws', rfl, h₁, h'⟩ := List.map_eq_append_iff.1 h
  obtain ⟨ws₂, ws₃, rfl, h₂, h₃⟩ := List.map_eq_append_iff.1 h'
  have hkeep : ∀ m v, isFunctionSet v = false → modeAfterByte m false v = m :=
    fun m v hv => modeAfterByte_of_not_functionSet (.inr hv) m
  rw [receiveAll_append, receiveAll_tx h₁, modeAfterByte_fsRef, receiveAll_append, receiveAll_tx h₂,
    hkeep _ 0x0C (by decide), receiveAll_tx h₃, hkeep _ 0x06 (by decide)]
  rfl

/-- `initialize` as a whole, from its steps after step 2: words that lock the bus, then the last three transmits. -/
theorem run_initialize {s : State} {rs : List Request} {es : List Event} {lock : List BusWord}
    (hq : asked .initializeCall rs s) (hp : pinsUsable s.pinNc s.cfg)
    (ha : AllOk s (initializeRef s.pinNc s.cfg).length)
    (href : initializeRef s.pinNc s.cfg = setupRef s.pinNc s.cfg ++ es)
    (hes : Shows s.pinNc s.cfg es (lock ++ (txWords s.cfg false (fsRef s.cfg) ++
      (txWords s.cfg false 0x0C ++ txWords s.cfg false 0x06))))
    (hlock : ∀ ws : List (Nat × BusWord), ws.map Prod.snd = lock → ∀ m, (receiveAll m ws).1 = alignedMode s.cfg) :
    ∃ t stray before, run ((initializeRef s.pinNc s.cfg).length + 1) s = .next t ∧ t.phase = .ready ∧ t.seq = [] ∧
      t.outcomes = s.outcomes ++ [.ok] ∧
      t.far.strobes = s.far.strobes ++ stray ++ (lock ++ (txWords s.cfg false (fsRef s.cfg) ++
        (txWords s.cfg false 0x0C ++ txWords s.cfg false 0x06))) ∧
      stray.length ≤ 1 ∧ (∀ w ∈ stray, BusWord.rs w = false ∧ BusWord.rw w = false) ∧
      (s.far.lines.en = some false → stray = []) ∧ t.far.mode = alignedMode s.cfg ∧ linesQuiet t ∧
      t.far.delivered = before ++ [(false, fsRef s.cfg), (false, 0x0C), (false, 0x06)] := by
  obtain ⟨t, hrun, rfl⟩ := acceptedCallIssuesItsReferenceTrace s .initializeCall rs hq hp ha
  obtain ⟨hlow, stray, hstrobes, hlen, hstray, hnone, -⟩ :=
    observeAll_setup_stray (framePins_of_usable hp) s.trace.length s.far
  obtain ⟨⟨-, hrw, hen⟩, ws, hws, hsees⟩ := hes (s.trace.length + (setupRef s.pinNc s.cfg).length) _ hlow
  obtain ⟨ws₁, ws₂, rfl, h₁, h₂⟩ := List.map_eq_append_iff.1 hws
  rw [← observeAll_append, ← href] at hsees hrw hen
  obtain ⟨hs, hm, hd⟩ := hsees
  rw [receiveAll_append, hlock ws₁ h₁, receiveAll_last_three h₂] at hm hd
  exact ⟨_, stray, _, hrun, rfl, hq.1, if_pos hq.1, by rw [← hstrobes, ← hws]; exact hs, hlen, hstray, hnone, hm,
    ⟨hen, hrw⟩, hd.trans (List.append_assoc _ _ _).symm⟩

/-- Settles O26: the raw nibbles bring the receiver to the start of a byte, and the last three bytes reach it. -/
theorem fourBitInitializeLocksTheBus : Obligations.FourBitInitializeLocksTheBus := by
  intro s rs hq hp hb ha
  have hpins := framePins_of_usable hp
  have href : initializeRef s.pinNc s.cfg = setupRef s.pinNc s.cfg ++ ([.delay 50] ++ (rawRef s.cfg 0x3 ++
      ([.delay 5] ++ (rawRef s.cfg 0x3 ++ ([.delay 1] ++ (rawRef s.cfg 0x3 ++ (rawRef s.cfg 0x2 ++
        (txRef s.cfg false (fsRef s.cfg) ++ (txRef s.cfg false 0x0C ++ txRef s.cfg false 0x06))))))))) := by
    simp only [initializeRef, hb, Bool.false_eq_true, if_false, List.append_assoc]
  have hraw := fun n => shows_raw hpins hb n
  have hshows := (shows_delay s.pinNc s.cfg 50).append ((hraw 0x3).append ((shows_delay s.pinNc s.cfg 5).append
    ((hraw 0x3).append ((shows_delay s.pinNc s.cfg 1).append ((hraw 0x3).append ((hraw 0x2).append
      ((shows_tx hpins (fsRef s.cfg)).append ((shows_tx hpins 0x0C).append (shows_tx hpins 0x06)))))))))
  have halign : alignedMode s.cfg = .m4h := by rw [alignedMode, hb]; rfl
  obtain ⟨t, stray, before, hrun, hphase, hseq, hout, hstrobes, hstray, hlow, hnone, hmode, hquiet, hdel⟩ :=
    run_initialize (lock := [.w4 false false 0x3, .w4 false false 0x3, .w4 false false 0x3] ++ [.w4 false false 0x2])
      hq hp ha href hshows fun ws hws m => (receiveAll_rawNibbles hws m).trans halign.symm
  rw [halign] at hmode
  simp only [txWords, hb, Bool.false_eq_true, if_false] at hstrobes
  exact ⟨t, stray, before, hrun, hphase, hseq, hout, hstrobes, hstray, hlow, hnone, hmode, hquiet, hdel⟩

/-- On an 8-bit bus three function sets of the descriptor bring any receiver into its 8-bit mode (rules R145, R151). -/
theorem receiveAll_functionSets {d : Descriptor} (hb : d.bus8 = true) {ws : List (Nat × BusWord)}
    (h : ws.map Prod.snd = txWords d false (fsRef d) ++ (txWords d false (fsRef d) ++ txWords d false (fsRef d)))
    (m : RxMode) : (receiveAll m ws).1 = .m8 := by
  have hhigh : ∀ n f : Bool, (BusWord.w8 false false (functionByte true n f)).high = 0x3 := by decide
  have hfs : functionByte true (twoLines d) d.largeFont = fsRef d := by
    rw [← functionSet_eq_fsRef, functionByte_eq, hb]
  simp only [txWords, hb, if_true] at h
  refine receiveAll_three (w := .w8 false false (fsRef d)) rfl (hfs ▸ hhigh _ _) (fun k => ?_) h m
  rw [BusWord.full, modeAfterByte_fsRef, alignedMode, hb]
  rfl

/-- Settles O27: three function sets bring the receiver into its 8-bit mode, and the last three bytes reach it. -/
theorem eightBitInitializeLocksTheBus : Obligations.EightBitInitializeLocksTheBus := by
  intro s rs hq hp hb ha
  have hpins := framePins_of_usable hp
  have href : initializeRef s.pinNc s.cfg = setupRef s.pinNc s.cfg ++ ([.delay 50] ++
      (txRef s.cfg false (fsRef s.cfg) ++ ([.delay 5] ++ (txRef s.cfg false (fsRef s.cfg) ++ ([.delay 1] ++
        (txRef s.cfg false (fsRef s.cfg) ++ (txRef s.cfg false (fsRef s.cfg) ++ (txRef s.cfg false 0x0C ++
          txRef s.cfg false 0x06)))))))) := by
    simp only [initializeRef, hb, if_true, List.append_assoc]
  have hfs := shows_tx hpins (fsRef s.cfg)
  have hshows := (shows_delay s.pinNc s.cfg 50).append (hfs.append ((shows_delay s.pinNc s.cfg 5).append
    (hfs.append ((shows_delay s.pinNc s.cfg 1).append (hfs.append (hfs.append ((shows_tx hpins 0x0C).append
      (shows_tx hpins 0x06))))))))
  have halign : alignedMode s.cfg = .m8 := by rw [alignedMode, hb]; rfl
  obtain ⟨t, stray, before, hrun, hphase, hseq, hout, hstrobes, hstray, hlow, hnone, hmode, hquiet, hdel⟩ :=
    run_initialize (lock := txWords s.cfg false (fsRef s.cfg) ++ (txWords s.cfg false (fsRef s.cfg) ++
      txWords s.cfg false (fsRef s.cfg))) hq hp ha href (by simpa using hshows)
      fun ws hws m => (receiveAll_functionSets hb hws m).trans halign.symm
  rw [halign] at hmode
  simp only [txWords, hb, if_true] at hstrobes
  exact ⟨t, stray, before, hrun, hphase, hseq, hout, hstrobes, hstray, hlow, hnone, hmode, hquiet, hdel⟩

end Sys2Proof.Machine
end

section
/-! SUPPORT. A transmit that fails: the proof of the statement of 95_test_vectors.md section 2.7 about what has reached
the controller, by the place of the failing call. -/

namespace Sys2Proof.Machine

/-! ### Where a list of calls is split -/

/-- A split after the first part of a list is a split of its second part. -/
theorem split_of_length_le {xs ys before after : List Event} {e : Event} (h : xs ++ ys = before ++ e :: after)
    (hlen : xs.length ≤ before.length) : ∃ before', before = xs ++ before' ∧ ys = before' ++ e :: after := by
  rcases List.append_eq_append_iff.1 h with ⟨mid, hmid, hys⟩ | ⟨mid, hmid, hys⟩
  · exact ⟨mid, hmid, hys⟩
  · have hnil : mid = [] := by
      rw [hmid, List.length_append] at hlen
      exact List.length_eq_zero_iff.1 (by omega)
    subst hnil
    exact ⟨[], by simpa using hmid.symm, by simpa using hys.symm⟩

/-- A split within the first part of a list. -/
theorem split_of_lt_length {xs ys before after : List Event} {e : Event} (h : xs ++ ys = before ++ e :: after)
    (hlen : before.length < xs.length) : ∃ after', xs = before ++ e :: after' := by
  rcases List.append_eq_append_iff.1 h with ⟨mid, hmid, hys⟩ | ⟨mid, hmid, hys⟩
  · rw [hmid, List.length_append] at hlen
    omega
  · cases mid with
    | nil =>
      rw [hmid, List.append_nil] at hlen
      omega
    | cons x mid =>
      obtain ⟨rfl, -⟩ := List.cons.inj hys
      exact ⟨mid, hmid⟩

/-! ### Calls that make no strobe -/

/-- The calls write E only while it is low, from E at level `en` on: none of them can make it fall, failed or not. -/
def neverFalls (d : Descriptor) : Level → List Event → Prop
  | _, [] => True
  | en, .delay _ :: es => neverFalls d en es
  | en, .setDir p :: es => p ≠ d.enPin ∧ neverFalls d en es
  | en, .setLevel p v :: es => if p = d.enPin then en = false ∧ neverFalls d v es else neverFalls d en es

theorem SameReceived.refl (f : FarEnd) : SameReceived f f := ⟨rfl, rfl, rfl⟩

/-- A failed call that cannot make E fall strobes nothing. -/
theorem sameReceived_fail {nc : PinId} {d : Descriptor} {k : Nat} {e : Event} {es : List Event} {en : Level}
    {f : FarEnd} (h : neverFalls d en (e :: es)) (hen : f.lines.en = some en) :
    SameReceived f (f.observe nc d k e .fail) := by
  have hwrite : ∀ p v, (p = d.enPin → en = false) → SameReceived f (f.writePin nc d k p v .fail) := by
    intro p v hp
    rcases (writePin_fail nc d k p v f).2 with hsame | ⟨hpin, hhigh, -⟩
    · exact hsame
    · exact absurd (hp hpin ▸ hen) hhigh
  cases e with
  | delay ms => rw [observe_delay]; exact .refl f
  | setDir p => exact hwrite p false fun hp => absurd hp h.1
  | setLevel p v =>
    refine hwrite p v fun hp => ?_
    rw [neverFalls, if_pos hp] at h
    exact h.1

/-- A successful call that cannot make E fall strobes nothing, and the others cannot after it. -/
theorem sameReceived_ok {nc : PinId} {d : Descriptor} {k : Nat} {e : Event} {es : List Event} {en : Level} {f : FarEnd}
    (h : neverFalls d en (e :: es)) (hen : f.lines.en = some en) :
    SameReceived f (f.observe nc d k e .ok) ∧
      ∃ en', (f.observe nc d k e .ok).lines.en = some en' ∧ neverFalls d en' es := by
  cases e with
  | delay ms => rw [observe_delay]; exact ⟨.refl f, en, hen, h⟩
  | setDir p => exact ⟨.refl f, en, hen, h.2⟩
  | setLevel p v =>
    rw [neverFalls] at h
    by_cases hp : p = d.enPin
    · rw [if_pos hp] at h
      obtain ⟨rfl, hes⟩ := h
      subst hp
      rw [observe_en_of_low hen]
      exact ⟨.refl f, v, lineAfter_self _ _ _, hes⟩
    · rw [if_neg hp] at h
      rw [observe_setLevel_of_ne hp]
      exact ⟨.refl f, en, (lineAfter_of_ne _ _ hp).trans hen, h⟩

/-- Calls that cannot make E fall, up to one that fails, strobe nothing. -/
theorem sameReceived_of_neverFalls {nc : PinId} {d : Descriptor} {before after : List Event} {e : Event} {en : Level}
    {f : FarEnd} (k k' : Nat) (h : neverFalls d en (before ++ e :: after)) (hen : f.lines.en = some en) :
    SameReceived f ((observeAll nc d k before f).observe nc d k' e .fail) := by
  induction before generalizing en k f with
  | nil => exact sameReceived_fail h hen
  | cons b before ih =>
    obtain ⟨hsame, en', hen', h'⟩ := sameReceived_ok (nc := nc) (k := k) h hen
    exact hsame.trans (ih (k + 1) h' hen')

/-! ### The parts of a transmit -/

/-- A pulse up to the wait before its falling edge. -/
def pulseRise (d : Descriptor) : List Event :=
  [.setLevel d.enPin false, .delay 1, .setLevel d.enPin true, .delay 1]

theorem pulseRef_split (d : Descriptor) : pulseRef d = pulseRise d ++ [.setLevel d.enPin false] ++ [.delay 1] := rfl

theorem neverFalls_pulseRise (d : Descriptor) : neverFalls d false (pulseRise d) := by
  simp [pulseRise, neverFalls]

/-- Writes to other pins than E never make it fall. -/
theorem neverFalls_writes {d : Descriptor} {en : Level} {es es' : List Event}
    (h : ∀ e ∈ es, ∃ p v, e = .setLevel p v ∧ p ≠ d.enPin) (h' : neverFalls d en es') :
    neverFalls d en (es ++ es') := by
  induction es with
  | nil => exact h'
  | cons e es ih =>
    obtain ⟨p, v, rfl, hp⟩ := h e List.mem_cons_self
    rw [List.cons_append, neverFalls, if_neg hp]
    exact ih fun e' he' => h e' (List.mem_cons_of_mem _ he')

theorem nibbleRef_writes {nc : PinId} {d : Descriptor} (hp : FramePins nc d) (n : Nibble) :
    ∀ e ∈ nibbleRef d n, ∃ p v, e = .setLevel p v ∧ p ≠ d.enPin := by
  intro e he
  obtain ⟨j, hj, rfl⟩ : ∃ j ∈ List.range 4, Event.setLevel (dataPin d.dataPins j) (n.getLsbD j) = e := List.mem_map.1 he
  exact ⟨_, _, rfl, hp.data_en j (Nat.lt_of_lt_of_le (List.mem_range.1 hj) (four_le_ndata d))⟩

theorem byteRef_writes {nc : PinId} {d : Descriptor} (hp : FramePins nc d) (hb : d.bus8 = true) (v : Byte) :
    ∀ e ∈ byteRef d v, ∃ p v, e = .setLevel p v ∧ p ≠ d.enPin := by
  intro e he
  obtain ⟨j, hj, rfl⟩ : ∃ j ∈ List.range 8, Event.setLevel (dataPin d.dataPins j) (v.getLsbD j) = e := List.mem_map.1 he
  exact ⟨_, _, rfl, hp.data_en j (by simpa [ndata, hb] using hj)⟩

theorem neverFalls_rs {nc : PinId} {d : Descriptor} (hp : FramePins nc d) (rs : Level) {es : List Event}
    (h : neverFalls d false es) : neverFalls d false (.setLevel d.rsPin rs :: es) :=
  neverFalls_writes (es := [.setLevel d.rsPin rs]) (fun _ he => ⟨_, _, List.mem_singleton.1 he, hp.rs_en⟩) h

/-- A 4-bit transmit up to the wait before the first falling edge. -/
def highRise (d : Descriptor) (rs : Level) (v : Byte) : List Event :=
  .setLevel d.rsPin rs :: (nibbleRef d (v.extractLsb' 4 4) ++ pulseRise d)

/-- A 4-bit transmit up to the first falling edge. -/
def highStrobe (d : Descriptor) (rs : Level) (v : Byte) : List Event := highRise d rs v ++ [.setLevel d.enPin false]

/-- A 4-bit transmit from the wait after the first falling edge to the wait before the second. -/
def lowRise (d : Descriptor) (v : Byte) : List Event := .delay 1 :: (nibbleRef d (v.extractLsb' 0 4) ++ pulseRise d)

/-- An 8-bit transmit up to the wait before the falling edge. -/
def byteRise (d : Descriptor) (rs : Level) (v : Byte) : List Event :=
  .setLevel d.rsPin rs :: (byteRef d v ++ pulseRise d)

theorem txRef_four_split {d : Descriptor} (hb : d.bus8 = false) (rs : Level) (v : Byte) :
    txRef d rs v = highStrobe d rs v ++ (lowRise d v ++ ([.setLevel d.enPin false] ++ [.delay 1, .delay 1])) := by
  simp [txRef, hb, highStrobe, highRise, lowRise, pulseRef_split]

theorem txRef_eight_split {d : Descriptor} (hb : d.bus8 = true) (rs : Level) (v : Byte) :
    txRef d rs v = byteRise d rs v ++ ([.setLevel d.enPin false] ++ [.delay 1, .delay 1]) := by
  simp [txRef, hb, byteRise, pulseRef_split]

theorem neverFalls_highRise {nc : PinId} {d : Descriptor} (hp : FramePins nc d) (rs : Level) (v : Byte) :
    neverFalls d false (highRise d rs v) :=
  neverFalls_rs hp rs (neverFalls_writes (nibbleRef_writes hp _) (neverFalls_pulseRise d))

theorem neverFalls_lowRise {nc : PinId} {d : Descriptor} (hp : FramePins nc d) (v : Byte) :
    neverFalls d false (lowRise d v) :=
  neverFalls_writes (nibbleRef_writes hp _) (neverFalls_pulseRise d)

theorem neverFalls_byteRise {nc : PinId} {d : Descriptor} (hp : FramePins nc d) (hb : d.bus8 = true) (rs : Level)
    (v : Byte) : neverFalls d false (byteRise d rs v) :=
  neverFalls_rs hp rs (neverFalls_writes (byteRef_writes hp hb v) (neverFalls_pulseRise d))

/-- Writing RS only moves its line: RW and E stay low. -/
theorem observe_rs {nc : PinId} {d : Descriptor} (hp : FramePins nc d) (k : Nat) (rs : Level) {f : FarEnd}
    (hrw : RwLow nc d f) (hen : f.lines.en = some false) :
    ∃ l, f.observe nc d k (.setLevel d.rsPin rs) .ok = { f with lines := l } ∧ l.rs = some rs ∧
      (d.rwPin = nc ∨ l.rw = some false) ∧ l.en = some false := by
  refine ⟨_, observe_setLevel_of_ne hp.rs_en, lineAfter_self _ _ _, ?_, (lineAfter_of_ne _ _ hp.rs_en).trans hen⟩
  by_cases hnc : d.rwPin = nc
  · exact .inl hnc
  · exact .inr ((lineAfter_of_ne _ _ (hp.rw hnc).1.symm).trans (hrw.resolve_left hnc))

/-- The first strobe of a 4-bit transmit, from E and RW low: the high nibble, and E low again. -/
theorem sees_highStrobe {nc : PinId} {d : Descriptor} (hp : FramePins nc d) (hb : d.bus8 = false) (k : Nat) (rs : Level)
    (v : Byte) {f : FarEnd} (hrw : RwLow nc d f) (hen : f.lines.en = some false) :
    Sees f (observeAll nc d k (highStrobe d rs v) f) [(k + 9, .w4 rs false (v.extractLsb' 4 4))] ∧
      (observeAll nc d k (highStrobe d rs v) f).lines.en = some false := by
  have hsplit : highStrobe d rs v ++ [.delay 1] =
      .setLevel d.rsPin rs :: (dataRef d ((v.extractLsb' 4 4).setWidth 8) ++ pulseRef d) := by
    simp [highStrobe, highRise, pulseRef_split, dataRef, hb, high_as_byte]
  have hlen : (dataRef d ((v.extractLsb' 4 4).setWidth 8)).length = 4 := by simp [dataRef, hb, nibbleRef]
  obtain ⟨l, hl, hrs, hrw, hen⟩ := observe_rs hp k rs hrw hen
  obtain ⟨l₁, hl₁, hc₁, hen₁⟩ :=
    observeAll_data (k := k + 1) (v := (v.extractLsb' 4 4).setWidth 8) (f := { f with lines := l }) hp hrs hrw hen
  obtain ⟨l₂, hl₂, -, hen₂⟩ := observeAll_pulse (k := k + 1 + 4) (f := { f with lines := l₁ }) hp hc₁ hen₁
  have hfar := (observeAll_append_delays (nc := nc) (d := d) (k := k) (f := f) (highStrobe d rs v) (tail := [.delay 1])
    (by simp)).symm
  rw [hsplit, observeAll, hl, observeAll_append, hl₁, hlen, hl₂, carriedWord_high d rs v hb] at hfar
  rw [hfar]
  exact ⟨⟨rfl, rfl, by simp [receiveAll]⟩, hen₂⟩

/-! ### What a failed transmit has brought to the controller -/

/-- After the last falling edge of a transmit only waits are left: everything has been strobed. -/
theorem strobes_of_waits_left {nc : PinId} {d : Descriptor} (hp : FramePins nc d) {f : FarEnd} (hrw : RwLow nc d f)
    (hen : f.lines.en = some false) {rs : Level} {v : Byte} {xs before after : List Event} {e : Event} (k k' : Nat)
    (hxs : txRef d rs v = xs ++ [.delay 1, .delay 1]) (hsplit : txRef d rs v = before ++ e :: after)
    (hlen : xs.length ≤ before.length) :
    ((observeAll nc d k before f).observe nc d k' e .fail).strobes = f.strobes ++ txWords d rs v := by
  obtain ⟨before', -, hwaits⟩ := split_of_length_le (hxs.symm.trans hsplit) hlen
  have hdelays : ∀ e' ∈ e :: after, ∃ ms, e' = .delay ms := by
    intro e' he'
    have hmem : e' ∈ [Event.delay 1, .delay 1] := hwaits ▸ List.mem_append_right before' he'
    exact ⟨1, by simpa using hmem⟩
  obtain ⟨ms, rfl⟩ := hdelays e List.mem_cons_self
  obtain ⟨⟨hstrobes, -⟩, -⟩ := sees_tx hp k rs v hrw hen
  rw [hsplit, observeAll_append_delays _ hdelays, txStrobes_words] at hstrobes
  rw [observe_delay, hstrobes]

/-- A failure between the two falling edges of a 4-bit transmit: the controller got the high nibble. -/
theorem sees_of_failure_in_low {nc : PinId} {d : Descriptor} (hp : FramePins nc d) (hb : d.bus8 = false) {f : FarEnd}
    (hrw : RwLow nc d f) (hen : f.lines.en = some false) {rs : Level} {v : Byte} {before after : List Event} {e : Event}
    (k k' : Nat) (hsplit : txRef d rs v = before ++ e :: after) (h10 : 10 ≤ before.length) (h18 : before.length ≤ 18) :
    Sees f ((observeAll nc d k before f).observe nc d k' e .fail) [(k + 9, .w4 rs false (v.extractLsb' 4 4))] := by
  have hhigh : (highStrobe d rs v).length = 10 := rfl
  have hlow : (lowRise d v).length = 9 := rfl
  obtain ⟨before', rfl, hrest⟩ := split_of_length_le ((txRef_four_split hb rs v).symm.trans hsplit) (by omega)
  rw [List.length_append] at h18
  obtain ⟨after', hafter⟩ := split_of_lt_length hrest (by omega)
  obtain ⟨⟨hs, hm, hd⟩, hen'⟩ := sees_highStrobe hp hb k rs v hrw hen
  obtain ⟨hs', hm', hd'⟩ := sameReceived_of_neverFalls (nc := nc) (k + (highStrobe d rs v).length) k'
    (hafter ▸ neverFalls_lowRise hp v) hen'
  rw [observeAll_append]
  exact ⟨hs'.trans hs, hm'.trans hm, hd'.trans hd⟩

theorem failedAt_far (before : List Event) (e : Event) (s : State) :
    (failedAt before e s).far = (observeAll s.pinNc s.cfg s.trace.length before s.far).observe s.pinNc s.cfg
      (s.trace.length + before.length) e .fail := by
  rw [failed_failedAt before e s]

/-- Settles O53: the place of the failing call says which falling edges the calls before it had reached. -/
theorem failurePlaceFixesTheStrobes : Obligations.FailurePlaceFixesTheStrobes := by
  intro s i rs v tail before after e hc he hi hsplit hp hq ha hf
  have hword : wordRef s.cfg i = before ++ e :: (after ++ tail) := by rw [hi, hsplit]; simp
  obtain ⟨u, hu, hrun⟩ := exec_run_fail hc he hword ha hf
  have hpins := framePins_of_usable hp
  obtain ⟨hen, hrw⟩ := hq
  refine ⟨u, _, hu, hrun, rfl, ?_⟩
  rw [failedAt_far]
  refine ⟨fun hb h8 => ?_, fun hb h10 h18 => ?_, fun hb h20 => ?_, fun hb h12 => ?_, fun hb h14 => ?_⟩
  · have hlen : (highRise s.cfg rs v).length = 9 := rfl
    have hxs : highRise s.cfg rs v ++ (.setLevel s.cfg.enPin false :: (lowRise s.cfg v ++
        ([.setLevel s.cfg.enPin false] ++ [.delay 1, .delay 1]))) = txRef s.cfg rs v := by
      simp [txRef_four_split hb, highStrobe]
    obtain ⟨after', hafter⟩ := split_of_lt_length (hxs.trans hsplit) (by omega)
    exact sameReceived_of_neverFalls _ _ (hafter ▸ neverFalls_highRise hpins rs v) hen
  · obtain ⟨hstrobes, hmode, hdel⟩ := sees_of_failure_in_low hpins hb hrw hen s.trace.length
      (s.trace.length + before.length) hsplit h10 h18
    refine ⟨hstrobes, fun hm4h => ?_⟩
    rw [hm4h] at hmode hdel
    exact ⟨hmode, hdel.trans (List.append_nil _)⟩
  · have hxs : txRef s.cfg rs v = (highStrobe s.cfg rs v ++ lowRise s.cfg v ++ [.setLevel s.cfg.enPin false]) ++
        [.delay 1, .delay 1] := by simp [txRef_four_split hb]
    exact strobes_of_waits_left hpins hrw hen _ _ hxs hsplit h20
  · have hlen : (byteRise s.cfg rs v).length = 13 := rfl
    obtain ⟨after', hafter⟩ := split_of_lt_length ((txRef_eight_split hb rs v).symm.trans hsplit) (by omega)
    exact sameReceived_of_neverFalls _ _ (hafter ▸ neverFalls_byteRise hpins hb rs v) hen
  · have hxs : txRef s.cfg rs v = (byteRise s.cfg rs v ++ [.setLevel s.cfg.enPin false]) ++ [.delay 1, .delay 1] := by
      simp [txRef_eight_split hb]
    exact strobes_of_waits_left hpins hrw hen _ _ hxs hsplit h14

end Sys2Proof.Machine
end
